-- ==== Sys2Proof/Word.lean ====
section
/-! DEFINITION. The widths the block works in: registers and command words are 32 bits, buffer elements and text
symbols 8 bits, block offsets 18 bits (00_scope.md R6, R9; 10_state.md R14). -/

namespace Sys2Proof

/-- A register, a command word, or the data of one bus transaction (R6, R14, R17). -/
abbrev Word := BitVec 32

/-- One element of a byte sequence; a text symbol is one 8-bit code (R9). -/
abbrev Byte := BitVec 8

/-- A block offset: the 18 address bits of the bus slave port (R14, R31). -/
abbrev Offset := BitVec 18

end Sys2Proof
end

