-- ==== Sys2Proof/Syntax.lean ====
section
/-! DEFINITION. The commands: one constructor per row of spec/opcode_table.json (30_encoding.md R54). -/

namespace Sys2Proof

/-- FormatConfig: the ALPHA, PAD and CI fields of a command word (R12, R27, R47). -/
structure FormatConfig where
  /-- alphabet variant number within the opcode's family (R50); 4 bits in the word -/
  alpha : Nat
  /-- padding policy: with it, `=` to the block boundary (R51) -/
  pad : Bool
  /-- case-invariant decode (R52) -/
  ci : Bool
deriving DecidableEq, Repr

/-- A command. `throwing` is the T bit (R53): the throwing form if true, the try form if false. -/
inductive Instr where
  /-- base-16 encode (R76) -/
  | b16enc (throwing : Bool) (cfg : FormatConfig)
  /-- base-16 decode (R77) -/
  | b16dec (throwing : Bool) (cfg : FormatConfig)
  /-- base-32 encode (R84) -/
  | b32enc (throwing : Bool) (cfg : FormatConfig)
  /-- base-32 decode (R85) -/
  | b32dec (throwing : Bool) (cfg : FormatConfig)
  /-- base-58 encode (R90) -/
  | b58enc (throwing : Bool) (cfg : FormatConfig)
  /-- base-58 decode (R91) -/
  | b58dec (throwing : Bool) (cfg : FormatConfig)
  /-- base-64 encode (R100) -/
  | b64enc (throwing : Bool) (cfg : FormatConfig)
  /-- base-64 decode (R101) -/
  | b64dec (throwing : Bool) (cfg : FormatConfig)
  /-- append the checksum (R94) -/
  | chkadd (throwing : Bool) (cfg : FormatConfig)
  /-- verify the checksum (R95) -/
  | chkver (throwing : Bool) (cfg : FormatConfig)
  /-- strip the checksum unverified (R96) -/
  | chkrem (throwing : Bool) (cfg : FormatConfig)
  /-- base-58 encode with checksum (R97) -/
  | b58encc (throwing : Bool) (cfg : FormatConfig)
  /-- base-58 decode with checksum (R98) -/
  | b58decc (throwing : Bool) (cfg : FormatConfig)
deriving DecidableEq, Repr

/-- The T bit of a command (R53). -/
def Instr.throwing : Instr → Bool
  | .b16enc t _ | .b16dec t _ | .b32enc t _ | .b32dec t _ | .b58enc t _ | .b58dec t _ | .b64enc t _ | .b64dec t _
  | .chkadd t _ | .chkver t _ | .chkrem t _ | .b58encc t _ | .b58decc t _ => t

/-- The ALPHA, PAD and CI fields of a command (R47). -/
def Instr.format : Instr → FormatConfig
  | .b16enc _ c | .b16dec _ c | .b32enc _ c | .b32dec _ c | .b58enc _ c | .b58dec _ c | .b64enc _ c | .b64dec _ c
  | .chkadd _ c | .chkver _ c | .chkrem _ c | .b58encc _ c | .b58decc _ c => c

end Sys2Proof
end

