-- ==== Sys2Proof/WellFormed.lean ====
section
/-! DEFINITION. When a command has a command word: its ALPHA value fits the 4-bit field (30_encoding.md R47).
Every other field fits by its type. Whether an ALPHA value is *legal* for the opcode's family (R50) is no matter
of form: the block accepts such a word and completes it with UNSUPPORTED_CONFIG. -/

namespace Sys2Proof

/-- The ALPHA field is 4 bits wide (R47, bits 11:8). -/
def FormatConfig.wf (c : FormatConfig) : Bool := decide (c.alpha < 16)

/-- A command that has a command word (R47). -/
def Instr.wf (i : Instr) : Bool := i.format.wf

end Sys2Proof
end

