-- ==== Sys2Proof/Decode.lean ====
section
/-! DEFINITION. The command word (30_encoding.md R47, R54, R55): its fields, the decoder (total on all 2^32 words;
it rejects by name), and the encoder. -/

namespace Sys2Proof

/-- Why a word is an illegal command (R55). -/
inductive DecodeError where
  /-- RSV_H, bits 31:14, is not 0 -/
  | reservedHigh
  /-- RSV_L, bit 6, is not 0 -/
  | reservedLow
  /-- OP is 0x00 or in 0x0E to 0x3F -/
  | reservedOpcode (op : BitVec 6)
deriving DecidableEq, Repr

/-- OP, bits 5:0 (R47). -/
def opField (w : Word) : BitVec 6 := w.extractLsb' 0 6

/-- RSV_L, bit 6 (R47). -/
def rsvLowField (w : Word) : Bool := w.getLsbD 6

/-- T, bit 7 (R47). -/
def throwField (w : Word) : Bool := w.getLsbD 7

/-- ALPHA, bits 11:8 (R47). -/
def alphaField (w : Word) : BitVec 4 := w.extractLsb' 8 4

/-- PAD, bit 12 (R47). -/
def padField (w : Word) : Bool := w.getLsbD 12

/-- CI, bit 13 (R47). -/
def ciField (w : Word) : Bool := w.getLsbD 13

/-- RSV_H, bits 31:14 (R47). -/
def rsvHighField (w : Word) : BitVec 18 := w.extractLsb' 14 18

/-- The ALPHA, PAD and CI fields together; every field is read as an unsigned number (R49). -/
def formatField (w : Word) : FormatConfig :=
  { alpha := (alphaField w).toNat, pad := padField w, ci := ciField w }

/-- The opcode map (R54). -/
def decodeOp (op : Nat) (t : Bool) (c : FormatConfig) : Option Instr :=
  match op with
  | 0x01 => some (.b16enc t c)
  | 0x02 => some (.b16dec t c)
  | 0x03 => some (.b32enc t c)
  | 0x04 => some (.b32dec t c)
  | 0x05 => some (.b58enc t c)
  | 0x06 => some (.b58dec t c)
  | 0x07 => some (.b64enc t c)
  | 0x08 => some (.b64dec t c)
  | 0x09 => some (.chkadd t c)
  | 0x0A => some (.chkver t c)
  | 0x0B => some (.chkrem t c)
  | 0x0C => some (.b58encc t c)
  | 0x0D => some (.b58decc t c)
  | _ => none

/-- The decoder: a word is a command when RSV_H = 0, RSV_L = 0 and OP is in the map (R54, R55). -/
def decode (w : Word) : Except DecodeError Instr :=
  if rsvHighField w ≠ 0 then .error .reservedHigh
  else if rsvLowField w then .error .reservedLow
  else
    match decodeOp (opField w).toNat (throwField w) (formatField w) with
    | some i => .ok i
    | none => .error (.reservedOpcode (opField w))

/-- The opcode of a command (R54). -/
def Instr.opcode : Instr → BitVec 6
  | .b16enc _ _ => 0x01
  | .b16dec _ _ => 0x02
  | .b32enc _ _ => 0x03
  | .b32dec _ _ => 0x04
  | .b58enc _ _ => 0x05
  | .b58dec _ _ => 0x06
  | .b64enc _ _ => 0x07
  | .b64dec _ _ => 0x08
  | .chkadd _ _ => 0x09
  | .chkver _ _ => 0x0A
  | .chkrem _ _ => 0x0B
  | .b58encc _ _ => 0x0C
  | .b58decc _ _ => 0x0D

/-- The command word with the given fields, bit 31 first: `000000000000000000 C P AAAA T 0 OOOOOO` (R47). -/
def encodeFields (op : BitVec 6) (t : Bool) (c : FormatConfig) : Word :=
  0#18 ++ BitVec.ofBool c.ci ++ BitVec.ofBool c.pad ++ BitVec.ofNat 4 c.alpha ++ BitVec.ofBool t ++ 0#1 ++ op

/-- The command word of a command (R47, R54). -/
def encode (i : Instr) : Word := encodeFields i.opcode i.throwing i.format

/-- The command word with the bits of an opcode-table row's number: its low `nbits` bits, the rest 0. A command
is one 32-bit word, read exactly as written (R47, R48). -/
def tableWord (nbits w : Nat) : Word := BitVec.ofNat 32 (w % 2 ^ (min nbits 32))

/-- What the decoder reads from an opcode-table row's number. -/
def decodeTableWord (nbits w : Nat) : Option Instr :=
  match decode (tableWord nbits w) with
  | .ok i => some i
  | .error _ => none

end Sys2Proof
end

