-- ==== Sys2Proof/Config.lean ====
section
/-! DEFINITION. What an implementation fixes and the spec leaves OPEN (00_scope.md R6): the two buffer capacities and
HASH; and the free value behind every byte the spec leaves unspecified (93_implementation_defined.md, section 1).
Each is a constant without a body, so a claim that uses one holds for every value it could have. `N_INST` and
`BASE`, the two parameters of a platform of several blocks, are data of Machine/Platform.lean. -/

namespace Sys2Proof.Config

/-- A buffer capacity: 1 to 65536 bytes, the legal values of IN_CAP and OUT_CAP (R6). -/
structure Capacity where
  /-- one less than the number of bytes -/
  pred : Fin 65536
deriving DecidableEq, Repr, Inhabited

/-- The capacity in bytes, from 1 to 65536 (R6). -/
def Capacity.bytes (c : Capacity) : Nat := c.pred.val + 1

/-- One output of HASH: at least 4 bytes (R92), so four bytes and any more. -/
structure Digest where
  byte0 : Byte
  byte1 : Byte
  byte2 : Byte
  byte3 : Byte
  more : List Byte
deriving DecidableEq, Repr, Inhabited

/-- The bytes of a HASH output, in HASH's output order (R92). -/
def Digest.bytes (d : Digest) : List Byte := d.byte0 :: d.byte1 :: d.byte2 :: d.byte3 :: d.more

/-- IN_CAP: the capacity of IN_BUF, an OPEN parameter (R6). Log entry 1. -/
opaque inCap : Capacity

/-- OUT_CAP: the capacity of OUT_BUF, an OPEN parameter (R6). Log entry 1. -/
opaque outCap : Capacity

/-- HASH: a total function of its input alone, with at least 4 bytes of output, an OPEN parameter (R6, R92).
Log entry 2. -/
opaque hash : List Byte → Digest

/-- The free value of the byte at a block offset, in a copy of the block, at a draw number: nothing constrains it, and
nothing relates the values of two copies (R26, R38, R68, R116, R121). Log entries 4, 5, 6 and 13. -/
opaque freeByte (copy draw off : Nat) : Byte

end Sys2Proof.Config
end

