-- ==== Sys2Proof/Machine/State.lean ====
section
/-! DEFINITION. The state of one block (10_state.md), with the host's pending bus operations and the choice of who
moves next held in it as plain data; the reasons a step can stop; the state after reset. -/

namespace Sys2Proof.Machine

open Sys2Proof

/-- Byte storage by block offset: the (offset, byte) pairs stored since the last reset, offsets strictly rising.
An offset that is not listed holds no value of the model's: nothing was stored there, and the operations that read it
take a free value (R26, R121). -/
abbrev Memory := List Host.Cell

/-- The canonical form of a memory: offsets strictly rising. Equal contents are then equal lists. (An unlisted
offset holds no byte, so no entry can equal what an unlisted offset holds.) -/
abbrev Memory.wf (m : Memory) : Prop := m.Pairwise (fun x y => x.1 < y.1)

/-- The causes a command can fail with (60_exceptions.md R103, codes 1 to 6). -/
inductive CmdError where
  | invalidCharacter
  | invalidLength
  | checksumMismatch
  | unsupportedConfig
  | capacity
  | illegalCommand
deriving DecidableEq, Repr

/-- The stored fields of STATUS (R19). Its reserved bits have no storage. -/
structure Status where
  busy : Bool
  done : Bool
  ok : Bool
  err : BitVec 4
  ferr : Bool
  ovr : Bool
deriving DecidableEq, Repr

/-- The stored fields of IRQ_EN (R22). -/
structure IrqEn where
  doneIe : Bool
  ferrIe : Bool
deriving DecidableEq, Repr

/-- The encoder's working registers, under the source's names and at R28's widths (R28, R79). -/
structure EncWork where
  /-- the index of the current input byte, 0 to IN_CAP -/
  inputBytePosition : BitVec 17
  /-- how many bits of that byte are consumed, 0 to 7 -/
  inputBitOffsetWithinByte : BitVec 3
  /-- the symbol bits gathered so far -/
  outputSymbolAccumulator : BitVec 6
  /-- how many bits the accumulator holds, 0 to 6 -/
  outputBitCount : BitVec 3
deriving DecidableEq, Repr

/-- The decoder's mirrored working registers, at R28's widths (R28, R81). -/
structure DecWork where
  /-- the index of the current symbol -/
  symbolPosition : BitVec 17
  /-- how many bits of its digit are consumed -/
  symbolBitOffset : BitVec 3
  /-- the byte bits gathered so far -/
  byteAccumulator : BitVec 8
  /-- how many bits the accumulator holds -/
  byteBitCount : BitVec 4
deriving DecidableEq, Repr

/-- The encoder's working registers at the start of a command (R79). -/
def EncWork.start : EncWork := ⟨0, 0, 0, 0⟩

/-- The decoder's working registers at the start of a command (R81). -/
def DecWork.start : DecWork := ⟨0, 0, 0, 0⟩

/-- The engine's whole working state (R28). It exists only between accept and complete, and no register exposes it. -/
structure Work where
  /-- B32ENC, B64ENC -/
  enc : EncWork
  /-- B32DEC, B64DEC -/
  dec : DecWork
  /-- B58ENC, B58DEC, B58ENCC, B58DECC: the growable byte buffer of the divide-by-58 and multiply-by-58-and-add
  routines, most significant byte first -/
  bigInteger : List Byte
  /-- CHKADD, CHKVER, B58ENCC, B58DECC: what the hash unit holds, its message or the output of its last application -/
  hashState : List Byte
deriving DecidableEq, Repr

/-- The working state as accept initialises it (R66). Log entry 10. -/
def Work.start : Work := { enc := .start, dec := .start, bigInteger := [], hashState := [] }

/-- The size of a bus transaction: 1, 2 or 4 bytes (R14). -/
inductive Size where
  | b1
  | b2
  | b4
deriving DecidableEq, Repr

/-- One bus transaction (R14). -/
inductive Txn where
  | read (off : Offset) (size : Size)
  | write (off : Offset) (size : Size) (data : Word)
deriving DecidableEq, Repr

/-- One host bus operation: a transaction, or `poll`, which repeats a 32-bit read until the masked data has the
awaited value (R58). -/
inductive HostOp where
  | txn (t : Txn)
  | poll (off : Offset) (mask val : Word)
deriving DecidableEq, Repr

/-- The answer to a bus transaction: OKAY, with 32 data bits for a read, or BUSERR (R14, R105). -/
inductive Answer where
  | okRead (data : Word)
  | okWrite
  | busErr (off : Offset)
deriving DecidableEq, Repr

/-- Who moves next: the host with its next bus operation, the engine, or the `rst` port (R13, R14, R124). -/
inductive Turn where
  | host
  | engine
  | reset
deriving DecidableEq, Repr

/-- A step of this machine raises no fault: the block raises no trap (R112), every command completes with a code in
STATUS (R68, R103), and a refused bus transaction is answered BUSERR, which is an answer and no stop (R105). So there
is no reason to list. Safe: nothing stops where the hardware goes on. -/
inductive Fault where
deriving DecidableEq, Repr

/-- Why a command has no meaning in the model. -/
inductive Refusal where
  /-- Raised by an arm of `exec` for a command without a meaning yet; no arm raises it now. Safe: the model stops
  where the hardware goes on. -/
  | notModelled (mnemonic : String)
deriving DecidableEq, Repr

/-- The state of one block and of the data that drives it. -/
structure State where
  /-- CMD: the last accepted command word (R18) -/
  cmd : Word
  /-- STATUS (R19) -/
  status : Status
  /-- IN_LEN (R20) -/
  inLen : Word
  /-- OUT_LEN (R21) -/
  outLen : Word
  /-- IRQ_EN (R22) -/
  irqEn : IrqEn
  /-- IN_CAP, what IN_CAPR reads (R24) -/
  inCap : Config.Capacity
  /-- OUT_CAP, what OUT_CAPR reads (R24) -/
  outCap : Config.Capacity
  /-- the stored bytes of IN_BUF and OUT_BUF (R26) -/
  mem : Memory
  /-- the engine's working state, `none` outside a command (R28) -/
  work : Option Work
  /-- the host's remaining bus operations, next first (R16, R58). Log entry 9. -/
  program : List HostOp
  /-- who moves in the next steps; after the last, the engine while BUSY and the host otherwise. Log entry 3. -/
  turns : List Turn
  /-- the bus port's last answer (R14). Log entry 8. -/
  answer : Option Answer
  /-- the number of the next free-value draw. Log entry 6. -/
  draws : Nat
  /-- the draw of the last reset, which names the unspecified contents of IN_BUF. Log entry 4. -/
  epoch : Nat
  /-- which of the platform's copies of the block this is, so that each has free values of its own; no register of the
  block tells it (R116). Log entry 13. -/
  copy : Nat
deriving DecidableEq, Repr

/-- STATUS after reset: 0 (R30). -/
def Status.reset : Status := { busy := false, done := false, ok := false, err := 0, ferr := false, ovr := false }

/-- The machine right after a hardware reset (R30, R119), with the OPEN capacities, no bus operation pending and no
turn chosen. -/
def State.reset : State where
  cmd := 0
  status := .reset
  inLen := 0
  outLen := 0
  irqEn := { doneIe := false, ferrIe := false }
  inCap := Config.inCap
  outCap := Config.outCap
  mem := []
  work := none
  program := []
  turns := []
  answer := none
  draws := 0
  epoch := 0
  copy := 0

end Sys2Proof.Machine
end

