-- ==== Sys2Proof/Machine/Flags.lean ====
section
/-! DEFINITION. STATUS, IRQ_EN and `irq` (10_state.md R19, R22, R25; 60_exceptions.md R103, R110): the words they
read as, and everything that writes a flag (accept, complete, a CMD write while BUSY, a host write). -/

namespace Sys2Proof.Machine

open Sys2Proof

/-- The code in STATUS.ERR (R103). -/
def CmdError.code : CmdError → BitVec 4
  | .invalidCharacter => 1
  | .invalidLength => 2
  | .checksumMismatch => 3
  | .unsupportedConfig => 4
  | .capacity => 5
  | .illegalCommand => 6

/-- What STATUS reads as: bit 31 first, reserved bits 0 (R19). -/
def statusWord (st : Status) : Word :=
  0#22 ++ BitVec.ofBool st.ovr ++ BitVec.ofBool st.ferr ++ st.err ++ 0#1 ++ BitVec.ofBool st.ok
    ++ BitVec.ofBool st.done ++ BitVec.ofBool st.busy

/-- What IRQ_EN reads as (R22). -/
def irqEnWord (e : IrqEn) : Word := 0#30 ++ BitVec.ofBool e.ferrIe ++ BitVec.ofBool e.doneIe

/-- What a write to IRQ_EN stores: bits 1 and 0 (R22). -/
def irqEnOf (w : Word) : IrqEn := { doneIe := w.getLsbD 0, ferrIe := w.getLsbD 1 }

/-- A write to STATUS: a 1 clears DONE, FERR or OVR, and nothing else changes (R19). -/
def clearFlags (w : Word) (st : Status) : Status :=
  { st with done := st.done && !w.getLsbD 1, ferr := st.ferr && !w.getLsbD 8, ovr := st.ovr && !w.getLsbD 9 }

/-- The flags at accept (R66). -/
def acceptFlags (st : Status) : Status := { st with busy := true, done := false, ok := false, err := 0 }

/-- The flags after a CMD write that was dropped (R67). -/
def overrunFlags (st : Status) : Status := { st with ovr := true }

/-- The flags at a successful complete (R68). -/
def successFlags (st : Status) : Status := { st with busy := false, done := true, ok := true, err := 0 }

/-- The flags at a failed complete; the throwing form raises FormatError by setting FERR (R68, R107). -/
def failureFlags (throwing : Bool) (e : CmdError) (st : Status) : Status :=
  { st with busy := false, done := true, ok := false, err := e.code, ferr := st.ferr || throwing }

/-- The level of the `irq` output (R110). -/
def irqLevel (st : Status) (en : IrqEn) : Bool := (st.done && en.doneIe) || (st.ferr && en.ferrIe)

/-- The level of the `irq` output in a state: it follows R110 after every transition (R111). -/
def irq (s : State) : Bool := irqLevel s.status s.irqEn

end Sys2Proof.Machine
end

