-- ==== Sys2Proof/Machine/Alphabet.lean ====
section
/-! DEFINITION. The alphabet_config unit (40_common.md R60 to R65): the alphabet ROM and symbol lookup. -/

namespace Sys2Proof.Machine

open Sys2Proof

/-- The codec families that select an alphabet (R50). -/
inductive Family where
  | base16
  | base32
  | base58
  | base64
deriving DecidableEq, Repr

/-- The 8-bit code of a character (R9). -/
def code (c : Char) : Byte := BitVec.ofNat 8 c.toNat

/-- The byte sequence a quoted string stands for (R9). -/
def text (s : String) : List Byte := s.toList.map code

/-- The pad character `=` (R63). -/
def padChar : Byte := 0x3D

/-- The base-16 alphabets, in ALPHA order: upper, lower (R61). Log entry 11. -/
def base16Rom : List (List Byte) := [text "0123456789ABCDEF", text "0123456789abcdef"]

/-- The base-32 alphabets, in ALPHA order: rfc4648, zbase32, geohash, crockford, base32hex (R61). Log entry 11. -/
def base32Rom : List (List Byte) :=
  [text "ABCDEFGHIJKLMNOPQRSTUVWXYZ234567",
   text "ybndrfg8ejkmcpqxot1uwisza345h769",
   text "0123456789bcdefghjkmnpqrstuvwxyz",
   text "0123456789ABCDEFGHJKMNPQRSTVWXYZ",
   text "0123456789ABCDEFGHIJKLMNOPQRSTUV"]

/-- The base-58 alphabets, in ALPHA order: bitcoin, ripple, flickr (R61). Log entry 11. -/
def base58Rom : List (List Byte) :=
  [text "123456789ABCDEFGHJKLMNPQRSTUVWXYZabcdefghijkmnopqrstuvwxyz",
   text "rpshnaf39wBUDNEGHJKLM4PQRST7VWXYZ2bcdeCg65jkm8oFqi1tuvAxyz",
   text "123456789abcdefghijkmnopqrstuvwxyzABCDEFGHJKLMNPQRSTUVWXYZ"]

/-- The one base-64 alphabet: rfc4648 (R61). Log entry 11. -/
def base64Rom : List (List Byte) :=
  [text "ABCDEFGHIJKLMNOPQRSTUVWXYZabcdefghijklmnopqrstuvwxyz0123456789+/"]

/-- The alphabets of a family, in ALPHA order (R61). -/
def familyRom : Family → List (List Byte)
  | .base16 => base16Rom
  | .base32 => base32Rom
  | .base58 => base58Rom
  | .base64 => base64Rom

/-- The alphabet an ALPHA value selects; `none` where the value is not legal for the family (R50, R61). -/
def rom (f : Family) (alpha : Nat) : Option (List Byte) := (familyRom f)[alpha]?

/-- `A[d]`: the symbol of digit `d` (R10). -/
def symbol (A : List Byte) (d : Nat) : Byte := A.getD d 0

/-- The digit whose symbol is exactly `c`, counted from 0 (R64, first test). -/
def indexOf : List Byte → Byte → Option Nat
  | [], _ => none
  | a :: rest, c => if a = c then some 0 else (indexOf rest c).map (· + 1)

/-- `Lookup(A, ci, c)`: the digit of character `c`, with the other case of a letter accepted when `ci` (R64, R65). -/
def lookup (A : List Byte) (ci : Bool) (c : Byte) : Option Nat :=
  match indexOf A c with
  | some d => some d
  | none =>
    match (if ci ∧ 0x41 ≤ c.toNat ∧ c.toNat ≤ 0x5A then indexOf A (c + 0x20) else none) with
    | some d => some d
    | none => if ci ∧ 0x61 ≤ c.toNat ∧ c.toNat ≤ 0x7A then indexOf A (c - 0x20) else none

/-- The digits of a text, or `none` if some character is not found (R77, R81, R88). -/
def lookupAll (A : List Byte) (ci : Bool) : List Byte → Option (List Nat)
  | [] => some []
  | c :: cs =>
    match lookup A ci c, lookupAll A ci cs with
    | some d, some ds => some (d :: ds)
    | _, _ => none

end Sys2Proof.Machine
end

