-- ==== Sys2Proof/Machine/Memory.lean ====
section
/-! DEFINITION. Byte storage by offset, kept in its canonical form: reading a byte, storing bytes, and making a range
unspecified. -/

namespace Sys2Proof.Machine

open Sys2Proof

/-- The byte stored at an offset, if one was stored. -/
def Memory.get? : Memory → Nat → Option Byte
  | [], _ => none
  | (b, v) :: rest, a => if b = a then some v else Memory.get? rest a

/-- Stores one byte at an offset. -/
def Memory.set : Memory → Nat → Byte → Memory
  | [], a, v => [(a, v)]
  | (b, u) :: rest, a, v =>
    if a < b then (a, v) :: (b, u) :: rest
    else if a = b then (a, v) :: rest
    else (b, u) :: Memory.set rest a v

/-- Stores a byte sequence at consecutive offsets, its first byte at `a`. -/
def Memory.setBytes (m : Memory) (a : Nat) : List Byte → Memory
  | [] => m
  | v :: vs => Memory.setBytes (m.set a v) (a + 1) vs

/-- Makes `n` bytes from `a` on unspecified: nothing of the model's is stored there any more (R26, R68). -/
def Memory.forget (m : Memory) (a n : Nat) : Memory := m.filter (fun c => decide (c.1 < a ∨ a + n ≤ c.1))

end Sys2Proof.Machine
end

