-- ==== Sys2Proof/Machine/Operands.lean ====
section
/-! DEFINITION. The implicit operands of a command (30_encoding.md R49) and the checks every command shares
(40_common.md R69, R70): its input bytes, its alphabet, its working state (10_state.md R28), the room for its output. -/

namespace Sys2Proof.Machine

open Sys2Proof

/-- The block offset of IN_BUF (R32). -/
def inBase : Nat := 0x10000

/-- The block offset of OUT_BUF (R32). -/
def outBase : Nat := 0x20000

/-- Byte `i` of IN_BUF: what the host stored there since the last reset, else the free value its unspecified contents
have since that reset (R26, R121). Log entry 4. -/
def inByte (s : State) (i : Nat) : Byte :=
  match s.mem.get? (inBase + i) with
  | some b => b
  | none => Config.freeByte s.copy s.epoch (inBase + i)

/-- The input of a command: `IN_BUF[0 : IN_LEN]` (R40, R49). -/
def inputBytes (s : State) : List Byte := (List.range s.inLen.toNat).map (inByte s)

/-- Reads the input, which must fit IN_BUF; else CAPACITY (R69, R70). -/
def fetchInput (s : State) : Except CmdError (List Byte) :=
  if s.inCap.bytes < s.inLen.toNat then .error .capacity else .ok (inputBytes s)

/-- Passes an output that fits OUT_BUF; else CAPACITY (R69, R70). -/
def fitOutput (s : State) (out : List Byte) : Except CmdError (List Byte) :=
  if s.outCap.bytes < out.length then .error .capacity else .ok out

/-- The working state a command runs in: the one accept initialised (R28, R66). Without a command there is none, and
an operation that is run all the same starts as accept would start it. -/
def engineWork (s : State) : Work := s.work.getD Work.start

/-- Runs an operation of the engine in the working state and gives its result; what it leaves in the working state
ends with the command (R28). -/
def onWork (s : State) (op : Work → Work × Except CmdError (List Byte)) : Except CmdError (List Byte) :=
  (op (engineWork s)).2

/-- The result of an operation that always has an output. -/
def produces (r : Work × List Byte) : Work × Except CmdError (List Byte) := (r.1, .ok r.2)

/-- Runs an operation on the input, between the two capacity checks (R69). -/
def executeOver (s : State) (op : List Byte → Except CmdError (List Byte)) : Except CmdError (List Byte) :=
  match fetchInput s with
  | .error e => .error e
  | .ok input =>
    match op input with
    | .error e => .error e
    | .ok out => fitOutput s out

/-- Runs a codec operation: its ALPHA value must be legal for the family, else UNSUPPORTED_CONFIG, which comes before
the capacity checks (R69, R106). -/
def executeCodec (f : Family) (cfg : FormatConfig) (s : State)
    (op : List Byte → List Byte → Except CmdError (List Byte)) : Except CmdError (List Byte) :=
  match rom f cfg.alpha with
  | none => .error .unsupportedConfig
  | some A => executeOver s (op A)

end Sys2Proof.Machine
end

