-- ==== Sys2Proof/Machine/Ops.lean ====
section
/-! DEFINITION. The shared operations of the block: accept and overrun (40_common.md R66, R67), the two ends of a
complete step (R68), of which a failure is the block's one error mechanism (60_exceptions.md R107, R108), the
acknowledgement that stands in for a return (R109), and reset (70_reset_and_hazards.md R119, R120). -/

namespace Sys2Proof.Machine

open Sys2Proof

/-- Accept: a command word starts a command (R66). -/
def accept (w : Word) (s : State) : State :=
  { s with cmd := w, status := acceptFlags s.status, outLen := 0, work := some Work.start }

/-- A command word while BUSY is dropped; only OVR is set (R67). -/
def overrun (s : State) : State := { s with status := overrunFlags s.status }

/-- Complete with success: the output goes to OUT_BUF from index 0 and its length to OUT_LEN (R41, R68). -/
def succeed (out : List Byte) (s : State) : State :=
  { s with
    mem := s.mem.setBytes outBase out
    outLen := BitVec.ofNat 32 out.length
    status := successFlags s.status
    work := none }

/-- Complete with failure: the code goes to STATUS.ERR, OUT_LEN is 0, OUT_BUF is unspecified, FERR is set for the
throwing form, and nothing else changes (R68, R107, R108). -/
def failWith (throwing : Bool) (e : CmdError) (s : State) : State :=
  { s with
    mem := s.mem.forget outBase s.outCap.bytes
    outLen := 0
    status := failureFlags throwing e s.status
    work := none }

/-- The complete step with the result of a command's execution (R68). -/
def complete (throwing : Bool) (r : Except CmdError (List Byte)) (s : State) : State :=
  match r with
  | .ok out => succeed out s
  | .error e => failWith throwing e s

/-- The complete step of an illegal command word; its T bit still selects the throwing form (R55, R69). -/
def completeIllegal (s : State) : State := failWith (throwField s.cmd) .illegalCommand s

/-- The host's acknowledgement: a write to STATUS (R19, R109). -/
def acknowledge (w : Word) (s : State) : State := { s with status := clearFlags w s.status }

/-- Either reset: every piece of the block's state takes its value after reset, the capacities, the copy
number and the host's own data stay, and the buffers' unspecified contents are a new draw (R30, R119, R120, R121). Log entries 4 and 15. -/
def resetBlock (s : State) : State :=
  { State.reset with
    inCap := s.inCap
    outCap := s.outCap
    program := s.program
    turns := s.turns
    answer := s.answer
    draws := s.draws + 1
    epoch := s.draws + 1
    copy := s.copy }

end Sys2Proof.Machine
end

