-- ==== Sys2Proof/Machine/Bus.lean ====
section
/-! DEFINITION. The bus slave port (10_state.md R14, R17 to R24; 20_memory.md R31 to R38): the address map, register
and buffer accesses, and the host's bus operations (30_encoding.md R58). -/

namespace Sys2Proof.Machine

open Sys2Proof

/-- The registers of the map (R17). -/
inductive Reg where
  | cmd
  | status
  | inLen
  | outLen
  | irqEn
  | ctrl
  | inCapr
  | outCapr
deriving DecidableEq, Repr

/-- What a legal access reaches: a register, or the bytes of a buffer from an index on (R32). -/
inductive Target where
  | reg (r : Reg)
  | inBuf (i : Nat)
  | outBuf (j : Nat)
deriving DecidableEq, Repr

/-- The number of bytes of an access. -/
def Size.bytes : Size → Nat
  | .b1 => 1
  | .b2 => 2
  | .b4 => 4

/-- The register at an offset (R17). -/
def regAt (off : Nat) : Option Reg :=
  match off with
  | 0x000 => some .cmd
  | 0x004 => some .status
  | 0x008 => some .inLen
  | 0x00C => some .outLen
  | 0x010 => some .irqEn
  | 0x014 => some .ctrl
  | 0x018 => some .inCapr
  | 0x01C => some .outCapr
  | _ => none

/-- Whether an access of `n` bytes at `off` is naturally aligned and inside the `cap` bytes from `base` (R35). -/
def inBuffer (base cap off n : Nat) : Bool := decide (base ≤ off ∧ off + n ≤ base + cap ∧ off % n = 0)

/-- The address map (R32 to R35): what an access reaches, or `none` where the bus answers BUSERR. A register
access is a 32-bit access at a multiple of 4; a buffer access is naturally aligned and inside the buffer. -/
def target (s : State) (off : Offset) (size : Size) : Option Target :=
  let a := off.toNat
  let n := size.bytes
  if a < 0x20 then
    match size with
    | .b4 => (regAt a).map .reg
    | _ => none
  else if inBuffer inBase s.inCap.bytes a n then some (.inBuf (a - inBase))
  else if inBuffer outBase s.outCap.bytes a n then some (.outBuf (a - outBase))
  else none

/-- What a register reads as (R17 to R24). -/
def readReg (r : Reg) (s : State) : Word :=
  match r with
  | .cmd => s.cmd
  | .status => statusWord s.status
  | .inLen => s.inLen
  | .outLen => s.outLen
  | .irqEn => irqEnWord s.irqEn
  | .ctrl => 0
  | .inCapr => BitVec.ofNat 32 s.inCap.bytes
  | .outCapr => BitVec.ofNat 32 s.outCap.bytes

/-- A write to a register (R17 to R24); `none` where it is refused with BUSERR, as IN_LEN is while BUSY (R38). -/
def writeReg (r : Reg) (v : Word) (s : State) : Option State :=
  match r with
  | .cmd => some (if s.status.busy then overrun s else accept v s)
  | .status => some (acknowledge v s)
  | .inLen => if s.status.busy then none else some { s with inLen := v }
  | .outLen => some s
  | .irqEn => some { s with irqEn := irqEnOf v }
  | .ctrl => some (if v.getLsbD 0 then resetBlock s else s)
  | .inCapr => some s
  | .outCapr => some s

/-- Byte `j` of OUT_BUF as the host reads it: specified only below OUT_LEN and while no command runs; otherwise a
free value, drawn anew for each read (R26, R38). Log entry 5. -/
def outByte (s : State) (j : Nat) : Byte :=
  if s.status.busy ∨ s.outLen.toNat ≤ j then Config.freeByte s.copy s.draws (outBase + j)
  else
    match s.mem.get? (outBase + j) with
    | some b => b
    | none => Config.freeByte s.copy s.draws (outBase + j)

/-- Bus data from bytes: the byte at the lowest offset in bits 7:0, the bits above the last byte 0 (R36). -/
def joinBytes : List Byte → Word
  | [] => 0
  | b :: rest => b.setWidth 32 ||| (joinBytes rest <<< 8)

/-- The low `n` bytes of bus data, the one for the lowest offset first (R36). -/
def splitBytes (n : Nat) (v : Word) : List Byte := (List.range n).map (fun k => v.extractLsb' (8 * k) 8)

/-- A read transaction's data, or `none` for BUSERR. Reads have no side effect (R37). -/
def busRead (off : Offset) (size : Size) (s : State) : Option Word :=
  match target s off size with
  | none => none
  | some (.reg r) => some (readReg r s)
  | some (.inBuf i) => some (joinBytes ((List.range size.bytes).map (fun k => inByte s (i + k))))
  | some (.outBuf j) => some (joinBytes ((List.range size.bytes).map (fun k => outByte s (j + k))))

/-- A write transaction's effect, or `none` for BUSERR, which changes nothing: reserved offsets, ill-formed accesses,
OUT_BUF always, IN_BUF and IN_LEN while BUSY (R32 to R35, R38). -/
def busWrite (off : Offset) (size : Size) (v : Word) (s : State) : Option State :=
  match target s off size with
  | none => none
  | some (.reg r) => writeReg r v s
  | some (.inBuf i) =>
    if s.status.busy then none
    else some { s with mem := s.mem.setBytes (inBase + i) (splitBytes size.bytes v) }
  | some (.outBuf _) => none

/-- Records the bus answer; the next free-value draw has a new number (R14). Log entries 6 and 8. -/
def respond (a : Answer) (s : State) : State := { s with answer := some a, draws := s.draws + 1 }

/-- One bus transaction, whole before the next one (R42). -/
def transact (t : Txn) (s : State) : State :=
  match t with
  | .read off size =>
    match busRead off size s with
    | some d => respond (.okRead d) s
    | none => respond (.busErr off) s
  | .write off size v =>
    match busWrite off size v s with
    | some s' => respond .okWrite s'
    | none => respond (.busErr off) s

/-- Whether a poll's read gave the awaited value (R58). -/
def pollDone (mask val : Word) (a : Option Answer) : Bool :=
  match a with
  | some (.okRead d) => d &&& mask == val
  | _ => false

/-- The host's turn: its next bus operation. A poll stays next until its value appears (R58); with no operation left
nothing happens. Log entry 9. -/
def hostTurn (s : State) : State :=
  match s.program with
  | [] => s
  | .txn t :: rest => transact t { s with program := rest }
  | .poll off mask val :: rest =>
    let s' := transact (.read off .b4) s
    if pollDone mask val s'.answer then { s' with program := rest } else s'

end Sys2Proof.Machine
end

