-- ==== Sys2Proof/Machine/Base16.lean ====
section
/-! DEFINITION. The base-16 commands (41_base16.md). -/

namespace Sys2Proof.Machine

open Sys2Proof

/-- Base-16 encode: two symbols a byte, bits 7:4 then bits 3:0 (R39, R76). -/
def b16Encode (A input : List Byte) : List Byte :=
  input.flatMap (fun b => [symbol A (b.extractLsb' 4 4).toNat, symbol A (b.extractLsb' 0 4).toNat])

/-- The bytes of a sequence of hex digits, two a byte: `(d[2i] << 4) | d[2i+1]` (R77). -/
def joinNibbles : List Nat → List Byte
  | hi :: lo :: rest => BitVec.ofNat 8 ((hi <<< 4) ||| lo) :: joinNibbles rest
  | _ => []

/-- Base-16 decode: an odd length is reported before a bad character (R77). -/
def b16Decode (A : List Byte) (ci : Bool) (s : List Byte) : Except CmdError (List Byte) :=
  if s.length % 2 = 1 then .error .invalidLength
  else
    match lookupAll A ci s with
    | none => .error .invalidCharacter
    | some digits => .ok (joinNibbles digits)

/-- B16ENC: PAD and CI are ignored (R56, R76). -/
def execB16enc (throwing : Bool) (cfg : FormatConfig) (s : State) : Host.Outcome State Fault Refusal :=
  .next (complete throwing (executeCodec .base16 cfg s (fun A input => .ok (b16Encode A input))) s)

/-- B16DEC: PAD is ignored (R56, R77). -/
def execB16dec (throwing : Bool) (cfg : FormatConfig) (s : State) : Host.Outcome State Fault Refusal :=
  .next (complete throwing (executeCodec .base16 cfg s (fun A input => b16Decode A cfg.ci input)) s)

end Sys2Proof.Machine
end

