-- ==== Sys2Proof/Machine/Repack.lean ====
section
/-! DEFINITION. The bit repackers base-32 and base-64 share (42_base32.md R79, R81): the encoder's and the decoder's
state machine, for symbol width `W` and block length `B`. One loop of passes, over any registers that hold its four
variables: over natural numbers it is the rule's own function (R74), over the engine's working registers it is what
the engine does (10_state.md R28). -/

namespace Sys2Proof.Machine

open Sys2Proof

/-! ### The encoder -/

/-- The encoder's four variables as the natural numbers R79 computes with (R74). -/
structure EncValues where
  inputBytePosition : Nat
  inputBitOffsetWithinByte : Nat
  outputSymbolAccumulator : Nat
  outputBitCount : Nat
deriving DecidableEq, Repr

/-- The encoder's variables at the start (R79). -/
def EncValues.start : EncValues := ⟨0, 0, 0, 0⟩

/-- The numbers in the encoder's working registers (R28). -/
def EncWork.values (e : EncWork) : EncValues :=
  ⟨e.inputBytePosition.toNat, e.inputBitOffsetWithinByte.toNat, e.outputSymbolAccumulator.toNat, e.outputBitCount.toNat⟩

/-- The encoder's working registers with numbers stored in them, as many bits as each is wide (R28). -/
def EncWork.hold (v : EncValues) : EncWork :=
  ⟨BitVec.ofNat 17 v.inputBytePosition, BitVec.ofNat 3 v.inputBitOffsetWithinByte,
    BitVec.ofNat 6 v.outputSymbolAccumulator, BitVec.ofNat 3 v.outputBitCount⟩

/-- One pass of the encoder's loop: takes `min(8 - offset, W - count)` bits of the current byte, most significant
first, and emits a symbol value when the accumulator holds `W` bits (R79). -/
def encStep (W : Nat) (input : List Byte) (e : EncValues) : EncValues × Option Nat :=
  let k := min (8 - e.inputBitOffsetWithinByte) (W - e.outputBitCount)
  let byte := (input.getD e.inputBytePosition 0).toNat
  let bits := (byte >>> (8 - e.inputBitOffsetWithinByte - k)) &&& ((1 <<< k) - 1)
  let acc := (e.outputSymbolAccumulator <<< k) ||| bits
  let off := e.inputBitOffsetWithinByte + k
  let cnt := e.outputBitCount + k
  let pos := if off = 8 then e.inputBytePosition + 1 else e.inputBytePosition
  let off := if off = 8 then 0 else off
  if cnt = W then (⟨pos, off, 0, 0⟩, some acc) else (⟨pos, off, acc, cnt⟩, none)

/-- The encoder's loop: passes until every input byte is consumed (R79), on registers read by `values` and written by
`hold`. Every pass consumes at least one bit, so `fuel`, the number of input bits at the start, never runs out
first. -/
def encLoop {R : Type} (values : R → EncValues) (hold : EncValues → R) (W : Nat) (A input : List Byte) :
    Nat → R → List Byte → R × List Byte
  | 0, e, out => (e, out)
  | fuel + 1, e, out =>
    if (values e).inputBytePosition < input.length then
      match encStep W input (values e) with
      | (v, some d) => encLoop values hold W A input fuel (hold v) (out ++ [symbol A d])
      | (v, none) => encLoop values hold W A input fuel (hold v) out
    else (e, out)

/-- The last, partial symbol: the accumulator filled up with zero bits (R79). -/
def encFlush (W : Nat) (A : List Byte) (e : EncValues) (out : List Byte) : List Byte :=
  if 0 < e.outputBitCount then out ++ [symbol A (e.outputSymbolAccumulator <<< (W - e.outputBitCount))] else out

/-- Pad characters up to the next multiple of the block length (R79). -/
def padToBlock (B : Nat) (out : List Byte) : List Byte := out ++ List.replicate ((B - out.length % B) % B) padChar

/-- What follows the loop: the last symbol, then the padding (R79). -/
def encFinish (A : List Byte) (W B : Nat) (pad : Bool) (e : EncValues) (out : List Byte) : List Byte :=
  if pad then padToBlock B (encFlush W A e out) else encFlush W A e out

/-- `PackEnc(in, A, W, B, pad)` (R79), on natural numbers. -/
def packEnc (input A : List Byte) (W B : Nat) (pad : Bool) : List Byte :=
  match encLoop id id W A input (8 * input.length) EncValues.start [] with
  | (e, out) => encFinish A W B pad e out

/-- `PackEnc` as the engine runs it, in its working registers, which R79's first lines set to 0 (R28, R79). -/
def Work.packEnc (w : Work) (input A : List Byte) (W B : Nat) (pad : Bool) : Work × List Byte :=
  let w := { w with enc := EncWork.start }
  match encLoop EncWork.values EncWork.hold W A input (8 * input.length) w.enc [] with
  | (e, out) => ({ w with enc := e }, encFinish A W B pad e.values out)

/-! ### The decoder -/

/-- The decoder's four variables as the natural numbers R81 computes with (R74). -/
structure DecValues where
  symbolPosition : Nat
  symbolBitOffset : Nat
  byteAccumulator : Nat
  byteBitCount : Nat
deriving DecidableEq, Repr

/-- The decoder's variables at the start (R81). -/
def DecValues.start : DecValues := ⟨0, 0, 0, 0⟩

/-- The numbers in the decoder's working registers (R28). -/
def DecWork.values (e : DecWork) : DecValues :=
  ⟨e.symbolPosition.toNat, e.symbolBitOffset.toNat, e.byteAccumulator.toNat, e.byteBitCount.toNat⟩

/-- The decoder's working registers with numbers stored in them, as many bits as each is wide (R28). -/
def DecWork.hold (v : DecValues) : DecWork :=
  ⟨BitVec.ofNat 17 v.symbolPosition, BitVec.ofNat 3 v.symbolBitOffset, BitVec.ofNat 8 v.byteAccumulator,
    BitVec.ofNat 4 v.byteBitCount⟩

/-- One pass of the decoder's loop, the encoder's mirrored: takes `min(W - offset, 8 - count)` bits of the current
digit, most significant first, and emits a byte when the accumulator holds 8 bits (R81). -/
def decStep (W : Nat) (digits : List Nat) (e : DecValues) : DecValues × Option Nat :=
  let k := min (W - e.symbolBitOffset) (8 - e.byteBitCount)
  let digit := digits.getD e.symbolPosition 0
  let bits := (digit >>> (W - e.symbolBitOffset - k)) &&& ((1 <<< k) - 1)
  let acc := (e.byteAccumulator <<< k) ||| bits
  let off := e.symbolBitOffset + k
  let cnt := e.byteBitCount + k
  let pos := if off = W then e.symbolPosition + 1 else e.symbolPosition
  let off := if off = W then 0 else off
  if cnt = 8 then (⟨pos, off, 0, 0⟩, some acc) else (⟨pos, off, acc, cnt⟩, none)

/-- The decoder's loop: passes until every digit is consumed; a partial byte that is left is discarded unchecked
(R81). `fuel` is the number of digit bits at the start. -/
def decLoop {R : Type} (values : R → DecValues) (hold : DecValues → R) (W : Nat) (digits : List Nat) :
    Nat → R → List Byte → R × List Byte
  | 0, e, out => (e, out)
  | fuel + 1, e, out =>
    if (values e).symbolPosition < digits.length then
      match decStep W digits (values e) with
      | (v, some b) => decLoop values hold W digits fuel (hold v) (out ++ [BitVec.ofNat 8 b])
      | (v, none) => decLoop values hold W digits fuel (hold v) out
    else (e, out)

/-- The bytes of a sequence of `W`-bit digits (R81), on natural numbers. -/
def unpackDigits (W : Nat) (digits : List Nat) : List Byte :=
  (decLoop id id W digits (W * digits.length) DecValues.start []).2

/-- The same as the engine runs it, in its working registers, which R81's first lines set to 0 (R28, R81). -/
def Work.unpackDigits (w : Work) (W : Nat) (digits : List Nat) : Work × List Byte :=
  let w := { w with dec := DecWork.start }
  match decLoop DecWork.values DecWork.hold W digits (W * digits.length) w.dec [] with
  | (e, out) => ({ w with dec := e }, out)

/-- A text without its trailing run of pad characters (R81, R83). -/
def stripPad (s : List Byte) : List Byte := (s.reverse.dropWhile (fun c => c == padChar)).reverse

/-- The digits of a text before any byte is made of them: the length is checked, the pads are stripped, then every
character is looked up (R81). -/
def textDigits (s A : List Byte) (B : Nat) (pad ci : Bool) : Except CmdError (List Nat) :=
  if pad ∧ s.length % B ≠ 0 then .error .invalidLength
  else
    match lookupAll A ci (if pad then stripPad s else s) with
    | none => .error .invalidCharacter
    | some digits => .ok digits

/-- The last check: a text that is not empty makes at least one byte (R81). -/
def someBytes (s out : List Byte) : Except CmdError (List Byte) :=
  if 0 < s.length ∧ out.length = 0 then .error .invalidLength else .ok out

/-- `PackDec(s, A, W, B, pad, ci)`, its checks in the order given (R81), on natural numbers. -/
def packDec (s A : List Byte) (W B : Nat) (pad ci : Bool) : Except CmdError (List Byte) :=
  match textDigits s A B pad ci with
  | .error e => .error e
  | .ok digits => someBytes s (unpackDigits W digits)

/-- `PackDec` as the engine runs it (R28, R81). -/
def Work.packDec (w : Work) (s A : List Byte) (W B : Nat) (pad ci : Bool) : Work × Except CmdError (List Byte) :=
  match textDigits s A B pad ci with
  | .error e => (w, .error e)
  | .ok digits =>
    match w.unpackDigits W digits with
    | (w, out) => (w, someBytes s out)

end Sys2Proof.Machine
end

