-- ==== Sys2Proof/Machine/Base32.lean ====
section
/-! DEFINITION. The base-32 commands (42_base32.md): 5-bit symbols, blocks of 8 characters. -/

namespace Sys2Proof.Machine

open Sys2Proof

/-- B32ENC: CI is ignored (R56, R84). -/
def execB32enc (throwing : Bool) (cfg : FormatConfig) (s : State) : Host.Outcome State Fault Refusal :=
  .next (complete throwing (executeCodec .base32 cfg s (fun A input =>
    onWork s (fun w => produces (w.packEnc input A 5 8 cfg.pad)))) s)

/-- B32DEC (R85). -/
def execB32dec (throwing : Bool) (cfg : FormatConfig) (s : State) : Host.Outcome State Fault Refusal :=
  .next (complete throwing (executeCodec .base32 cfg s (fun A input =>
    onWork s (fun w => w.packDec input A 5 8 cfg.pad cfg.ci))) s)

end Sys2Proof.Machine
end

