-- ==== Sys2Proof/Machine/Base58.lean ====
section
/-! DEFINITION. The base-58 commands (43_base58.md): exact radix conversion of one natural number (R74). The rules' own
functions are on natural numbers; the engine's work on the big-integer work buffer, byte by byte (10_state.md R28,
R75). -/

namespace Sys2Proof.Machine

open Sys2Proof

/-- The number a digit sequence stands for in a base, most significant digit first (R87, R88). -/
def ofDigits (base : Nat) (digits : List Nat) : Nat := digits.foldl (fun v d => v * base + d) 0

/-- Prepends the digits of `v` to `acc`: each remainder in turn, until the number is 0 (R87). `fuel` bounds the
number of divisions. -/
def digitsLoop (base : Nat) : Nat → Nat → List Nat → List Nat
  | 0, _, acc => acc
  | fuel + 1, v, acc => if v = 0 then acc else digitsLoop base fuel (v / base) (v % base :: acc)

/-- The digits of a number in a base of at least 2, most significant first, without leading zeros: none for 0 (R87,
R88). The number of binary digits of `v` bounds the number of divisions. -/
def toDigits (base v : Nat) : List Nat := digitsLoop base (v.log2 + 1) v []

/-- How many elements at the front of a sequence equal `c`. -/
def leadingCount (c : Byte) (s : List Byte) : Nat := (s.takeWhile (fun x => x == c)).length

/-- `B58Enc(in, A)`: one zero-symbol a leading zero byte, then the base-58 digits of the big-endian value (R62,
R87), on natural numbers. -/
def b58Encode (A input : List Byte) : List Byte :=
  List.replicate (leadingCount 0 input) (symbol A 0)
    ++ (toDigits 58 (ofDigits 256 (input.map BitVec.toNat))).map (symbol A)

/-- `B58Dec(s, A)`: one zero byte a leading zero-symbol, then the minimal big-endian bytes of the value; the lookup is
case-strict (R88); on natural numbers. -/
def b58Decode (A s : List Byte) : Except CmdError (List Byte) :=
  let z := leadingCount (symbol A 0) s
  match lookupAll A false (s.drop z) with
  | none => .error .invalidCharacter
  | some digits => .ok (List.replicate z 0 ++ (toDigits 256 (ofDigits 58 digits)).map (BitVec.ofNat 8))

/-! ### The big-integer work buffer (R28, R75) -/

/-- A buffer without the zero bytes at its front. -/
def trimZeros (buf : List Byte) : List Byte := buf.dropWhile (fun x => x == 0)

/-- Divides a buffer by `m`, most significant byte first; `r` is the remainder so far. Gives the quotient's bytes, as
many as the buffer's, and the remainder. -/
def divBytes (m : Nat) : Nat → List Byte → List Byte × Nat
  | r, [] => ([], r)
  | r, b :: rest =>
    let v := r * 256 + b.toNat
    match divBytes m (v % m) rest with
    | (q, r') => (BitVec.ofNat 8 (v / m) :: q, r')

/-- The digits of the buffer in base `m`, prepended to `acc`: divides until the buffer is empty (R87). Gives the buffer it
leaves, too. `fuel` bounds the number of divisions. -/
def divLoop (m : Nat) : Nat → List Byte → List Nat → List Byte × List Nat
  | 0, buf, acc => (buf, acc)
  | fuel + 1, buf, acc =>
    if buf.isEmpty then (buf, acc)
    else
      match divBytes m 0 buf with
      | (q, r) => divLoop m fuel (trimZeros q) (r :: acc)

/-- Multiplies a buffer by `m` and adds `d`, least significant byte first. Gives the bytes, as many as the buffer's, and
the carry out of the most significant one. -/
def mulAddBytes (m d : Nat) : List Byte → List Byte × Nat
  | [] => ([], d)
  | b :: rest =>
    match mulAddBytes m d rest with
    | (q, c) => (BitVec.ofNat 8 (b.toNat * m + c) :: q, (b.toNat * m + c) / 256)

/-- The same on a buffer that grows by a byte when a carry is left (R88). -/
def mulAdd (m : Nat) (buf : List Byte) (d : Nat) : List Byte :=
  match mulAddBytes m d buf with
  | (q, c) => if c = 0 then q else BitVec.ofNat 8 c :: q

/-- `B58Enc` as the engine runs it: the input stands in the work buffer and is divided by 58 there. A byte has fewer
than two base-58 digits, so the divisions are at most twice its bytes (R28, R87). -/
def Work.b58Encode (w : Work) (A input : List Byte) : Work × List Byte :=
  let w := { w with bigInteger := trimZeros input }
  match divLoop 58 (2 * w.bigInteger.length) w.bigInteger [] with
  | (buf, digits) =>
    ({ w with bigInteger := buf }, List.replicate (leadingCount 0 input) (symbol A 0) ++ digits.map (symbol A))

/-- `B58Dec` as the engine runs it: the work buffer starts at 0 and is multiplied by 58 and added to, a digit at a time;
what it then holds is the minimal big-endian representation (R28, R88). -/
def Work.b58Decode (w : Work) (A s : List Byte) : Work × Except CmdError (List Byte) :=
  let z := leadingCount (symbol A 0) s
  match lookupAll A false (s.drop z) with
  | none => (w, .error .invalidCharacter)
  | some digits =>
    let w := { w with bigInteger := digits.foldl (mulAdd 58) [] }
    (w, .ok (List.replicate z 0 ++ w.bigInteger))

/-! ### The commands -/

/-- B58ENC: PAD and CI are ignored (R56, R90). -/
def execB58enc (throwing : Bool) (cfg : FormatConfig) (s : State) : Host.Outcome State Fault Refusal :=
  .next (complete throwing (executeCodec .base58 cfg s (fun A input => onWork s (fun w => produces (w.b58Encode A input)))) s)

/-- B58DEC: PAD and CI are ignored (R56, R91). -/
def execB58dec (throwing : Bool) (cfg : FormatConfig) (s : State) : Host.Outcome State Fault Refusal :=
  .next (complete throwing (executeCodec .base58 cfg s (fun A input => onWork s (fun w => w.b58Decode A input))) s)

end Sys2Proof.Machine
end

