-- ==== Sys2Proof/Machine/Base64.lean ====
section
/-! DEFINITION. The base-64 commands (45_base64.md): the base-32 state machine with 6-bit symbols and blocks of 4
characters. -/

namespace Sys2Proof.Machine

open Sys2Proof

/-- B64ENC: CI is ignored (R56, R100). -/
def execB64enc (throwing : Bool) (cfg : FormatConfig) (s : State) : Host.Outcome State Fault Refusal :=
  .next (complete throwing (executeCodec .base64 cfg s (fun A input =>
    onWork s (fun w => produces (w.packEnc input A 6 4 cfg.pad)))) s)

/-- B64DEC: CI is ignored; the lookup is always case-strict (R56, R101). -/
def execB64dec (throwing : Bool) (cfg : FormatConfig) (s : State) : Host.Outcome State Fault Refusal :=
  .next (complete throwing (executeCodec .base64 cfg s (fun A input =>
    onWork s (fun w => w.packDec input A 6 4 cfg.pad false))) s)

end Sys2Proof.Machine
end

