-- ==== Sys2Proof/Machine/Checksum.lean ====
section
/-! DEFINITION. The checksum commands (44_checksum.md). The operations take the hash as an argument, as the spec
states its rules for an arbitrary HASH (R92); the commands use the block's, `Config.hash`. The rules' own functions
come first; the engine's, in its working state (10_state.md R28), after them. -/

namespace Sys2Proof.Machine

open Sys2Proof

/-- `Chk(p)`: the first 4 bytes of the hash of the hash (R92). -/
def checksum (hash : List Byte → Config.Digest) (p : List Byte) : List Byte := (hash (hash p).bytes).bytes.take 4

/-- A sequence without its last four elements: the payload (R93). -/
def payload (b : List Byte) : List Byte := b.take (b.length - 4)

/-- The last four elements of a sequence: the checksum it carries (R93). -/
def trailer (b : List Byte) : List Byte := b.drop (b.length - 4)

/-- `addChecksum` (R94). -/
def addChecksum (hash : List Byte → Config.Digest) (p : List Byte) : List Byte := p ++ checksum hash p

/-- `verifyChecksum`: no output; the length is checked first (R95). -/
def verifyChecksum (hash : List Byte → Config.Digest) (b : List Byte) : Except CmdError (List Byte) :=
  if b.length < 4 then .error .invalidLength
  else if trailer b ≠ checksum hash (payload b) then .error .checksumMismatch
  else .ok []

/-- `removeChecksum`: the trailer is not verified (R96). -/
def removeChecksum (b : List Byte) : Except CmdError (List Byte) :=
  if b.length < 4 then .error .invalidLength else .ok (payload b)

/-- `encodeWithChecksum` (R97). -/
def b58EncodeChecked (hash : List Byte → Config.Digest) (A p : List Byte) : List Byte :=
  b58Encode A (addChecksum hash p)

/-- `decodeWithChecksum`: decode, verify, remove, stopping at the first failing stage (R98). -/
def b58DecodeChecked (hash : List Byte → Config.Digest) (A s : List Byte) : Except CmdError (List Byte) :=
  match b58Decode A s with
  | .error e => .error e
  | .ok b =>
    match verifyChecksum hash b with
    | .error e => .error e
    | .ok _ => removeChecksum b

/-! ### The hash unit (R28) -/

/-- One application of the hash to what the hash unit holds (R28, R92). -/
def Work.applyHash (w : Work) (hash : List Byte → Config.Digest) : Work :=
  { w with hashState := (hash w.hashState).bytes }

/-- `Chk(p)` as the engine runs it: the hash unit takes the payload, the hash is applied twice, and the first 4 bytes it
then holds are the checksum (R28, R92). -/
def Work.checksum (w : Work) (hash : List Byte → Config.Digest) (p : List Byte) : Work × List Byte :=
  let w := ({ w with hashState := p } : Work).applyHash hash |>.applyHash hash
  (w, w.hashState.take 4)

/-- `addChecksum` as the engine runs it (R94). -/
def Work.addChecksum (w : Work) (hash : List Byte → Config.Digest) (p : List Byte) : Work × List Byte :=
  match w.checksum hash p with
  | (w, c) => (w, p ++ c)

/-- `verifyChecksum` as the engine runs it (R95). -/
def Work.verifyChecksum (w : Work) (hash : List Byte → Config.Digest) (b : List Byte) :
    Work × Except CmdError (List Byte) :=
  if b.length < 4 then (w, .error .invalidLength)
  else
    match w.checksum hash (payload b) with
    | (w, c) => (w, if trailer b ≠ c then .error .checksumMismatch else .ok [])

/-- `encodeWithChecksum` as the engine runs it: the input and its checksum stand in the work buffer (R29, R97). -/
def Work.b58EncodeChecked (w : Work) (hash : List Byte → Config.Digest) (A p : List Byte) : Work × List Byte :=
  match w.addChecksum hash p with
  | (w, b) => w.b58Encode A b

/-- `decodeWithChecksum` as the engine runs it (R98). -/
def Work.b58DecodeChecked (w : Work) (hash : List Byte → Config.Digest) (A s : List Byte) :
    Work × Except CmdError (List Byte) :=
  match w.b58Decode A s with
  | (w, .error e) => (w, .error e)
  | (w, .ok b) =>
    match w.verifyChecksum hash b with
    | (w, .error e) => (w, .error e)
    | (w, .ok _) => (w, removeChecksum b)

/-! ### The commands -/

/-- CHKADD: ALPHA, PAD and CI are ignored (R56, R94). -/
def execChkadd (throwing : Bool) (_cfg : FormatConfig) (s : State) : Host.Outcome State Fault Refusal :=
  .next (complete throwing (executeOver s (fun input => onWork s (fun w => produces (w.addChecksum Config.hash input)))) s)

/-- CHKVER: ALPHA, PAD and CI are ignored (R56, R95). -/
def execChkver (throwing : Bool) (_cfg : FormatConfig) (s : State) : Host.Outcome State Fault Refusal :=
  .next (complete throwing (executeOver s (fun input => onWork s (fun w => w.verifyChecksum Config.hash input))) s)

/-- CHKREM: ALPHA, PAD and CI are ignored (R56, R96). -/
def execChkrem (throwing : Bool) (_cfg : FormatConfig) (s : State) : Host.Outcome State Fault Refusal :=
  .next (complete throwing (executeOver s (fun input => removeChecksum input)) s)

/-- B58ENCC: PAD and CI are ignored (R56, R97). -/
def execB58encc (throwing : Bool) (cfg : FormatConfig) (s : State) : Host.Outcome State Fault Refusal :=
  .next (complete throwing (executeCodec .base58 cfg s (fun A input =>
    onWork s (fun w => produces (w.b58EncodeChecked Config.hash A input)))) s)

/-- B58DECC: PAD and CI are ignored (R56, R98). -/
def execB58decc (throwing : Bool) (cfg : FormatConfig) (s : State) : Host.Outcome State Fault Refusal :=
  .next (complete throwing (executeCodec .base58 cfg s (fun A input =>
    onWork s (fun w => w.b58DecodeChecked Config.hash A input))) s)

end Sys2Proof.Machine
end

