-- ==== Sys2Proof/Machine/Dispatch.lean ====
section
/-! DEFINITION. One arm per command (30_encoding.md R54): the engine's complete step for it (40_common.md R68). -/

namespace Sys2Proof.Machine

open Sys2Proof

def exec (i : Instr) (s : State) : Host.Outcome State Fault Refusal :=
  match i with
  | .b16enc t c => Sys2Proof.Machine.execB16enc t c s
  | .b16dec t c => Sys2Proof.Machine.execB16dec t c s
  | .b32enc t c => Sys2Proof.Machine.execB32enc t c s
  | .b32dec t c => Sys2Proof.Machine.execB32dec t c s
  | .b58enc t c => Sys2Proof.Machine.execB58enc t c s
  | .b58dec t c => Sys2Proof.Machine.execB58dec t c s
  | .b64enc t c => Sys2Proof.Machine.execB64enc t c s
  | .b64dec t c => Sys2Proof.Machine.execB64dec t c s
  | .chkadd t c => Sys2Proof.Machine.execChkadd t c s
  | .chkver t c => Sys2Proof.Machine.execChkver t c s
  | .chkrem t c => Sys2Proof.Machine.execChkrem t c s
  | .b58encc t c => Sys2Proof.Machine.execB58encc t c s
  | .b58decc t c => Sys2Proof.Machine.execB58decc t c s

end Sys2Proof.Machine
end

