-- ==== Sys2Proof/Machine/Step.lean ====
section
/-! DEFINITION. One step: the move of whoever's turn it is (10_state.md R13; 20_memory.md R42). -/

namespace Sys2Proof.Machine

open Sys2Proof

/-- The engine's turn: its complete step while BUSY = 1, on the word in CMD; the engine has no other step (R13, R68).
A word the decoder refuses is an illegal command, which completes unsuccessfully (R55). -/
def engineTurn (s : State) : Host.Outcome State Fault Refusal :=
  if s.status.busy then
    match decode s.cmd with
    | .ok i => exec i s
    | .error _ => .next (completeIllegal s)
  else .next s

/-- One step. `turns` says who moves next; when it names no one, the engine moves while BUSY, which is the fairness of
R124, and the host otherwise. Log entries 3 and 17. -/
def step (s : State) : Host.Outcome State Fault Refusal :=
  match s.turns with
  | [] => if s.status.busy then engineTurn s else .next (hostTurn s)
  | .engine :: rest => engineTurn { s with turns := rest }
  | .host :: rest => .next (hostTurn { s with turns := rest })
  | .reset :: rest => .next (resetBlock { s with turns := rest })

/-- `s` with a command word accepted and the engine to move next, so that the next step decodes and runs exactly that
word: the state in which accept leaves the block (R66), no turn chosen before the engine's. Log entry 14. -/
def State.withFetchWord (s : State) (nbits w : Nat) : State := { accept (tableWord nbits w) s with turns := [] }

end Sys2Proof.Machine
end

