-- ==== Sys2Proof/Machine/HostProgram.lean ====
section
/-! DEFINITION. What the spec writes host programs with (30_encoding.md R57 to R59) and the order of a command's bus
operations (70_reset_and_hazards.md R122): notation for the host, nothing the block does. -/

namespace Sys2Proof.Machine

open Sys2Proof

/-! ### Bus operations (R58) -/

/-- `wr32 off, v` -/
def wr32 (off : Offset) (v : Word) : HostOp := .txn (.write off .b4 v)

/-- `wr16 off, v` -/
def wr16 (off : Offset) (v : Word) : HostOp := .txn (.write off .b2 v)

/-- `wr8 off, v` -/
def wr8 (off : Offset) (v : Word) : HostOp := .txn (.write off .b1 v)

/-- `rd32 off` -/
def rd32 (off : Offset) : HostOp := .txn (.read off .b4)

/-- `rd16 off` -/
def rd16 (off : Offset) : HostOp := .txn (.read off .b2)

/-- `rd8 off` -/
def rd8 (off : Offset) : HostOp := .txn (.read off .b1)

/-! ### Assembler syntax (R57) -/

/-- The assembled word: `OP | T<<7 | ALPHA<<8 | PAD<<12 | CI<<13` (R57). -/
def assembledWord (i : Instr) : Word :=
  i.opcode.setWidth 32 ||| ((BitVec.ofBool i.throwing).setWidth 32 <<< 7) ||| (BitVec.ofNat 32 i.format.alpha <<< 8)
    ||| ((BitVec.ofBool i.format.pad).setWidth 32 <<< 12) ||| ((BitVec.ofBool i.format.ci).setWidth 32 <<< 13)

/-- The names of the alphabet variants, in ALPHA order (R50). -/
def alphaNames : Family → List String
  | .base16 => ["upper", "lower"]
  | .base32 => ["rfc4648", "zbase32", "geohash", "crockford", "base32hex"]
  | .base58 => ["bitcoin", "ripple", "flickr"]
  | .base64 => ["rfc4648"]

/-- The family whose alphabet names a command's operands may use; none for the checksum commands (R50). -/
def commandFamily : Instr → Option Family
  | .b16enc _ _ | .b16dec _ _ => some .base16
  | .b32enc _ _ | .b32dec _ _ => some .base32
  | .b58enc _ _ | .b58dec _ _ | .b58encc _ _ | .b58decc _ _ => some .base58
  | .b64enc _ _ | .b64dec _ _ => some .base64
  | .chkadd _ _ | .chkver _ _ | .chkrem _ _ => none

/-- The mnemonics: the lower-case opcode names (R54, R57). -/
def mnemonics : List (String × Nat) :=
  [("b16enc", 0x01), ("b16dec", 0x02), ("b32enc", 0x03), ("b32dec", 0x04), ("b58enc", 0x05), ("b58dec", 0x06),
   ("b64enc", 0x07), ("b64dec", 0x08), ("chkadd", 0x09), ("chkver", 0x0A), ("chkrem", 0x0B), ("b58encc", 0x0C),
   ("b58decc", 0x0D)]

/-- The `.std` pseudo-instructions: a host driver's default configurations (R59). -/
def standardForms : List (String × Instr) :=
  [("b32enc.std", .b32enc false ⟨0, true, false⟩), ("b32dec.std", .b32dec false ⟨0, true, false⟩),
   ("b64enc.std", .b64enc false ⟨0, true, false⟩), ("b64dec.std", .b64dec false ⟨0, true, false⟩),
   ("b58enc.std", .b58enc false ⟨0, false, false⟩), ("b58dec.std", .b58dec false ⟨0, false, false⟩)]

/-- The operands read so far. -/
structure AsmOperands where
  alpha : Option Nat
  pad : Bool
  ci : Bool
deriving DecidableEq, Repr

/-- One more operand; each may stand at most once. Log entry 18. -/
def addOperand (names : List String) (word : List Char) (o : AsmOperands) : Option AsmOperands :=
  if word = "pad".toList then (if o.pad then none else some { o with pad := true })
  else if word = "ci".toList then (if o.ci then none else some { o with ci := true })
  else
    match o.alpha, names.findIdx? (fun n => n.toList == word) with
    | none, some k => some { o with alpha := some k }
    | _, _ => none

/-- Reads the operands, in any order (R57). -/
def readOperands (names : List String) : List (List Char) → AsmOperands → Option AsmOperands
  | [], o => some o
  | word :: rest, o =>
    match addOperand names word o with
    | some o' => readOperands names rest o'
    | none => none

/-- The words of a line: separated by spaces or commas (R57). -/
def lineWords (line : String) : List (List Char) :=
  (line.toList.splitOnP (fun c => c == ' ' || c == ',')).filter (fun w => !w.isEmpty)

/-- The opcode and the T bit of `<mnemonic>[.t]` (R57). -/
def readMnemonic (word : List Char) : Option (Nat × Bool) :=
  match mnemonics.find? (fun m => m.1.toList == word), mnemonics.find? (fun m => (m.1 ++ ".t").toList == word) with
  | some m, _ => some (m.2, false)
  | none, some m => some (m.2, true)
  | none, none => none

/-- The command that a textual form stands for (R57, R59). -/
def readCommand (line : String) : Option Instr :=
  match lineWords line with
  | [] => none
  | word :: rest =>
    match standardForms.find? (fun f => f.1.toList == word) with
    | some f => if rest.isEmpty then some f.2 else none
    | none =>
      match readMnemonic word with
      | none => none
      | some (op, t) =>
        match decodeOp op t ⟨0, false, false⟩ with
        | none => none
        | some i =>
          let names := match commandFamily i with
            | some f => alphaNames f
            | none => []
          match readOperands names rest ⟨none, false, false⟩ with
          | none => none
          | some o => decodeOp op t ⟨o.alpha.getD 0, o.pad, o.ci⟩

/-- The command word that a textual form assembles to (R57). -/
def assemble (line : String) : Option Word := (readCommand line).map assembledWord

/-! ### Pseudo-instructions (R59) -/

/-- `setlen n` -/
def setlen (n : Word) : List HostOp := [wr32 0x008 n]

/-- `put i, b` -/
def put (i : Nat) (b : Byte) : List HostOp := [wr8 (BitVec.ofNat 18 (inBase + i)) (b.setWidth 32)]

/-- `run <command>`: issue a command word and wait until BUSY = 0 -/
def runCommand (w : Word) : List HostOp := [wr32 0x000 w, .poll 0x004 0x1 0x0]

/-- `ack`: clear DONE, FERR and OVR -/
def ack : List HostOp := [wr32 0x004 0x00000302]

/-- `srst`: soft reset -/
def srst : List HostOp := [wr32 0x014 0x00000001]

/-- Stores of an input byte by byte, its first byte at index `i`. -/
def putAll (i : Nat) : List Byte → List HostOp
  | [] => []
  | b :: rest => put i b ++ putAll (i + 1) rest

/-- The bus operations of one command, in the order of R122: the input bytes, its length, the command word, the
wait, then STATUS and OUT_LEN. -/
def commandProtocol (input : List Byte) (w : Word) : List HostOp :=
  putAll 0 input ++ setlen (BitVec.ofNat 32 input.length) ++ runCommand w ++ [rd32 0x004, rd32 0x00C]

end Sys2Proof.Machine
end

