-- ==== Sys2Proof/Machine/Platform.lean ====
section
/-! DEFINITION. A platform of `N_INST` independent blocks, each with its window at its own `BASE` (00_scope.md R6;
20_memory.md R31; 60_exceptions.md R115, R116). The machine of Core.lean is one block; this is what stands around
it. Log entry 13. -/

namespace Sys2Proof.Machine

open Sys2Proof

/-- One block and the platform address of its window, `BASE` (R6, R31). -/
structure Site where
  base : Nat
  block : State
deriving DecidableEq, Repr

/-- The blocks of a platform; their number is `N_INST` (R6, R116). -/
abbrev Platform := List Site

/-- The size of a block's window: 2^18 addresses (R31). -/
def windowSize : Nat := 2 ^ 18

/-- At least one block, each `BASE` aligned to 2^18, no two alike, and no two blocks the same copy, so that no two have
their unspecified contents in common (R6, R116). -/
abbrev Platform.wf (p : Platform) : Prop :=
  p ≠ [] ∧ (∀ x ∈ p, x.base % windowSize = 0)
    ∧ p.Pairwise (fun x y => x.base ≠ y.base ∧ x.block.copy ≠ y.block.copy)

/-- The block whose window holds a platform address, and the offset in it; none where no block's window is (R115). -/
def route : Platform → Nat → Option (Nat × Offset)
  | [], _ => none
  | x :: rest, a =>
    if x.base ≤ a ∧ a < x.base + windowSize then some (0, BitVec.ofNat 18 (a - x.base))
    else (route rest a).map (fun r => (r.1 + 1, r.2))

/-- The platform with the block at index `k` replaced. -/
def setBlock (p : Platform) (k : Nat) (b : State) : Platform :=
  match p[k]? with
  | some x => p.set k { x with block := b }
  | none => p

/-- One step of the block at index `k` (R116). -/
def platformStep (k : Nat) (p : Platform) : Platform :=
  match p[k]? with
  | none => p
  | some x =>
    match step x.block with
    | .next b => setBlock p k b
    | .fault _ => p
    | .refused _ => p

/-- A bus transaction at a platform address, performed by the block whose window holds it; none where no window
does (R31, R115). -/
def platformAccess (a : Nat) (access : Offset → Txn) (p : Platform) : Option Platform :=
  match route p a with
  | none => none
  | some (k, off) =>
    match p[k]? with
    | none => none
    | some x => some (setBlock p k (transact (access off) x.block))

/-- The `irq` outputs of the blocks (R110, R116). -/
def irqLines (p : Platform) : List Bool := p.map (fun x => irq x.block)

end Sys2Proof.Machine
end

