-- ==== Sys2Proof/Safety.lean ====
section
/-! DEFINITION. The terms claims use: what a safe step is, the block's invariant, the two ways a command can complete,
and the closed forms of the codecs (42_base32.md R80, R82; 43_base58.md R87) that the state machines are held
against. -/

namespace Sys2Proof.Safety

open Sys2Proof Machine

/-- A step that stops with neither a fault nor a refusal. -/
def StepRuns (s : State) : Prop := ∃ t, step s = .next t

/-- What holds of the block between any two transitions. -/
structure Inv (s : State) : Prop where
  /-- storage keeps its canonical form -/
  memWf : s.mem.wf
  /-- only bytes of the two buffers are stored (R26, R32) -/
  memInBuffers : ∀ c ∈ s.mem, (inBase ≤ c.1 ∧ c.1 < inBase + s.inCap.bytes)
    ∨ (outBase ≤ c.1 ∧ c.1 < outBase + s.outCap.bytes)
  /-- BUSY implies DONE = 0, OK = 0 and ERR = 0 (R19), and OUT_LEN = 0 (R21) -/
  busyClear : s.status.busy = true →
    s.status.done = false ∧ s.status.ok = false ∧ s.status.err = 0 ∧ s.outLen = 0
  /-- OK implies ERR = 0 (R19) -/
  okNoErr : s.status.ok = true → s.status.err = 0
  /-- error codes 7 to 15 are never produced (R103) -/
  errCode : s.status.err.toNat ≤ 6
  /-- OUT_LEN is 0 unless the last command completed successfully (R21) -/
  outLenOk : s.status.ok = false → s.outLen = 0
  /-- the output fits OUT_BUF (R69) -/
  outLenFits : s.outLen.toNat ≤ s.outCap.bytes
  /-- every output byte below OUT_LEN is stored (R41) -/
  outStored : ∀ j, j < s.outLen.toNat → (s.mem.get? (outBase + j)).isSome = true
  /-- the engine's working state exists exactly between accept and complete (R28) -/
  workBusy : s.work = if s.status.busy then some Work.start else none
  /-- the last reset's draw is not a later one (the model's own fields) -/
  epochDrawn : s.epoch ≤ s.draws

/-- `t` is `s` after a command completed successfully with output `out`, which fits (R41, R68): the output in OUT_BUF from index
0, its length in OUT_LEN, the flags, and nothing else changed, in storage or outside it. -/
structure CompletesOk (s t : State) (out : List Byte) : Prop where
  fits : out.length ≤ s.outCap.bytes
  registers : t = { s with
    mem := t.mem
    outLen := BitVec.ofNat 32 out.length
    status := { s.status with busy := false, done := true, ok := true, err := 0 }
    work := none }
  stored : ∀ j, j < out.length → t.mem.get? (outBase + j) = out[j]?
  otherBytes : ∀ a, (a < outBase ∨ outBase + out.length ≤ a) → t.mem.get? a = s.mem.get? a

/-- `t` is `s` after a command failed with cause `e` (R68, R107, R108): the code in ERR, OUT_LEN 0, FERR set for the
throwing form, OUT_BUF unspecified, and nothing else changed. -/
structure CompletesErr (s t : State) (throwing : Bool) (e : CmdError) : Prop where
  registers : t = { s with
    mem := t.mem
    outLen := 0
    status := { s.status with
      busy := false, done := true, ok := false, err := e.code, ferr := s.status.ferr || throwing }
    work := none }
  unspecified : ∀ j, j < s.outCap.bytes → t.mem.get? (outBase + j) = none
  otherBytes : ∀ a, (a < outBase ∨ outBase + s.outCap.bytes ≤ a) → t.mem.get? a = s.mem.get? a

/-- The command runs to a next state in which it completed successfully with output `out`. -/
def Succeeds (i : Instr) (s : State) (out : List Byte) : Prop := ∃ t, exec i s = .next t ∧ CompletesOk s t out

/-- The command runs to a next state in which it failed with cause `e`. -/
def Fails (i : Instr) (s : State) (e : CmdError) : Prop := ∃ t, exec i s = .next t ∧ CompletesErr s t i.throwing e

/-- The input fits IN_BUF (R69). -/
def InputFits (s : State) : Prop := s.inLen.toNat ≤ s.inCap.bytes

/-- An output fits OUT_BUF (R69). -/
def OutputFits (s : State) (out : List Byte) : Prop := out.length ≤ s.outCap.bytes

/-- `OPFN[op](in, alpha, pad, ci)`: the operation of a command, on alphabet `A` (R54, R69). -/
def operation (i : Instr) (A input : List Byte) : Except CmdError (List Byte) :=
  match i with
  | .b16enc _ _ => .ok (b16Encode A input)
  | .b16dec _ c => b16Decode A c.ci input
  | .b32enc _ c => .ok (packEnc input A 5 8 c.pad)
  | .b32dec _ c => packDec input A 5 8 c.pad c.ci
  | .b58enc _ _ => .ok (b58Encode A input)
  | .b58dec _ _ => b58Decode A input
  | .b64enc _ c => .ok (packEnc input A 6 4 c.pad)
  | .b64dec _ c => packDec input A 6 4 c.pad false
  | .chkadd _ _ => .ok (addChecksum Config.hash input)
  | .chkver _ _ => verifyChecksum Config.hash input
  | .chkrem _ _ => removeChecksum input
  | .b58encc _ _ => .ok (b58EncodeChecked Config.hash A input)
  | .b58decc _ _ => b58DecodeChecked Config.hash A input

/-! ### Closed forms -/

/-- The number a bit string stands for, most significant bit first. -/
def bitsValue (bits : List Bool) : Nat := bits.foldl (fun v b => 2 * v + b.toNat) 0

/-- The bits of a `w`-bit value, most significant first. -/
def valueBits (w v : Nat) : List Bool := (List.range w).map (fun k => v.testBit (w - 1 - k))

/-- The bit string of a byte sequence: bit 7 of the first byte first (R80). -/
def bitString (input : List Byte) : List Bool := input.flatMap (fun b => valueBits 8 b.toNat)

/-- A bit string followed by zero bits up to the next multiple of `w` (R80). -/
def zeroFill (w : Nat) (bits : List Bool) : List Bool := bits ++ List.replicate ((w - bits.length % w) % w) false

/-- The closed form of the encoder without padding (R80): symbol `j` has the value of bits `jW` to `jW+W-1`. -/
def groupSymbols (W : Nat) (A input : List Byte) : List Byte :=
  (List.range ((8 * input.length + W - 1) / W)).map
    (fun j => symbol A (bitsValue (((zeroFill W (bitString input)).drop (j * W)).take W)))

/-- The closed form of the encoder (R80): with padding the length is `B` times the number of blocks, rounded up. -/
def groupEncode (W B : Nat) (A input : List Byte) (pad : Bool) : List Byte :=
  let symbols := groupSymbols W A input
  if pad then symbols ++ List.replicate (B * ((symbols.length + B - 1) / B) - symbols.length) padChar else symbols

/-- The closed form of the decoder on digits (R82): byte `i` is bits `8i` to `8i+7` of the concatenated digits. -/
def groupDecode (W : Nat) (digits : List Nat) : List Byte :=
  (List.range (W * digits.length / 8)).map
    (fun i => BitVec.ofNat 8 (bitsValue (((digits.flatMap (valueBits W)).drop (8 * i)).take 8)))

/-- The sum of `digits[i] * base^(n-1-i)` (R87). -/
def weightedSum (base : Nat) (digits : List Nat) : Nat :=
  ((List.range digits.length).map (fun i => digits.getD i 0 * base ^ (digits.length - 1 - i))).sum

/-- `digits` are the digits of `v` in a base without a leading zero digit (R87, R88). -/
structure IsNumeral (base v : Nat) (digits : List Nat) : Prop where
  small : ∀ d ∈ digits, d < base
  noLeadingZero : digits.head? ≠ some 0
  value : weightedSum base digits = v

/-- `z` is the number of leading elements of `s` that equal `c` (R87, R88). -/
structure IsLeadingRun (c : Byte) (s : List Byte) (z : Nat) : Prop where
  bound : z ≤ s.length
  run : ∀ i, i < z → s[i]? = some c
  stop : s[z]? ≠ some c

/-- The spec's legal ALPHA values of a command's family, as a count from 0 (R50). -/
def legalAlphas : Instr → Nat
  | .b16enc _ _ | .b16dec _ _ => 2
  | .b32enc _ _ | .b32dec _ _ => 5
  | .b58enc _ _ | .b58dec _ _ | .b58encc _ _ | .b58decc _ _ => 3
  | .b64enc _ _ | .b64dec _ _ => 1
  | .chkadd _ _ | .chkver _ _ | .chkrem _ _ => 16

end Sys2Proof.Safety
end

