-- ==== Sys2Proof/Certificates/Slice0/Obligations.lean ====
section
/-! DEFINITION. The statements about the block, for the provers. Each docstring names the rules of spec/ it formalises;
notes/assumptions holds what is the model's own choice. -/

open Sys2Proof Sys2Proof.Machine Sys2Proof.Safety

/-! ### Command words -/

/-- Every command with a command word is read back from it, with T, ALPHA, PAD and CI at every value (30_encoding.md
sections 1 to 3). -/
def Obligations.DecodeEncodeRoundTrip : Prop := ∀ i : Instr, i.wf = true → decode (encode i) = .ok i

/-- A word is a command exactly when masking it with 0xFFFFC07F leaves the opcode; its operands are then T in bit 7,
ALPHA in bits 11:8, PAD in bit 12 and CI in bit 13 (R54, with the fields of R47). -/
def Obligations.DecodeSelectsByMaskAndMatch : Prop :=
  ∀ (w : Word) (i : Instr), decode w = .ok i ↔
    (w &&& 0xFFFFC07F = i.opcode.setWidth 32 ∧ i.throwing = w.getLsbD 7
      ∧ i.format = { alpha := w.toNat / 256 % 16, pad := w.getLsbD 12, ci := w.getLsbD 13 })

/-- The command words written out in 30_encoding.md R57 and 95_test_vectors.md, one a family, are the commands they
stand for. -/
def Obligations.SampleWordsDecode : Prop :=
  decode 0x00002102 = .ok (.b16dec false ⟨1, false, true⟩)
    ∧ decode 0x00001003 = .ok (.b32enc false ⟨0, true, false⟩)
    ∧ decode 0x00003184 = .ok (.b32dec true ⟨1, true, true⟩)
    ∧ decode 0x00000105 = .ok (.b58enc false ⟨1, false, false⟩)
    ∧ decode 0x00001007 = .ok (.b64enc false ⟨0, true, false⟩)
    ∧ decode 0x0000008A = .ok (.chkver true ⟨0, false, false⟩)
    ∧ decode 0x0000008D = .ok (.b58decc true ⟨0, false, false⟩)
    ∧ decode 0x0000000E = .error (.reservedOpcode 0x0E)
    ∧ decode 0x00000041 = .error .reservedLow
    ∧ decode 0x00004001 = .error .reservedHigh

/-- A step in which the engine moves while BUSY is the decoded command's own meaning, in the state with that turn
used up; a command word placed by `withFetchWord` is run by the very next step; and while BUSY = 0 the engine has no
step, so its turn changes nothing of the block (R13, R68). A step in which the host moves performs its next bus
transaction, or one read of a poll, which stays next until the awaited value is read (R58), or nothing when no
operation is left. -/
def Obligations.StepRunsTheDecodedCommand : Prop :=
  (∀ (s : State) (i : Instr), s.status.busy = true → decode s.cmd = .ok i → s.turns = [] → step s = exec i s)
  ∧ (∀ (s : State) (i : Instr) (rest : List Turn), s.status.busy = true → decode s.cmd = .ok i →
      s.turns = .engine :: rest → step s = exec i { s with turns := rest })
  ∧ (∀ (s : State) (nbits w : Nat) (i : Instr), decodeTableWord nbits w = some i →
      step (s.withFetchWord nbits w) = exec i (s.withFetchWord nbits w))
  ∧ (∀ (s : State) (rest : List Turn), s.turns = .engine :: rest → s.status.busy = false →
      step s = .next { s with turns := rest })
  ∧ (∀ (s : State) (rest : List Turn),
      (s.turns = .host :: rest ∨ (s.turns = [] ∧ rest = [] ∧ s.status.busy = false)) →
      (s.program = [] → step s = .next { s with turns := rest })
      ∧ (∀ t p, s.program = .txn t :: p → step s = .next (transact t { s with program := p, turns := rest }))
      ∧ (∀ off mask val p u, s.program = .poll off mask val :: p →
          u = transact (.read off .b4) { s with turns := rest } →
          ((∃ d, u.answer = some (.okRead d) ∧ d &&& mask = val) → step s = .next { u with program := p })
          ∧ ((∀ d, u.answer = some (.okRead d) → d &&& mask ≠ val) → step s = .next u)))

/-- A word with a reserved opcode or a reserved bit set is accepted like any other, and completes unsuccessfully with
ILLEGAL_COMMAND, setting FERR when its bit 7 is set, with no other effect (R55). -/
def Obligations.IllegalWordCompletesIllegal : Prop :=
  ∀ (s : State) (w : Word),
    (w.extractLsb' 14 18 ≠ 0 ∨ w.getLsbD 6 = true ∨ w.extractLsb' 0 6 = 0 ∨ 0x0E ≤ (w.extractLsb' 0 6).toNat) →
    (s.status.busy = false →
      (transact (.write 0x000 .b4 w) s).cmd = w ∧ (transact (.write 0x000 .b4 w) s).status.busy = true)
    ∧ (s.status.busy = true → s.cmd = w →
        (s.turns = [] → ∃ t, step s = .next t ∧ CompletesErr s t (w.getLsbD 7) .illegalCommand)
        ∧ (∀ rest, s.turns = .engine :: rest →
            ∃ t, step s = .next t ∧ CompletesErr { s with turns := rest } t (w.getLsbD 7) .illegalCommand))

/-! ### The bus and the registers -/

/-- A CMD write while BUSY = 0 stores the word, sets BUSY, clears DONE, OK, ERR and OUT_LEN and initialises the working
state, whose positions and counts R79 and R81 start at 0; FERR, OVR, IRQ_EN and everything else are unchanged (R66). A
CMD write while BUSY = 1 sets OVR and does nothing else (R67). Both are answered OKAY; `draws` is the model's own
counter (log entry 6). -/
def Obligations.CommandWriteIsAcceptedOrDropped : Prop :=
  ∀ (s : State) (w : Word),
    (s.status.busy = false → ∃ wk : Work, wk.enc = ⟨0, 0, 0, 0⟩ ∧ wk.dec = ⟨0, 0, 0, 0⟩
      ∧ transact (.write 0x000 .b4 w) s =
        { s with
          cmd := w
          status := { s.status with busy := true, done := false, ok := false, err := 0 }
          outLen := 0
          work := some wk
          answer := some .okWrite
          draws := s.draws + 1 })
    ∧ (s.status.busy = true →
      transact (.write 0x000 .b4 w) s =
        { s with status := { s.status with ovr := true }, answer := some .okWrite, draws := s.draws + 1 })

/-- A write to STATUS clears DONE, FERR and OVR where it writes a 1, and changes nothing else; what STATUS then reads
as has the written-to bits cleared and every other bit as before (10_state.md section 3, R19). -/
def Obligations.StatusWriteClearsOnlyWrittenFlags : Prop :=
  ∀ (s : State) (w : Word),
    ∃ st, transact (.write 0x004 .b4 w) s = { s with status := st, answer := some .okWrite, draws := s.draws + 1 }
      ∧ statusWord st = statusWord s.status &&& ~~~(w &&& 0x302)

/-- While BUSY = 1 a write to IN_LEN or IN_BUF is answered BUSERR and stores nothing, OUT_LEN reads 0, an OUT_BUF read of
any size gives the free values of its draw in the block's copy whatever was stored, and an IN_BUF read of any size gives
the stored bytes (20_memory.md section 2). The spec lets the OUT_BUF read return any value; that it is a new free value
for each read is the model's choice (log entry 5), and the copy number and the draw count are the model's own (log entries
13 and 6). While BUSY = 0 a 32-bit write to IN_LEN stores the value as written, whatever it is, is answered OKAY and
changes nothing else; IN_LEN then reads as it (10_state.md section 3). -/
def Obligations.InputIsFixedWhileBusy : Prop :=
  (∀ s : State, s.status.busy = true → Inv s →
    (∀ v, transact (.write 0x008 .b4 v) s = { s with answer := some (.busErr 0x008), draws := s.draws + 1 })
    ∧ (∀ (off : Offset) (size : Size) (v : Word), inBase ≤ off.toNat → off.toNat < inBase + s.inCap.bytes →
        transact (.write off size v) s = { s with answer := some (.busErr off), draws := s.draws + 1 })
    ∧ busRead 0x00C .b4 s = some 0
    ∧ (∀ (off : Offset) (size : Size), outBase ≤ off.toNat → off.toNat + size.bytes ≤ outBase + s.outCap.bytes →
        off.toNat % size.bytes = 0 →
        ∃ d, busRead off size s = some d
          ∧ ∀ k, k < size.bytes → d.extractLsb' (8 * k) 8 = Config.freeByte s.copy s.draws (off.toNat + k))
    ∧ (∀ (off : Offset) (size : Size), inBase ≤ off.toNat → off.toNat + size.bytes ≤ inBase + s.inCap.bytes →
        off.toNat % size.bytes = 0 →
        ∃ d, busRead off size s = some d
          ∧ ∀ k b, k < size.bytes → s.mem.get? (off.toNat + k) = some b → d.extractLsb' (8 * k) 8 = b))
  ∧ (∀ (s : State) (v : Word), s.status.busy = false →
      transact (.write 0x008 .b4 v) s = { s with inLen := v, answer := some .okWrite, draws := s.draws + 1 }
      ∧ busRead 0x008 .b4 (transact (.write 0x008 .b4 v) s) = some v)

/-- A 32-bit read at each register's offset gives the register (10_state.md section 3, R17 to R24): STATUS as its
fields, CTRL as 0, the capacities as the capacities. -/
def Obligations.RegistersReadAsTheirContents : Prop :=
  ∀ s : State,
    busRead 0x000 .b4 s = some s.cmd
    ∧ (∃ w, busRead 0x004 .b4 s = some w ∧ w.getLsbD 0 = s.status.busy ∧ w.getLsbD 1 = s.status.done
        ∧ w.getLsbD 2 = s.status.ok ∧ w.getLsbD 3 = false ∧ w.extractLsb' 4 4 = s.status.err
        ∧ w.getLsbD 8 = s.status.ferr ∧ w.getLsbD 9 = s.status.ovr ∧ w.extractLsb' 10 22 = 0)
    ∧ busRead 0x008 .b4 s = some s.inLen
    ∧ busRead 0x00C .b4 s = some s.outLen
    ∧ (∃ w, busRead 0x010 .b4 s = some w ∧ w.getLsbD 0 = s.irqEn.doneIe ∧ w.getLsbD 1 = s.irqEn.ferrIe
        ∧ w.extractLsb' 2 30 = 0)
    ∧ busRead 0x014 .b4 s = some 0
    ∧ busRead 0x018 .b4 s = some (BitVec.ofNat 32 s.inCap.bytes)
    ∧ busRead 0x01C .b4 s = some (BitVec.ofNat 32 s.outCap.bytes)

/-- A read or write at a reserved offset is answered BUSERR and changes no state of the block (R33). -/
def Obligations.ReservedOffsetsAnswerBusErr : Prop :=
  ∀ (s : State) (off : Offset) (size : Size) (v : Word),
    ((0x20 ≤ off.toNat ∧ off.toNat < inBase)
      ∨ (inBase + s.inCap.bytes ≤ off.toNat ∧ off.toNat < outBase)
      ∨ outBase + s.outCap.bytes ≤ off.toNat) →
    transact (.read off size) s = { s with answer := some (.busErr off), draws := s.draws + 1 }
    ∧ transact (.write off size v) s = { s with answer := some (.busErr off), draws := s.draws + 1 }

/-- A register access that is not 32 bits wide or not at a multiple of 4 is answered BUSERR and changes no state; a
32-bit read at a multiple of 4 is answered with data (R34). -/
def Obligations.RegisterAccessForm : Prop :=
  ∀ (s : State) (off : Offset) (size : Size) (v : Word), off.toNat < 0x20 →
    ((size ≠ .b4 ∨ off.toNat % 4 ≠ 0) →
      transact (.read off size) s = { s with answer := some (.busErr off), draws := s.draws + 1 }
      ∧ transact (.write off size v) s = { s with answer := some (.busErr off), draws := s.draws + 1 })
    ∧ ((size = .b4 ∧ off.toNat % 4 = 0) →
      ∃ d, transact (.read off size) s = { s with answer := some (.okRead d), draws := s.draws + 1 })

/-- A buffer access that is not naturally aligned, or that crosses the end of its buffer, is answered BUSERR and changes
no byte; an aligned read inside a buffer is answered with data (R35). Every write in OUT_BUF, aligned or not and busy or
not, is answered BUSERR and changes nothing (R32). `base` and `cap` are those of IN_BUF or of OUT_BUF. -/
def Obligations.BufferAccessForm : Prop :=
  ∀ (s : State) (off : Offset) (size : Size) (v : Word) (base cap : Nat),
    ((base = inBase ∧ cap = s.inCap.bytes) ∨ (base = outBase ∧ cap = s.outCap.bytes)) →
    base ≤ off.toNat → off.toNat < base + cap →
    ((off.toNat % size.bytes ≠ 0 ∨ base + cap < off.toNat + size.bytes) →
      transact (.read off size) s = { s with answer := some (.busErr off), draws := s.draws + 1 }
      ∧ transact (.write off size v) s = { s with answer := some (.busErr off), draws := s.draws + 1 })
    ∧ ((off.toNat % size.bytes = 0 ∧ off.toNat + size.bytes ≤ base + cap) →
      ∃ d, transact (.read off size) s = { s with answer := some (.okRead d), draws := s.draws + 1 })
    ∧ (base = outBase →
      transact (.write off size v) s = { s with answer := some (.busErr off), draws := s.draws + 1 })

/-- The bus is little-endian: a write of `n` bytes to IN_BUF while BUSY = 0 stores data bits 8k+7:8k at offset `a + k`,
and no other byte; a read of `n` bytes of either buffer gives the byte at `a + k` in data bits 8k+7:8k, the bits above
them 0 (R36). That byte is, in IN_BUF, busy or not, the stored one, and the free value of the last reset where none is
stored (log entry 4); in OUT_BUF while BUSY = 0, the stored one below OUT_LEN, and the free value of the read's draw at
OUT_LEN and above (R26; log entry 5). So after a command that succeeded the host reads its output (20_memory.md R41,
R42). -/
def Obligations.BusIsLittleEndian : Prop :=
  (∀ (s : State) (off : Offset) (size : Size) (v : Word), off.toNat % size.bytes = 0 →
    (inBase ≤ off.toNat → off.toNat + size.bytes ≤ inBase + s.inCap.bytes →
      (s.status.busy = false → ∃ m,
        transact (.write off size v) s = { s with mem := m, answer := some .okWrite, draws := s.draws + 1 }
        ∧ (∀ k, k < size.bytes → m.get? (off.toNat + k) = some (v.extractLsb' (8 * k) 8))
        ∧ (∀ a, (a < off.toNat ∨ off.toNat + size.bytes ≤ a) → m.get? a = s.mem.get? a))
      ∧ (∃ d, transact (.read off size) s = { s with answer := some (.okRead d), draws := s.draws + 1 }
        ∧ (∀ k, k < size.bytes → d.extractLsb' (8 * k) 8 = inByte s (off.toNat - inBase + k)
          ∧ (∀ b, s.mem.get? (off.toNat + k) = some b → d.extractLsb' (8 * k) 8 = b)
          ∧ (s.mem.get? (off.toNat + k) = none →
            d.extractLsb' (8 * k) 8 = Config.freeByte s.copy s.epoch (off.toNat + k)))
        ∧ d.toNat < 2 ^ (8 * size.bytes)))
    ∧ (outBase ≤ off.toNat → off.toNat + size.bytes ≤ outBase + s.outCap.bytes →
      ∃ d, transact (.read off size) s = { s with answer := some (.okRead d), draws := s.draws + 1 }
        ∧ (∀ k, k < size.bytes → d.extractLsb' (8 * k) 8 = outByte s (off.toNat - outBase + k)
          ∧ (s.status.busy = false → off.toNat - outBase + k < s.outLen.toNat →
            ∀ b, s.mem.get? (off.toNat + k) = some b → d.extractLsb' (8 * k) 8 = b)
          ∧ (s.outLen.toNat ≤ off.toNat - outBase + k →
            d.extractLsb' (8 * k) 8 = Config.freeByte s.copy s.draws (off.toNat + k)))
        ∧ d.toNat < 2 ^ (8 * size.bytes)))
  ∧ (∀ (i : Instr) (s t : State) (out : List Byte) (off : Offset) (size : Size),
      exec i s = .next t → CompletesOk s t out →
      off.toNat % size.bytes = 0 → outBase ≤ off.toNat → off.toNat + size.bytes ≤ outBase + out.length →
      ∃ d, transact (.read off size) t = { t with answer := some (.okRead d), draws := t.draws + 1 }
        ∧ ∀ k, k < size.bytes → out[off.toNat - outBase + k]? = some (d.extractLsb' (8 * k) 8))

/-- A read transaction changes nothing but the bus answer and the draw count, both the model's own (R37, its first
sentence). -/
def Obligations.ReadsHaveNoSideEffect : Prop :=
  ∀ (s : State) (off : Offset) (size : Size),
    ∃ a, transact (.read off size) s = { s with answer := some a, draws := s.draws + 1 }

/-- The hardware reset and a write to CTRL with bit 0 set leave the same block: idle, every register at its reset value,
nothing stored in either buffer, no working state, `irq` 0; the soft reset is answered OKAY, busy or not, and a CTRL
write with bit 0 clear does nothing (R119, R120, R23). -/
def Obligations.ResetsClearTheBlock : Prop :=
  ∀ s : State,
    (∀ rest, s.turns = .reset :: rest → ∃ t, step s = .next t ∧ t =
        { s with
          cmd := 0, status := t.status, inLen := 0, outLen := 0, irqEn := ⟨false, false⟩, mem := [], work := none
          turns := rest, draws := s.draws + 1, epoch := s.draws + 1 }
      ∧ statusWord t.status = 0 ∧ irq t = false)
    ∧ (∀ v : Word, v.getLsbD 0 = true → ∃ t, transact (.write 0x014 .b4 v) s = t ∧ t =
        { s with
          cmd := 0, status := t.status, inLen := 0, outLen := 0, irqEn := ⟨false, false⟩, mem := [], work := none
          answer := some .okWrite, draws := s.draws + 2, epoch := s.draws + 1 }
      ∧ statusWord t.status = 0 ∧ irq t = false)
    ∧ (∀ v : Word, v.getLsbD 0 = false →
        transact (.write 0x014 .b4 v) s = { s with answer := some .okWrite, draws := s.draws + 1 })

/-- After reset every register reads its reset value, `irq` is 0, and no byte of either buffer is stored (R30). -/
def Obligations.ResetValues : Prop :=
  busRead 0x000 .b4 State.reset = some 0 ∧ busRead 0x004 .b4 State.reset = some 0
    ∧ busRead 0x008 .b4 State.reset = some 0 ∧ busRead 0x00C .b4 State.reset = some 0
    ∧ busRead 0x010 .b4 State.reset = some 0 ∧ busRead 0x014 .b4 State.reset = some 0
    ∧ busRead 0x018 .b4 State.reset = some (BitVec.ofNat 32 Config.inCap.bytes)
    ∧ busRead 0x01C .b4 State.reset = some (BitVec.ofNat 32 Config.outCap.bytes)
    ∧ irq State.reset = false ∧ State.reset.work = none ∧ ∀ a, State.reset.mem.get? a = none

/-- IN_CAPR and OUT_CAPR read as the capacities; a write to either is answered OKAY and ignored; no step changes a
capacity (R24). -/
def Obligations.CapacityRegistersNeverChange : Prop :=
  ∀ s : State,
    (busRead 0x018 .b4 s = some (BitVec.ofNat 32 s.inCap.bytes)
      ∧ busRead 0x01C .b4 s = some (BitVec.ofNat 32 s.outCap.bytes))
    ∧ (∀ v, transact (.write 0x018 .b4 v) s = { s with answer := some .okWrite, draws := s.draws + 1 }
      ∧ transact (.write 0x01C .b4 v) s = { s with answer := some .okWrite, draws := s.draws + 1 })
    ∧ (∀ t, step s = .next t → t.inCap = s.inCap ∧ t.outCap = s.outCap)

/-- OUT_LEN, for every command in every state: the complete step leaves the length of the operation's output when STATUS
reports success, and 0 when it reports failure, an illegal word's included; a CMD write that is accepted leaves 0, and
every step that does not end the command keeps that; either reset leaves 0; a write to OUT_LEN is answered OKAY and
ignored (R21). -/
def Obligations.OutputLengthRegister : Prop :=
  (∀ (i : Instr) (s : State), ∃ t, exec i s = .next t
      ∧ (t.status.ok = true → ∃ A out, (∀ f, commandFamily i = some f → rom f i.format.alpha = some A)
          ∧ operation i A (inputBytes s) = .ok out ∧ t.outLen.toNat = out.length)
      ∧ (t.status.ok = false → t.outLen = 0))
  ∧ (∀ (s t : State) (e : DecodeError), s.status.busy = true → decode s.cmd = .error e → engineTurn s = .next t →
      t.outLen = 0)
  ∧ (∀ (s : State) (w : Word), s.status.busy = false → (transact (.write 0x000 .b4 w) s).outLen = 0)
  ∧ (∀ s t : State, s.status.busy = true → s.outLen = 0 → step s = .next t → t.status.busy = true → t.outLen = 0)
  ∧ (∀ (s t : State) (rest : List Turn), s.turns = .reset :: rest → step s = .next t → t.outLen = 0)
  ∧ (∀ (s : State) (v : Word), v.getLsbD 0 = true → (transact (.write 0x014 .b4 v) s).outLen = 0)
  ∧ State.reset.outLen = 0
  ∧ (∀ (s : State) (v : Word),
      transact (.write 0x00C .b4 v) s = { s with answer := some .okWrite, draws := s.draws + 1 })

/-- A write to IRQ_EN stores bit 0 as DONE_IE and bit 1 as FERR_IE, drops the rest, and changes nothing else; IRQ_EN then
reads as the written word's bits 1:0; DONE_IE lets DONE raise `irq` and FERR_IE lets FERR; both enables reset to 0
(R22). -/
def Obligations.InterruptEnableKeepsTwoBits : Prop :=
  (∀ (s : State) (v : Word), ∃ t, transact (.write 0x010 .b4 v) s = t
      ∧ t = { s with irqEn := ⟨v.getLsbD 0, v.getLsbD 1⟩, answer := some .okWrite, draws := s.draws + 1 }
      ∧ busRead 0x010 .b4 t = some (v &&& 3)
      ∧ irq t = ((s.status.done && v.getLsbD 0) || (s.status.ferr && v.getLsbD 1)))
  ∧ State.reset.irqEn = ⟨false, false⟩

/-- `irq` is DONE gated by DONE_IE, or FERR gated by FERR_IE, as the registers read; a completing command raises it in
that step when DONE_IE is set (R110; R111 for the complete step). -/
def Obligations.InterruptLineFollowsStatus : Prop :=
  (∀ (s : State) (st en : Word), busRead 0x004 .b4 s = some st → busRead 0x010 .b4 s = some en →
      irq s = ((st.getLsbD 1 && en.getLsbD 0) || (st.getLsbD 8 && en.getLsbD 1)))
  ∧ (∀ (i : Instr) (s t : State), exec i s = .next t → irq t = (s.irqEn.doneIe || (t.status.ferr && s.irqEn.ferrIe)))

/-! ### What each command does -/

/-- B16ENC: for a legal ALPHA and an input and output that fit, it succeeds with two symbols a byte, bits 7:4 first;
PAD and CI are ignored (41_base16.md R76). -/
def Obligations.Base16EncodeResult : Prop :=
  ∀ (t : Bool) (cfg : FormatConfig) (s : State) (A : List Byte),
    rom .base16 cfg.alpha = some A → InputFits s → 2 * s.inLen.toNat ≤ s.outCap.bytes →
    ∃ out, Succeeds (.b16enc t cfg) s out ∧ out.length = 2 * s.inLen.toNat
      ∧ ∀ i, i < s.inLen.toNat →
          out[2 * i]? = some (symbol A ((inByte s i).toNat / 16))
          ∧ out[2 * i + 1]? = some (symbol A ((inByte s i).toNat % 16))

/-- B16DEC: for a text of even length whose every character is found, with digits `d`, it succeeds with byte `i` made of
digits `2i` and `2i+1`; PAD is ignored (41_base16.md R77). -/
def Obligations.Base16DecodeResult : Prop :=
  ∀ (t : Bool) (cfg : FormatConfig) (s : State) (A : List Byte) (d : Nat → Nat),
    rom .base16 cfg.alpha = some A → InputFits s → s.inLen.toNat % 2 = 0 → s.inLen.toNat / 2 ≤ s.outCap.bytes →
    (∀ j, j < s.inLen.toNat → lookup A cfg.ci (inByte s j) = some (d j)) →
    ∃ out, Succeeds (.b16dec t cfg) s out ∧ out.length = s.inLen.toNat / 2
      ∧ ∀ i, i < s.inLen.toNat / 2 → out[i]? = some (BitVec.ofNat 8 (16 * d (2 * i) + d (2 * i + 1)))

/-- B32ENC succeeds with the closed form of the 5-bit grouping; CI is ignored (42_base32.md R84 with R80). -/
def Obligations.Base32EncodeResult : Prop :=
  ∀ (t : Bool) (cfg : FormatConfig) (s : State) (A : List Byte),
    rom .base32 cfg.alpha = some A → InputFits s →
    OutputFits s (groupEncode 5 8 A (inputBytes s) cfg.pad) →
    Succeeds (.b32enc t cfg) s (groupEncode 5 8 A (inputBytes s) cfg.pad)

/-- B64ENC succeeds with the closed form of the 6-bit grouping; CI is ignored (45_base64.md R100 with R80). -/
def Obligations.Base64EncodeResult : Prop :=
  ∀ (t : Bool) (cfg : FormatConfig) (s : State) (A : List Byte),
    rom .base64 cfg.alpha = some A → InputFits s →
    OutputFits s (groupEncode 6 4 A (inputBytes s) cfg.pad) →
    Succeeds (.b64enc t cfg) s (groupEncode 6 4 A (inputBytes s) cfg.pad)

/-- B32DEC: the input is a text followed by `k` pad characters, none at the text's end, when padding is enabled (the
whole then in blocks of 8), and the text alone when not; if every character is found it succeeds with the closed form
of the bytes of the digits, unless a non-empty input yields none (42_base32.md R85 with R82). -/
def Obligations.Base32DecodeResult : Prop :=
  ∀ (t : Bool) (cfg : FormatConfig) (s : State) (A body : List Byte) (digits : List Nat) (k : Nat),
    rom .base32 cfg.alpha = some A → InputFits s →
    inputBytes s = body ++ List.replicate k padChar →
    (if cfg.pad then body.getLast? ≠ some padChar ∧ s.inLen.toNat % 8 = 0 else k = 0) →
    body.map (lookup A cfg.ci) = digits.map some →
    (s.inLen.toNat = 0 ∨ 2 ≤ digits.length) →
    OutputFits s (groupDecode 5 digits) →
    Succeeds (.b32dec t cfg) s (groupDecode 5 digits)

/-- B64DEC: as B32DEC with 6-bit digits and blocks of 4; the lookup is case-strict whatever CI is (45_base64.md R101
with R82). -/
def Obligations.Base64DecodeResult : Prop :=
  ∀ (t : Bool) (cfg : FormatConfig) (s : State) (A body : List Byte) (digits : List Nat) (k : Nat),
    rom .base64 cfg.alpha = some A → InputFits s →
    inputBytes s = body ++ List.replicate k padChar →
    (if cfg.pad then body.getLast? ≠ some padChar ∧ s.inLen.toNat % 4 = 0 else k = 0) →
    body.map (lookup A false) = digits.map some →
    (s.inLen.toNat = 0 ∨ 2 ≤ digits.length) →
    OutputFits s (groupDecode 6 digits) →
    Succeeds (.b64dec t cfg) s (groupDecode 6 digits)

/-- B58ENC: with `z` leading zero bytes and `ds` the base-58 digits of the big-endian value, it succeeds with `z`
zero-symbols and the symbols of `ds`; PAD and CI are ignored (43_base58.md R90 with R87). -/
def Obligations.Base58EncodeResult : Prop :=
  ∀ (t : Bool) (cfg : FormatConfig) (s : State) (A : List Byte) (z : Nat) (ds : List Nat),
    rom .base58 cfg.alpha = some A → InputFits s →
    IsLeadingRun 0 (inputBytes s) z →
    IsNumeral 58 (weightedSum 256 ((inputBytes s).map BitVec.toNat)) ds →
    OutputFits s (List.replicate z (symbol A 0) ++ ds.map (symbol A)) →
    Succeeds (.b58enc t cfg) s (List.replicate z (symbol A 0) ++ ds.map (symbol A))

/-- B58DEC: with `z` leading zero-symbols, every other character found, and `bs` the minimal big-endian bytes of the
value, it succeeds with `z` zero bytes and `bs`; PAD and CI are ignored (43_base58.md R91 with R88). -/
def Obligations.Base58DecodeResult : Prop :=
  ∀ (t : Bool) (cfg : FormatConfig) (s : State) (A : List Byte) (z : Nat) (digits bs : List Nat),
    rom .base58 cfg.alpha = some A → InputFits s →
    IsLeadingRun (symbol A 0) (inputBytes s) z →
    ((inputBytes s).drop z).map (lookup A false) = digits.map some →
    IsNumeral 256 (weightedSum 58 digits) bs →
    OutputFits s (List.replicate z 0 ++ bs.map (BitVec.ofNat 8)) →
    Succeeds (.b58dec t cfg) s (List.replicate z 0 ++ bs.map (BitVec.ofNat 8))

/-- CHKADD succeeds with the input and the first 4 bytes of HASH(HASH(input)); ALPHA, PAD and CI are ignored
(44_checksum.md R94). -/
def Obligations.ChecksumAddResult : Prop :=
  ∀ (t : Bool) (cfg : FormatConfig) (s : State), InputFits s → s.inLen.toNat + 4 ≤ s.outCap.bytes →
    Succeeds (.chkadd t cfg) s (inputBytes s ++ (Config.hash (Config.hash (inputBytes s)).bytes).bytes.take 4)

/-- CHKVER succeeds with no output when the last 4 input bytes are the checksum of the others (44_checksum.md R95). -/
def Obligations.ChecksumVerifyResult : Prop :=
  ∀ (t : Bool) (cfg : FormatConfig) (s : State) (p : List Byte), InputFits s →
    inputBytes s = p ++ (Config.hash (Config.hash p).bytes).bytes.take 4 → Succeeds (.chkver t cfg) s []

/-- CHKREM succeeds with the input but its last 4 bytes, whatever they are (44_checksum.md R96). -/
def Obligations.ChecksumRemoveResult : Prop :=
  ∀ (t : Bool) (cfg : FormatConfig) (s : State) (p c : List Byte), InputFits s →
    inputBytes s = p ++ c → c.length = 4 → OutputFits s p → Succeeds (.chkrem t cfg) s p

/-- B58ENCC succeeds with the base-58 encoding of the input and its checksum (44_checksum.md R97). -/
def Obligations.Base58EncodeCheckedResult : Prop :=
  ∀ (t : Bool) (cfg : FormatConfig) (s : State) (A q : List Byte) (z : Nat) (ds : List Nat),
    rom .base58 cfg.alpha = some A → InputFits s →
    q = inputBytes s ++ (Config.hash (Config.hash (inputBytes s)).bytes).bytes.take 4 →
    IsLeadingRun 0 q z → IsNumeral 58 (weightedSum 256 (q.map BitVec.toNat)) ds →
    OutputFits s (List.replicate z (symbol A 0) ++ ds.map (symbol A)) →
    Succeeds (.b58encc t cfg) s (List.replicate z (symbol A 0) ++ ds.map (symbol A))

/-- B58DECC: a text whose base-58 decoding is a payload and its checksum succeeds with the payload (44_checksum.md
R98). -/
def Obligations.Base58DecodeCheckedResult : Prop :=
  ∀ (t : Bool) (cfg : FormatConfig) (s : State) (A p : List Byte) (z : Nat) (digits bs : List Nat),
    rom .base58 cfg.alpha = some A → InputFits s →
    IsLeadingRun (symbol A 0) (inputBytes s) z →
    ((inputBytes s).drop z).map (lookup A false) = digits.map some →
    IsNumeral 256 (weightedSum 58 digits) bs →
    List.replicate z 0 ++ bs.map (BitVec.ofNat 8) = p ++ (Config.hash (Config.hash p).bytes).bytes.take 4 →
    OutputFits s p → Succeeds (.b58decc t cfg) s p

/-! ### How commands fail -/

/-- The checks of every command, in their order: an illegal word fails with ILLEGAL_COMMAND; an ALPHA value that the
family does not have with UNSUPPORTED_CONFIG, whatever else holds; IN_LEN above IN_CAP with CAPACITY; then the
operation's own failure; then an output longer than OUT_CAP with CAPACITY; else the command succeeds with the output. No
operation itself fails with CAPACITY (R69, R70). -/
def Obligations.ChecksRunInOrder : Prop :=
  (∀ s : State, s.status.busy = true →
    (s.cmd.extractLsb' 14 18 ≠ 0 ∨ s.cmd.getLsbD 6 = true ∨ s.cmd.extractLsb' 0 6 = 0
      ∨ 0x0E ≤ (s.cmd.extractLsb' 0 6).toNat) →
    ∃ t, engineTurn s = .next t ∧ CompletesErr s t (s.cmd.getLsbD 7) .illegalCommand)
  ∧ ∀ (i : Instr) (s : State), i.wf = true →
    (legalAlphas i ≤ i.format.alpha → Fails i s .unsupportedConfig)
    ∧ (i.format.alpha < legalAlphas i → s.inCap.bytes < s.inLen.toNat → Fails i s .capacity)
    ∧ ∀ A : List Byte, (∀ f, commandFamily i = some f → rom f i.format.alpha = some A) → InputFits s →
        (∀ e, operation i A (inputBytes s) = .error e → e ≠ .capacity ∧ Fails i s e)
        ∧ (∀ out, operation i A (inputBytes s) = .ok out →
          (s.outCap.bytes < out.length → Fails i s .capacity) ∧ (OutputFits s out → Succeeds i s out))

/-- An empty input: every codec encode and decode command with a legal ALPHA succeeds with an empty output; CHKVER, CHKREM
and B58DECC fail with INVALID_LENGTH; CHKADD gives the 4-byte checksum of nothing and B58ENCC its encoding (R73). -/
def Obligations.EmptyInput : Prop :=
  ∀ (t : Bool) (cfg : FormatConfig) (s : State), s.inLen = 0 →
    ((rom .base16 cfg.alpha).isSome = true → Succeeds (.b16enc t cfg) s [] ∧ Succeeds (.b16dec t cfg) s [])
    ∧ ((rom .base32 cfg.alpha).isSome = true → Succeeds (.b32enc t cfg) s [] ∧ Succeeds (.b32dec t cfg) s [])
    ∧ ((rom .base58 cfg.alpha).isSome = true → Succeeds (.b58enc t cfg) s [] ∧ Succeeds (.b58dec t cfg) s [])
    ∧ ((rom .base64 cfg.alpha).isSome = true → Succeeds (.b64enc t cfg) s [] ∧ Succeeds (.b64dec t cfg) s [])
    ∧ Fails (.chkver t cfg) s .invalidLength ∧ Fails (.chkrem t cfg) s .invalidLength
    ∧ ((rom .base58 cfg.alpha).isSome = true → Fails (.b58decc t cfg) s .invalidLength)
    ∧ (4 ≤ s.outCap.bytes → Succeeds (.chkadd t cfg) s ((Config.hash (Config.hash []).bytes).bytes.take 4))
    ∧ (∀ A, rom .base58 cfg.alpha = some A →
        OutputFits s (b58Encode A ((Config.hash (Config.hash []).bytes).bytes.take 4)) →
        Succeeds (.b58encc t cfg) s (b58Encode A ((Config.hash (Config.hash []).bytes).bytes.take 4)))

/-- B16DEC fails with INVALID_LENGTH for an odd length, even if a character is bad, and else with INVALID_CHARACTER when
some character is not found (41_base16.md R77). -/
def Obligations.Base16DecodeFailures : Prop :=
  ∀ (t : Bool) (cfg : FormatConfig) (s : State) (A : List Byte), rom .base16 cfg.alpha = some A → InputFits s →
    (s.inLen.toNat % 2 = 1 → Fails (.b16dec t cfg) s .invalidLength)
    ∧ (s.inLen.toNat % 2 = 0 → (∃ j, j < s.inLen.toNat ∧ lookup A cfg.ci (inByte s j) = none) →
        Fails (.b16dec t cfg) s .invalidCharacter)

/-- B32DEC fails with INVALID_LENGTH for a padded text whose length is no multiple of 8; else with INVALID_CHARACTER for
a character before the trailing pads that is not found; else with INVALID_LENGTH for a non-empty text of fewer than two
symbols (42_base32.md R85). -/
def Obligations.Base32DecodeFailures : Prop :=
  ∀ (t : Bool) (cfg : FormatConfig) (s : State) (A : List Byte), rom .base32 cfg.alpha = some A → InputFits s →
    (cfg.pad = true → s.inLen.toNat % 8 ≠ 0 → Fails (.b32dec t cfg) s .invalidLength)
    ∧ (∀ (body : List Byte) (k : Nat), inputBytes s = body ++ List.replicate k padChar →
        (if cfg.pad then body.getLast? ≠ some padChar ∧ s.inLen.toNat % 8 = 0 else k = 0) →
        ((∃ c ∈ body, lookup A cfg.ci c = none) → Fails (.b32dec t cfg) s .invalidCharacter)
        ∧ ((∀ c ∈ body, lookup A cfg.ci c ≠ none) → 0 < s.inLen.toNat → body.length ≤ 1 →
            Fails (.b32dec t cfg) s .invalidLength))

/-- B64DEC fails as B32DEC does, with blocks of 4 and a case-strict lookup (45_base64.md R101). -/
def Obligations.Base64DecodeFailures : Prop :=
  ∀ (t : Bool) (cfg : FormatConfig) (s : State) (A : List Byte), rom .base64 cfg.alpha = some A → InputFits s →
    (cfg.pad = true → s.inLen.toNat % 4 ≠ 0 → Fails (.b64dec t cfg) s .invalidLength)
    ∧ (∀ (body : List Byte) (k : Nat), inputBytes s = body ++ List.replicate k padChar →
        (if cfg.pad then body.getLast? ≠ some padChar ∧ s.inLen.toNat % 4 = 0 else k = 0) →
        ((∃ c ∈ body, lookup A false c = none) → Fails (.b64dec t cfg) s .invalidCharacter)
        ∧ ((∀ c ∈ body, lookup A false c ≠ none) → 0 < s.inLen.toNat → body.length ≤ 1 →
            Fails (.b64dec t cfg) s .invalidLength))

/-- B58DEC and B58DECC fail with INVALID_CHARACTER when a character is not found; B58DECC else fails with INVALID_LENGTH
when fewer than 4 bytes are decoded, and with CHECKSUM_MISMATCH when the last 4 are not the checksum of the others
(43_base58.md R91; 44_checksum.md R98). -/
def Obligations.Base58DecodeFailures : Prop :=
  ∀ (t : Bool) (cfg : FormatConfig) (s : State) (A : List Byte), rom .base58 cfg.alpha = some A → InputFits s →
    ((∃ j, j < s.inLen.toNat ∧ lookup A false (inByte s j) = none) →
      Fails (.b58dec t cfg) s .invalidCharacter ∧ Fails (.b58decc t cfg) s .invalidCharacter)
    ∧ (∀ b, b58Decode A (inputBytes s) = .ok b →
        (b.length < 4 → Fails (.b58decc t cfg) s .invalidLength)
        ∧ (∀ p c, b = p ++ c → c.length = 4 → c ≠ (Config.hash (Config.hash p).bytes).bytes.take 4 →
            Fails (.b58decc t cfg) s .checksumMismatch))

/-- CHKVER and CHKREM fail with INVALID_LENGTH for fewer than 4 bytes; CHKVER fails with CHECKSUM_MISMATCH when the last
4 bytes are not the checksum of the others (44_checksum.md R95, R96). -/
def Obligations.ChecksumFailures : Prop :=
  ∀ (t : Bool) (cfg : FormatConfig) (s : State), InputFits s →
    (s.inLen.toNat < 4 → Fails (.chkver t cfg) s .invalidLength ∧ Fails (.chkrem t cfg) s .invalidLength)
    ∧ (∀ p c, inputBytes s = p ++ c → c.length = 4 → c ≠ (Config.hash (Config.hash p).bytes).bytes.take 4 →
        Fails (.chkver t cfg) s .checksumMismatch)

/-! ### The contract every command keeps -/

/-- The two call shapes of one operation leave the same state, but that a failing throwing form sets FERR where the try
form leaves it (R53, R71). -/
def Obligations.ThrowBitOnlySetsFerr : Prop :=
  ∀ (i j : Instr) (s : State), i.opcode = j.opcode → i.format = j.format → i.throwing = true → j.throwing = false →
    ∃ t u, exec i s = .next t ∧ exec j s = .next u
      ∧ t = { u with status := { u.status with ferr := t.status.ferr } }
      ∧ u.status.ferr = s.status.ferr
      ∧ t.status.ferr = (s.status.ferr || !u.status.ok)

/-- Every command completes, with an output or with exactly one of the causes 1 to 5. A failure puts its code in ERR, 0 in
OK and OUT_LEN, 0 in BUSY and 1 in DONE, sets FERR if T = 1, leaves OUT_BUF unspecified, and changes nothing else
(R108). -/
def Obligations.EveryCommandSucceedsOrFails : Prop :=
  (∀ (i : Instr) (s : State), (∃ out, Succeeds i s out) ∨ (∃ e, e ≠ .illegalCommand ∧ Fails i s e))
  ∧ ∀ (i : Instr) (s : State) (e : CmdError), Fails i s e →
      ∃ t, exec i s = .next t
        ∧ t = { s with mem := t.mem, outLen := 0, status := t.status, work := none }
        ∧ t.status.err.toNat = (match e with
          | .invalidCharacter => 1
          | .invalidLength => 2
          | .checksumMismatch => 3
          | .unsupportedConfig => 4
          | .capacity => 5
          | .illegalCommand => 6)
        ∧ t.status.ok = false ∧ t.status.busy = false ∧ t.status.done = true
        ∧ t.status.ferr = (s.status.ferr || i.throwing) ∧ t.status.ovr = s.status.ovr
        ∧ (∀ j, j < s.outCap.bytes → t.mem.get? (outBase + j) = none)
        ∧ (∀ a, (a < outBase ∨ outBase + s.outCap.bytes ≤ a) → t.mem.get? a = s.mem.get? a)

/-- A field that has no meaning for a command is ignored: any two values give the same step; CMD reads back all bits of
the word as written (R56). -/
def Obligations.IgnoredFields : Prop :=
  (∀ (t p c p' c' : Bool) (a : Nat) (s : State),
    exec (.b16enc t ⟨a, p, c⟩) s = exec (.b16enc t ⟨a, p', c'⟩) s
    ∧ exec (.b16dec t ⟨a, p, c⟩) s = exec (.b16dec t ⟨a, p', c⟩) s
    ∧ exec (.b32enc t ⟨a, p, c⟩) s = exec (.b32enc t ⟨a, p, c'⟩) s
    ∧ exec (.b58enc t ⟨a, p, c⟩) s = exec (.b58enc t ⟨a, p', c'⟩) s
    ∧ exec (.b58dec t ⟨a, p, c⟩) s = exec (.b58dec t ⟨a, p', c'⟩) s
    ∧ exec (.b64enc t ⟨a, p, c⟩) s = exec (.b64enc t ⟨a, p, c'⟩) s
    ∧ exec (.b64dec t ⟨a, p, c⟩) s = exec (.b64dec t ⟨a, p, c'⟩) s
    ∧ exec (.b58encc t ⟨a, p, c⟩) s = exec (.b58encc t ⟨a, p', c'⟩) s
    ∧ exec (.b58decc t ⟨a, p, c⟩) s = exec (.b58decc t ⟨a, p', c'⟩) s)
  ∧ (∀ (t : Bool) (cfg cfg' : FormatConfig) (s : State),
    exec (.chkadd t cfg) s = exec (.chkadd t cfg') s ∧ exec (.chkver t cfg) s = exec (.chkver t cfg') s
    ∧ exec (.chkrem t cfg) s = exec (.chkrem t cfg') s)
  ∧ (∀ (s : State) (w : Word), s.status.busy = false → busRead 0x000 .b4 (transact (.write 0x000 .b4 w) s) = some w)

/-- A command leaves everything but STATUS, OUT_LEN, OUT_BUF and the working state as it was: CMD, IN_LEN, IRQ_EN, the
capacities, every stored byte outside OUT_BUF, and OVR; FERR is only ever set, and only by a failing throwing form
(60_exceptions.md R108 and 40_common.md R68, for all 13 commands). -/
def Obligations.CommandFrame : Prop :=
  ∀ (i : Instr) (s : State), ∃ t, exec i s = .next t
    ∧ t = { s with mem := t.mem, outLen := t.outLen, status := t.status, work := none }
    ∧ (∀ a, (a < outBase ∨ outBase + s.outCap.bytes ≤ a) → t.mem.get? a = s.mem.get? a)
    ∧ t.status.busy = false ∧ t.status.done = true ∧ t.status.ovr = s.status.ovr
    ∧ t.status.ferr = (s.status.ferr || (i.throwing && !t.status.ok))

/-- A failing command with T = 1 sets FERR, and nothing else a command does changes it; once set, only a reset, or a step
in which the host moves and writes 1 to STATUS bit 8 or performs a soft reset, clears it (R107). -/
def Obligations.FormatErrorIsSticky : Prop :=
  (∀ (i : Instr) (s : State), ∃ t, exec i s = .next t
      ∧ t.status.ferr = (s.status.ferr || (i.throwing && !t.status.ok)))
  ∧ ∀ s t : State, step s = .next t → s.status.ferr = true → t.status.ferr = false →
    (∃ rest, s.turns = .reset :: rest)
    ∨ (((∃ rest, s.turns = .host :: rest) ∨ (s.turns = [] ∧ s.status.busy = false))
      ∧ ((∃ w p, s.program = .txn (.write 0x004 .b4 w) :: p ∧ w.getLsbD 8 = true)
        ∨ (∃ w p, s.program = .txn (.write 0x014 .b4 w) :: p ∧ w.getLsbD 0 = true)))

/-- A command's result depends on its word, its input and the capacities alone: two states that agree on those get the
same STATUS result, the same OUT_LEN and the same output (R72). -/
def Obligations.CommandReadsOnlyItsInput : Prop :=
  ∀ (i : Instr) (s u : State), s.inLen = u.inLen → inputBytes s = inputBytes u → s.inCap = u.inCap →
    s.outCap = u.outCap →
    ∃ s' u', exec i s = .next s' ∧ exec i u = .next u'
      ∧ s'.status.ok = u'.status.ok ∧ s'.status.err = u'.status.err ∧ s'.outLen = u'.outLen
      ∧ (∀ j, j < s'.outLen.toNat → s'.mem.get? (outBase + j) = u'.mem.get? (outBase + j))

/-- Every step of the machine answers a next state: it raises no trap and refuses nothing (R112). -/
def Obligations.EveryStepRuns : Prop := ∀ s : State, StepRuns s

/-- The state after reset meets the invariant. -/
def Obligations.ResetMeetsInvariant : Prop := Inv State.reset

/-- Every step, of the host, of the engine or of a reset, keeps the invariant (R19's and R21's invariants, R103's range
of codes, R26, R28 and R41, and the canonical form of storage). -/
def Obligations.StepKeepsInvariant : Prop := ∀ s t : State, Inv s → step s = .next t → Inv t

/-- While BUSY = 1 the engine's step is eventually taken unless a reset intervenes: after at most as many steps as turns
are still to be taken, all with BUSY = 1 and the same command in CMD, one more step ends it, either with DONE = 1, which
is its completion, or by a hardware reset or the host's soft reset (70_reset_and_hazards.md R124, in the model's form of
fairness, log entry 3). -/
def Obligations.BusyEndsWithinTheTurns : Prop :=
  ∀ s : State, s.status.busy = true →
    ∃ (k : Nat) (u t : State), k ≤ s.turns.length ∧ Host.Core.run Sys2Proof.core k s = .next u
      ∧ u.status.busy = true ∧ u.cmd = s.cmd ∧ u.inLen = s.inLen
      ∧ step u = .next t ∧ t.status.busy = false
      ∧ (t.status.done = true
        ∨ (∃ rest, u.turns = .reset :: rest)
        ∨ (∃ rest w p, u.turns = .host :: rest ∧ u.program = .txn (.write 0x014 .b4 w) :: p ∧ w.getLsbD 0 = true))

/-- The blocks of a platform share no state: a step or a bus transaction of one leaves every other, and every other's
`irq`, as it was, and a platform address in a block's window reaches that block (R116, R31). Nor do they share free
values: a step and a transaction keep the blocks different copies, and a byte that the spec leaves unspecified is, in
each, the free value under the block's own copy number (log entry 13). -/
def Obligations.BlocksAreIndependent : Prop :=
  (∀ (p : Platform) (k j : Nat), j ≠ k →
      (platformStep k p)[j]? = p[j]? ∧ (irqLines (platformStep k p))[j]? = (irqLines p)[j]?)
  ∧ (∀ (p : Platform) (k : Nat) (x : Site) (off : Offset) (access : Offset → Txn), p.wf → p[k]? = some x →
      ∃ q, platformAccess (x.base + off.toNat) access p = some q
        ∧ q[k]? = some { x with block := transact (access off) x.block }
        ∧ (∀ j, j ≠ k → q[j]? = p[j]? ∧ (irqLines q)[j]? = (irqLines p)[j]?)
        ∧ q.wf)
  ∧ (∀ (p : Platform) (k : Nat), p.wf → (platformStep k p).wf)
  ∧ (∀ (p : Platform) (k j : Nat) (x y : Site), p.wf → k ≠ j → p[k]? = some x → p[j]? = some y →
      x.block.copy ≠ y.block.copy)
  ∧ (∀ (s : State) (n : Nat), s.mem.get? (inBase + n) = none →
      inByte s n = Config.freeByte s.copy s.epoch (inBase + n))
  ∧ (∀ (s : State) (n : Nat), s.status.busy = true ∨ s.outLen.toNat ≤ n →
      outByte s n = Config.freeByte s.copy s.draws (outBase + n))

/-! ### The codecs -/

/-- The encoder's state machine computes the closed form, for every symbol width and block length; its length is the
number of symbols, rounded up to whole blocks with padding (R80). In the engine's registers, at the widths of
10_state.md section 6, and whatever they held before, it computes the same for every input a command can have. -/
def Obligations.EncoderMatchesClosedForm : Prop :=
  ∀ (W B : Nat) (A input : List Byte) (pad : Bool), 0 < W → 0 < B →
    packEnc input A W B pad = groupEncode W B A input pad
    ∧ (packEnc input A W B pad).length =
      (if pad then B * (((8 * input.length + W - 1) / W + B - 1) / B) else (8 * input.length + W - 1) / W)
    ∧ (W ≤ 6 → input.length ≤ 65536 → ∀ w : Work, (w.packEnc input A W B pad).2 = packEnc input A W B pad)

/-- The decoder's state machine computes the closed form, for every symbol width, and a successful decode gives the closed
form of its digits, whatever the last bits are: `"MY"` and `"MZ"` decode alike (R82). In the engine's registers, at the
widths of 10_state.md section 6, and whatever they held before, it computes the same for every text a command can
have. -/
def Obligations.DecoderMatchesClosedForm : Prop :=
  (∀ (W : Nat) (digits : List Nat), 0 < W → unpackDigits W digits = groupDecode W digits)
  ∧ (∀ (W B : Nat) (s A out : List Byte) (pad ci : Bool), 0 < W → packDec s A W B pad ci = .ok out →
      ∃ digits, (if pad then stripPad s else s).map (lookup A ci) = digits.map some ∧ out = groupDecode W digits
        ∧ out.length = W * digits.length / 8)
  ∧ (∀ A, rom .base32 0 = some A → packDec (text "MY") A 5 8 false false = .ok [0x66]
      ∧ packDec (text "MZ") A 5 8 false false = .ok [0x66])
  ∧ (∀ (w : Work) (W B : Nat) (s A : List Byte) (pad ci : Bool), 0 < W → W ≤ 6 → s.length ≤ 65536 →
      (w.packDec s A W B pad ci).2 = packDec s A W B pad ci)

/-- Base-16: decoding the encoding of a byte sequence gives it back, under either alphabet and either lookup
(95_test_vectors.md S13; 41_base16.md). -/
def Obligations.Base16RoundTrip : Prop :=
  ∀ (alpha : Nat) (A : List Byte) (ci : Bool) (b : List Byte), rom .base16 alpha = some A →
    b16Decode A ci (b16Encode A b) = .ok b

/-- Base-32 and base-64: decoding the encoding of a byte sequence gives it back, under every alphabet, with either
padding policy and with CI = 0 (R86, R102). -/
def Obligations.GroupedRoundTrips : Prop :=
  (∀ (alpha : Nat) (A : List Byte) (pad : Bool) (b : List Byte), rom .base32 alpha = some A →
      packDec (packEnc b A 5 8 pad) A 5 8 pad false = .ok b)
  ∧ (∀ (alpha : Nat) (A : List Byte) (pad : Bool) (b : List Byte), rom .base64 alpha = some A →
      packDec (packEnc b A 6 4 pad) A 6 4 pad false = .ok b)

/-- Base-58: decoding the encoding of a byte sequence gives it back; leading zero bytes become leading zero-symbols; the
output lengths are `z + ceil(log58(v+1))` and `z + ceil(log256(v+1))`; and two texts that decode to the same bytes are
equal (43_base58.md R89). -/
def Obligations.Base58RoundTrip : Prop :=
  ∀ (alpha : Nat) (A : List Byte), rom .base58 alpha = some A →
    (∀ b, b58Decode A (b58Encode A b) = .ok b)
    ∧ (∀ k b, b58Encode A (List.replicate k 0 ++ b) = List.replicate k (symbol A 0) ++ b58Encode A b)
    ∧ (∀ b z, IsLeadingRun 0 b z →
        (b58Encode A b).length = z + Nat.clog 58 (weightedSum 256 (b.map BitVec.toNat) + 1))
    ∧ (∀ s b z digits, b58Decode A s = .ok b → IsLeadingRun (symbol A 0) s z →
        (s.drop z).map (lookup A false) = digits.map some →
        b.length = z + Nat.clog 256 (weightedSum 58 digits + 1))
    ∧ (∀ s s' b, b58Decode A s = .ok b → b58Decode A s' = .ok b → s = s')

/-- For every hash: verifying or removing the checksum that was added succeeds, and the checked base-58 forms are
inverse (R99). -/
def Obligations.ChecksumRoundTrips : Prop :=
  ∀ (hash : List Byte → Config.Digest) (p : List Byte),
    verifyChecksum hash (addChecksum hash p) = .ok [] ∧ removeChecksum (addChecksum hash p) = .ok p
    ∧ ∀ (alpha : Nat) (A : List Byte), rom .base58 alpha = some A →
        b58DecodeChecked hash A (b58EncodeChecked hash A p) = .ok p

/-- A number has exactly one digit sequence without a leading zero in a base of at least 2, and it is the one the radix
converter makes (R87, R88). The engine's divisions and multiplications in its big-integer work buffer, byte by byte and
whatever the buffer held before, give the same encoding and decoding; after a decoding the buffer holds no more bytes
than the text has characters (10_state.md section 6). -/
def Obligations.RadixDigitsAreTheNumeral : Prop :=
  (∀ (base v : Nat) (ds : List Nat), 2 ≤ base → (IsNumeral base v ds ↔ ds = toDigits base v))
  ∧ (∀ (w : Work) (A input : List Byte), (w.b58Encode A input).2 = b58Encode A input)
  ∧ (∀ (w : Work) (alpha : Nat) (A s : List Byte), rom .base58 alpha = some A →
      (w.b58Decode A s).2 = b58Decode A s
      ∧ ∀ out, b58Decode A s = .ok out → (w.b58Decode A s).1.bigInteger.length ≤ s.length)

/-- Every alphabet of the ROM has exactly its base's number of symbols, no symbol twice, no pad character, and the index of
a symbol is its digit (40_common.md R60); the ALPHA values that select one are those of the table (30_encoding.md R50);
and the symbols stand in the order of 40_common.md R61, where the rule marks every string but those of base-32 rfc4648
and base-58 bitcoin as general knowledge (log entry 11). -/
def Obligations.AlphabetsAreDistinctSymbols : Prop :=
  (∀ (f : Family) (alpha : Nat) (A : List Byte), rom f alpha = some A →
      A.Nodup ∧ padChar ∉ A
      ∧ A.length = (match f with | .base16 => 16 | .base32 => 32 | .base58 => 58 | .base64 => 64)
      ∧ ∀ d, d < A.length → lookup A false (symbol A d) = some d)
  ∧ (∀ (f : Family) (alpha : Nat), (rom f alpha).isSome = true ↔
      alpha < (match f with | .base16 => 2 | .base32 => 5 | .base58 => 3 | .base64 => 1))
  ∧ (rom .base16 0 = some (text "0123456789ABCDEF") ∧ rom .base16 1 = some (text "0123456789abcdef"))
  ∧ (rom .base32 0 = some (text "ABCDEFGHIJKLMNOPQRSTUVWXYZ234567")
    ∧ rom .base32 1 = some (text "ybndrfg8ejkmcpqxot1uwisza345h769")
    ∧ rom .base32 2 = some (text "0123456789bcdefghjkmnpqrstuvwxyz")
    ∧ rom .base32 3 = some (text "0123456789ABCDEFGHJKMNPQRSTVWXYZ")
    ∧ rom .base32 4 = some (text "0123456789ABCDEFGHIJKLMNOPQRSTUV"))
  ∧ (rom .base58 0 = some (text "123456789ABCDEFGHJKLMNPQRSTUVWXYZabcdefghijkmnopqrstuvwxyz")
    ∧ rom .base58 1 = some (text "rpshnaf39wBUDNEGHJKLM4PQRST7VWXYZ2bcdeCg65jkm8oFqi1tuvAxyz")
    ∧ rom .base58 2 = some (text "123456789abcdefghijkmnopqrstuvwxyzABCDEFGHJKLMNPQRSTUVWXYZ"))
  ∧ rom .base64 0 = some (text "ABCDEFGHIJKLMNOPQRSTUVWXYZabcdefghijklmnopqrstuvwxyz0123456789+/")

/-- Lookup in an alphabet of the ROM: with CI = 0 it finds `d` exactly for the symbol of digit `d`; with CI = 1, in a
base-16 or base-32 alphabet, exactly for that symbol and its other-case letter; `=` and every code of 0x80 or above is
never found (R64); with CI = 1 both base-16 alphabets find every character alike (R78). -/
def Obligations.LookupFindsExactlyTheSymbols : Prop :=
  (∀ (f : Family) (alpha : Nat) (A : List Byte) (c : Byte) (d : Nat), rom f alpha = some A →
      (lookup A false c = some d ↔ A[d]? = some c))
  ∧ (∀ (f : Family) (alpha : Nat) (A : List Byte) (c : Byte) (d : Nat), rom f alpha = some A →
      f = .base16 ∨ f = .base32 →
      (lookup A true c = some d ↔
        (A[d]? = some c ∨ (0x41 ≤ c.toNat ∧ c.toNat ≤ 0x5A ∧ A[d]? = some (c + 0x20))
          ∨ (0x61 ≤ c.toNat ∧ c.toNat ≤ 0x7A ∧ A[d]? = some (c - 0x20)))))
  ∧ (∀ (f : Family) (alpha : Nat) (A : List Byte) (ci : Bool) (c : Byte), rom f alpha = some A →
      (c = padChar ∨ 0x80 ≤ c.toNat) → lookup A ci c = none)
  ∧ (∀ (A A' : List Byte) (c : Byte), rom .base16 0 = some A → rom .base16 1 = some A' →
      lookup A true c = lookup A' true c)
end

