-- ==== Sys2Proof/Laws/Lookup.lean ====
section
/-! SUPPORT. Symbol lookup: what the index search, a lookup, and the lookup of a whole text find; the text before its
trailing pads. -/

namespace Sys2Proof.Machine

open Sys2Proof

theorem indexOf_some {A : List Byte} {c : Byte} {d : Nat} (h : indexOf A c = some d) : A[d]? = some c := by
  induction A generalizing d with
  | nil => simp [indexOf] at h
  | cons a rest ih =>
    simp only [indexOf] at h
    split at h
    · next heq =>
      obtain rfl := Option.some.inj h
      simp [heq]
    · obtain ⟨k, hk, rfl⟩ := Option.map_eq_some_iff.mp h
      simpa using ih hk

theorem indexOf_none_iff {A : List Byte} {c : Byte} : indexOf A c = none ↔ c ∉ A := by
  induction A with
  | nil => simp [indexOf]
  | cons a rest ih =>
    simp only [indexOf]
    split
    · next heq => simp [heq]
    · next hne =>
      simp only [Option.map_eq_none_iff, ih, List.mem_cons, not_or]
      exact ⟨fun h => ⟨fun hc => hne hc.symm, h⟩, fun h => h.2⟩

/-- Among distinct symbols the search finds exactly the symbol's place. -/
theorem indexOf_iff {A : List Byte} (hA : A.Nodup) {c : Byte} {d : Nat} : indexOf A c = some d ↔ A[d]? = some c := by
  refine ⟨indexOf_some, fun h => ?_⟩
  have hd := List.getElem?_eq_some_iff.mp h
  cases hi : indexOf A c with
  | none => exact absurd (List.mem_of_getElem? h) (indexOf_none_iff.mp hi)
  | some k =>
    have hk := List.getElem?_eq_some_iff.mp (indexOf_some hi)
    rw [(List.Nodup.getElem_inj_iff hA).mp (hk.2.trans hd.2.symm)]

@[simp] theorem lookup_strict (A : List Byte) (c : Byte) : lookup A false c = indexOf A c := by
  simp only [lookup]
  cases indexOf A c <;> simp

/-- The exact symbol is found first, whatever the case rule. -/
theorem lookup_exact {A : List Byte} {c : Byte} {d : Nat} (ci : Bool) (h : indexOf A c = some d) :
    lookup A ci c = some d := by
  simp [lookup, h]

theorem lookupAll_some_iff {A : List Byte} {ci : Bool} {s : List Byte} {ds : List Nat} :
    lookupAll A ci s = some ds ↔ s.map (lookup A ci) = ds.map some := by
  induction s generalizing ds with
  | nil => cases ds <;> simp [lookupAll]
  | cons c rest ih =>
    cases hc : lookup A ci c with
    | none => cases ds <;> simp [lookupAll, hc]
    | some d =>
      cases hr : lookupAll A ci rest with
      | none =>
        cases ds with
        | nil => simp [lookupAll, hc, hr]
        | cons d' ds' =>
          have : rest.map (lookup A ci) ≠ ds'.map some := fun h => by simp [ih.mpr h] at hr
          simp [lookupAll, hc, hr, this]
      | some rs =>
        cases ds with
        | nil => simp [lookupAll, hc, hr]
        | cons d' ds' =>
          have h1 := ih.mp hr
          simp only [lookupAll, hc, hr, Option.some.injEq, List.map_cons, List.cons.injEq, h1]
          rw [List.map_inj_right (fun _ _ => Option.some.inj)]

theorem lookupAll_none_iff {A : List Byte} {ci : Bool} {s : List Byte} :
    lookupAll A ci s = none ↔ ∃ c ∈ s, lookup A ci c = none := by
  induction s with
  | nil => simp [lookupAll]
  | cons c rest ih =>
    cases hc : lookup A ci c with
    | none => simp [lookupAll, hc]
    | some d =>
      cases hr : lookupAll A ci rest with
      | none => simpa [lookupAll, hc, hr] using ih.mp hr
      | some rs =>
        have := ih.not.mp (by simp [hr])
        simpa [lookupAll, hc, hr] using this

theorem length_of_lookupAll {A : List Byte} {ci : Bool} {s : List Byte} {ds : List Nat}
    (h : lookupAll A ci s = some ds) : ds.length = s.length := by
  simpa using (congrArg List.length (lookupAll_some_iff.mp h)).symm

theorem getElem?_symbol {A : List Byte} {d : Nat} (h : d < A.length) : A[d]? = some (symbol A d) := by
  simp [symbol, h]

/-- The symbols of digits read back as the digits. -/
theorem lookupAll_symbols {A : List Byte} (hA : A.Nodup) (ci : Bool) {ds : List Nat} (h : ∀ d ∈ ds, d < A.length) :
    lookupAll A ci (ds.map (symbol A)) = some ds := by
  rw [lookupAll_some_iff, List.map_map]
  apply List.map_congr_left
  intro d hd
  exact lookup_exact ci ((indexOf_iff hA).mpr (getElem?_symbol (h d hd)))

/-- Every digit that a strict lookup finds is a digit of the alphabet, and the text is the digits' symbols. -/
theorem symbols_of_lookupAll {A : List Byte} {s : List Byte} {ds : List Nat} (h : lookupAll A false s = some ds) :
    (∀ d ∈ ds, d < A.length) ∧ ds.map (symbol A) = s := by
  rw [lookupAll_some_iff] at h
  induction s generalizing ds with
  | nil => cases ds <;> simp at h ⊢
  | cons c rest ih =>
    cases ds with
    | nil => simp at h
    | cons d ds =>
      simp only [List.map_cons, List.cons.injEq, lookup_strict] at h
      obtain ⟨h1, h2⟩ := ih (ds := ds) (by simpa using h.2)
      have hd := indexOf_some h.1
      refine ⟨?_, ?_⟩
      · intro x hx
        rcases List.mem_cons.mp hx with rfl | hx
        · exact (List.getElem?_eq_some_iff.mp hd).1
        · exact h1 x hx
      · simp [h2, symbol, hd]

/-- The text before its trailing pads. -/
theorem stripPad_append {body : List Byte} (k : Nat) (h : body.getLast? ≠ some padChar) :
    stripPad (body ++ List.replicate k padChar) = body := by
  have hd : ∀ r : List Byte, r.head? ≠ some padChar →
      (List.replicate k padChar ++ r).dropWhile (fun c => c == padChar) = r := by
    intro r hr
    induction k with
    | zero =>
      cases r with
      | nil => rfl
      | cons x rest =>
        have : (x == padChar) = false := by simpa using hr
        simp [this]
    | succ k ih => simpa [List.replicate_succ, List.dropWhile_cons] using ih
  rw [stripPad, List.reverse_append, List.reverse_replicate, hd _ (by rwa [List.head?_reverse]), List.reverse_reverse]

end Sys2Proof.Machine
end

