-- ==== Sys2Proof/Laws/Radix.lean ====
section
/-! SUPPORT. The radix converter: its digits are Mathlib's, so a number and its digit sequence without a leading zero
determine each other; the sum of R87 is the converter's value; the run of leading elements. -/

namespace Sys2Proof.Machine

open Sys2Proof Safety

theorem ofDigits_append (base : Nat) (a b : List Nat) :
    ofDigits base (a ++ b) = ofDigits base a * base ^ b.length + ofDigits base b := by
  have go : ∀ (b : List Nat) (v : Nat),
      b.foldl (fun v d => v * base + d) v = v * base ^ b.length + ofDigits base b := by
    intro b
    induction b with
    | nil => simp [ofDigits]
    | cons x rest ih =>
      intro v
      simp only [ofDigits, List.foldl_cons, List.length_cons]
      rw [ih (v * base + x), ih (0 * base + x)]
      ring
  rw [ofDigits, List.foldl_append, go]
  rfl

/-- The converter reads digits as Mathlib does, in the other order. -/
theorem ofDigits_eq (base : Nat) (ds : List Nat) : ofDigits base ds = Nat.ofDigits base ds.reverse := by
  induction ds using List.reverseRecOn with
  | nil => rfl
  | append_singleton l d ih =>
    rw [ofDigits_append, ih, List.reverse_append, List.reverse_singleton, List.singleton_append, Nat.ofDigits_cons]
    simp [ofDigits]
    ring

/-- The division loop makes Mathlib's digits when the number is below `2 ^ fuel`. -/
theorem digitsLoop_eq {base : Nat} (hb : 2 ≤ base) (fuel v : Nat) (acc : List Nat) (h : v < 2 ^ fuel) :
    digitsLoop base fuel v acc = (Nat.digits base v).reverse ++ acc := by
  induction fuel generalizing v acc with
  | zero =>
    have : v = 0 := by simpa using h
    subst this
    simp [digitsLoop]
  | succ fuel ih =>
    by_cases hv : v = 0
    · subst hv
      simp [digitsLoop]
    · have hlt : v / base < 2 ^ fuel := by
        rw [pow_succ] at h
        exact (Nat.div_le_div_left hb (by decide)).trans_lt ((Nat.div_lt_iff_lt_mul (by decide)).mpr h)
      rw [digitsLoop, if_neg hv, ih _ _ hlt, Nat.digits_def' (b := base) (n := v) (by omega) (by omega)]
      simp

theorem toDigits_eq {base : Nat} (hb : 2 ≤ base) (v : Nat) : toDigits base v = (Nat.digits base v).reverse := by
  rw [toDigits, digitsLoop_eq hb _ _ _ Nat.lt_log2_self, List.append_nil]

theorem toDigits_lt {base v d : Nat} (hb : 2 ≤ base) (h : d ∈ toDigits base v) : d < base := by
  rw [toDigits_eq hb, List.mem_reverse] at h
  exact Nat.digits_lt_base hb h

theorem toDigits_head {base : Nat} (hb : 2 ≤ base) (v : Nat) : (toDigits base v).head? ≠ some 0 := by
  rw [toDigits_eq hb, List.head?_reverse]
  by_cases hv : v = 0
  · subst hv
    simp
  · have hne := Nat.digits_ne_nil_iff_ne_zero (b := base) |>.mpr hv
    rw [List.getLast?_eq_getLast_of_ne_nil hne]
    intro h
    exact Nat.getLast_digit_ne_zero base hv (Option.some.inj h)

theorem ofDigits_toDigits {base : Nat} (hb : 2 ≤ base) (v : Nat) : ofDigits base (toDigits base v) = v := by
  rw [ofDigits_eq, toDigits_eq hb, List.reverse_reverse, Nat.ofDigits_digits]

/-- Digits without a leading zero are the digits of their value. -/
theorem toDigits_ofDigits {base : Nat} (hb : 2 ≤ base) {ds : List Nat} (hs : ∀ d ∈ ds, d < base)
    (hh : ds.head? ≠ some 0) : toDigits base (ofDigits base ds) = ds := by
  rw [toDigits_eq hb, ofDigits_eq, Nat.digits_ofDigits base (by omega), List.reverse_reverse]
  · intro d hd
    exact hs d (List.mem_reverse.mp hd)
  · intro hne hz
    rw [List.getLast_reverse] at hz
    apply hh
    rw [List.head?_eq_some_head (by simpa using hne), hz]

/-- The sum of R87 is the converter's value. -/
theorem weightedSum_eq (base : Nat) (ds : List Nat) : weightedSum base ds = ofDigits base ds := by
  induction ds with
  | nil => rfl
  | cons d rest ih =>
    have : d :: rest = [d] ++ rest := rfl
    rw [this, ofDigits_append, ← ih]
    simp only [weightedSum, List.singleton_append, List.length_cons, List.range_succ_eq_map, List.map_cons,
      List.sum_cons, List.map_map, List.getD_cons_zero, Nat.add_sub_cancel, Nat.sub_zero]
    congr 1
    · simp [ofDigits]
    · congr 1
      apply List.map_congr_left
      intro i hi
      simp only [Function.comp, List.getD_cons_succ]
      congr 2
      omega

/-! ### Leading elements -/

/-- A sequence is its leading run and the rest. -/
theorem leadingCount_split (c : Byte) (s : List Byte) :
    s = List.replicate (leadingCount c s) c ++ s.drop (leadingCount c s) := by
  induction s with
  | nil => rfl
  | cons x rest ih =>
    by_cases h : x = c
    · subst h
      simp only [leadingCount, List.takeWhile_cons, beq_self_eq_true, if_true, List.length_cons,
        List.replicate_succ, List.cons_append, List.drop_succ_cons] at ih ⊢
      rw [← ih]
    · have : (x == c) = false := by simpa using h
      simp [leadingCount, this]

theorem head_drop_leadingCount (c : Byte) (s : List Byte) : (s.drop (leadingCount c s)).head? ≠ some c := by
  induction s with
  | nil => simp [leadingCount]
  | cons x rest ih =>
    by_cases h : x = c
    · subst h
      simpa [leadingCount, List.takeWhile_cons] using ih
    · have : (x == c) = false := by simpa using h
      simpa [leadingCount, List.takeWhile_cons, this] using h

/-- A run of `c` followed by something that does not begin with `c` has that run as its leading one. -/
theorem leadingCount_append {c : Byte} {r : List Byte} (k : Nat) (h : r.head? ≠ some c) :
    leadingCount c (List.replicate k c ++ r) = k := by
  induction k with
  | zero =>
    cases r with
    | nil => rfl
    | cons x rest =>
      have : (x == c) = false := by simpa using h
      simp [leadingCount, this]
  | succ k ih =>
    simpa [leadingCount, List.replicate_succ, List.takeWhile_cons] using ih

theorem isLeadingRun_iff {c : Byte} {s : List Byte} {z : Nat} : IsLeadingRun c s z ↔ z = leadingCount c s := by
  constructor
  · rintro ⟨hb, hr, hs⟩
    have hz : s.take z = List.replicate z c := by
      apply List.ext_getElem?
      intro i
      by_cases hi : i < z
      · rw [List.getElem?_take_of_lt hi, hr i hi]
        simp [hi]
      · rw [List.getElem?_eq_none (by simp; omega), List.getElem?_eq_none (by simp; omega)]
    have h := leadingCount_append (c := c) (r := s.drop z) z (by rw [List.head?_drop]; exact hs)
    rw [← hz, List.take_append_drop] at h
    exact h.symm
  · rintro rfl
    refine ⟨?_, ?_, ?_⟩
    · have := congrArg List.length (leadingCount_split c s)
      simp only [List.length_append, List.length_replicate, List.length_drop] at this
      omega
    · intro i hi
      rw [leadingCount_split c s, List.getElem?_append_left (by simpa using hi)]
      simp [hi]
    · rw [← List.head?_drop]
      exact head_drop_leadingCount c s

end Sys2Proof.Machine
end

