-- ==== Sys2Proof/Laws/Engine.lean ====
section
/-! SUPPORT. What the engine computes in its working state is what the rules' functions on natural numbers give: the
repackers' registers are wide enough, the work buffer's byte-by-byte division and multiplication are exact, and the
hash unit's two applications are the checksum. What an operation gives does not depend on what the working state held
before it. -/

namespace Sys2Proof.Machine

open Sys2Proof Safety

/-! ### The repackers' registers -/

/-- Bits shifted into an accumulator of fewer bits. -/
theorem shift_or_lt {acc bits cnt k : Nat} (ha : acc < 2 ^ cnt) (hb : bits < 2 ^ k) :
    (acc <<< k) ||| bits < 2 ^ (cnt + k) := by
  apply Nat.or_lt_two_pow
  · rw [Nat.shiftLeft_eq, pow_add]
    exact Nat.mul_lt_mul_of_pos_right ha (Nat.two_pow_pos k)
  · exact hb.trans_le (Nat.pow_le_pow_right (by decide) (Nat.le_add_left _ _))

theorem mask_lt (v k : Nat) : v &&& ((1 <<< k) - 1) < 2 ^ k := by
  rw [Nat.one_shiftLeft, Nat.and_two_pow_sub_one_eq_mod]
  exact Nat.mod_lt _ (Nat.two_pow_pos k)

/-- What the encoder's variables are between passes. -/
structure EncValues.InRange (W n : Nat) (v : EncValues) : Prop where
  position : v.inputBytePosition ≤ n
  offset : v.inputBitOffsetWithinByte < 8
  count : v.outputBitCount < W
  accumulator : v.outputSymbolAccumulator < 2 ^ v.outputBitCount

theorem EncValues.start_inRange {W : Nat} (n : Nat) (hW : 0 < W) : EncValues.start.InRange W n :=
  ⟨Nat.zero_le _, by decide, hW, by decide⟩

/-- Values in range fit the registers. -/
theorem EncValues.InRange.values_hold {W n : Nat} {v : EncValues} (h : v.InRange W n) (hW : W ≤ 6) (hn : n < 2 ^ 17) :
    (EncWork.hold v).values = v := by
  obtain ⟨pos, off, acc, cnt⟩ := v
  obtain ⟨h1, h2, h3, h4⟩ := h
  simp only at h1 h2 h3 h4
  have hacc : acc < 2 ^ 6 := h4.trans_le (Nat.pow_le_pow_right (by decide) (by omega))
  simp only [EncWork.hold, EncWork.values, BitVec.toNat_ofNat, EncValues.mk.injEq]
  exact ⟨Nat.mod_eq_of_lt (by omega), Nat.mod_eq_of_lt h2, Nat.mod_eq_of_lt hacc, Nat.mod_eq_of_lt (by omega)⟩

/-- A pass keeps the encoder's variables in range. -/
theorem encStep_inRange {W : Nat} {input : List Byte} {v : EncValues} (h : v.InRange W input.length)
    (hlt : v.inputBytePosition < input.length) : (encStep W input v).1.InRange W input.length := by
  obtain ⟨pos, off, acc, cnt⟩ := v
  obtain ⟨h1, h2, h3, h4⟩ := h
  simp only at h1 h2 h3 h4 hlt
  obtain ⟨k, hk⟩ : ∃ k, k = min (8 - off) (W - cnt) := ⟨_, rfl⟩
  have hp : (if off + k = 8 then pos + 1 else pos) ≤ input.length := by split <;> omega
  have ho : (if off + k = 8 then 0 else off + k) < 8 := by split <;> omega
  have ha := shift_or_lt h4 (mask_lt ((input.getD pos 0).toNat >>> (8 - off - k)) k)
  simp only [encStep, ← hk]
  by_cases hc : cnt + k = W
  · rw [if_pos hc]
    exact ⟨hp, ho, (by omega : 0 < W), Nat.one_pos⟩
  · rw [if_neg hc]
    exact ⟨hp, ho, (by omega : cnt + k < W), ha⟩

/-- The loop on the registers does what the loop on numbers does. -/
theorem encLoop_registers {W : Nat} (hW : W ≤ 6) (A input : List Byte) (hn : input.length < 2 ^ 17) (fuel : Nat)
    (e : EncWork) (out : List Byte) (h : e.values.InRange W input.length) :
    (encLoop EncWork.values EncWork.hold W A input fuel e out).1.values
        = (encLoop id id W A input fuel e.values out).1
      ∧ (encLoop EncWork.values EncWork.hold W A input fuel e out).2 = (encLoop id id W A input fuel e.values out).2 := by
  induction fuel generalizing e out with
  | zero => exact ⟨rfl, rfl⟩
  | succ fuel ih =>
    by_cases hlt : e.values.inputBytePosition < input.length
    · have hr := encStep_inRange h hlt
      have hv := hr.values_hold hW hn
      simp only [encLoop, id_eq, hlt, if_true]
      split <;> simp_all
    · simp [encLoop, hlt]

/-- The engine's encoder gives what R79 gives, for the symbol widths its registers are made for. -/
theorem work_packEnc_eq (w : Work) {W : Nat} (h0 : 0 < W) (hW : W ≤ 6) (B : Nat) (A input : List Byte) (pad : Bool)
    (hn : input.length < 2 ^ 17) : (w.packEnc input A W B pad).2 = packEnc input A W B pad := by
  obtain ⟨h1, h2⟩ := encLoop_registers hW A input hn (8 * input.length) EncWork.start [] (EncValues.start_inRange _ h0)
  have hs : EncWork.start.values = EncValues.start := rfl
  rw [hs] at h1 h2
  simp only [Work.packEnc, packEnc, h1, h2]

/-- What the decoder's variables are between passes. -/
structure DecValues.InRange (W n : Nat) (v : DecValues) : Prop where
  position : v.symbolPosition ≤ n
  offset : v.symbolBitOffset < W
  count : v.byteBitCount < 8
  accumulator : v.byteAccumulator < 2 ^ v.byteBitCount

theorem DecValues.start_inRange {W : Nat} (n : Nat) (hW : 0 < W) : DecValues.start.InRange W n :=
  ⟨Nat.zero_le _, hW, by decide, by decide⟩

/-- Values in range fit the registers. -/
theorem DecValues.InRange.values_hold {W n : Nat} {v : DecValues} (h : v.InRange W n) (hW : W ≤ 8) (hn : n < 2 ^ 17) :
    (DecWork.hold v).values = v := by
  obtain ⟨pos, off, acc, cnt⟩ := v
  obtain ⟨h1, h2, h3, h4⟩ := h
  simp only at h1 h2 h3 h4
  have hacc : acc < 2 ^ 8 := h4.trans_le (Nat.pow_le_pow_right (by decide) (by omega))
  simp only [DecWork.hold, DecWork.values, BitVec.toNat_ofNat, DecValues.mk.injEq]
  exact ⟨Nat.mod_eq_of_lt (by omega), Nat.mod_eq_of_lt (by omega), Nat.mod_eq_of_lt hacc, Nat.mod_eq_of_lt (by omega)⟩

/-- A pass keeps the decoder's variables in range. -/
theorem decStep_inRange {W : Nat} {digits : List Nat} {v : DecValues} (h : v.InRange W digits.length)
    (hlt : v.symbolPosition < digits.length) : (decStep W digits v).1.InRange W digits.length := by
  obtain ⟨pos, off, acc, cnt⟩ := v
  obtain ⟨h1, h2, h3, h4⟩ := h
  simp only at h1 h2 h3 h4 hlt
  obtain ⟨k, hk⟩ : ∃ k, k = min (W - off) (8 - cnt) := ⟨_, rfl⟩
  have hp : (if off + k = W then pos + 1 else pos) ≤ digits.length := by split <;> omega
  have ho : (if off + k = W then 0 else off + k) < W := by split <;> omega
  have ha := shift_or_lt h4 (mask_lt (digits.getD pos 0 >>> (W - off - k)) k)
  simp only [decStep, ← hk]
  by_cases hc : cnt + k = 8
  · rw [if_pos hc]
    exact ⟨hp, ho, Nat.succ_pos 7, Nat.one_pos⟩
  · rw [if_neg hc]
    exact ⟨hp, ho, (by omega : cnt + k < 8), ha⟩

/-- The loop on the registers emits what the loop on numbers emits. -/
theorem decLoop_registers {W : Nat} (hW : W ≤ 8) (digits : List Nat) (hn : digits.length < 2 ^ 17) (fuel : Nat)
    (e : DecWork) (out : List Byte) (h : e.values.InRange W digits.length) :
    (decLoop DecWork.values DecWork.hold W digits fuel e out).2 = (decLoop id id W digits fuel e.values out).2 := by
  induction fuel generalizing e out with
  | zero => rfl
  | succ fuel ih =>
    by_cases hlt : e.values.symbolPosition < digits.length
    · have hr := decStep_inRange h hlt
      have hv := hr.values_hold hW hn
      simp only [decLoop, id_eq, hlt, if_true]
      split <;> simp_all
    · simp [decLoop, hlt]

/-- The engine's decoder makes the bytes R81 makes, for the symbol widths its registers are made for. -/
theorem work_unpackDigits_eq (w : Work) {W : Nat} (h0 : 0 < W) (hW : W ≤ 8) (digits : List Nat)
    (hn : digits.length < 2 ^ 17) : (w.unpackDigits W digits).2 = unpackDigits W digits :=
  decLoop_registers hW digits hn (W * digits.length) DecWork.start [] (DecValues.start_inRange _ h0)

/-- A text has no more digits than characters. -/
theorem length_textDigits {s A : List Byte} {B : Nat} {pad ci : Bool} {digits : List Nat}
    (h : textDigits s A B pad ci = .ok digits) : digits.length ≤ s.length := by
  have hstrip : (stripPad s).length ≤ s.length := by
    rw [stripPad, List.length_reverse]
    exact (List.length_dropWhile_le _ _).trans (by simp)
  rw [textDigits] at h
  split at h
  · cases h
  · split at h
    · cases h
    · next ds hl =>
      cases h
      rw [length_of_lookupAll hl]
      split
      · exact hstrip
      · exact Nat.le_refl _

/-- The engine's decoder gives what R81 gives. -/
theorem work_packDec_eq (w : Work) {W : Nat} (h0 : 0 < W) (hW : W ≤ 8) (B : Nat) (s A : List Byte) (pad ci : Bool)
    (hn : s.length < 2 ^ 17) : (w.packDec s A W B pad ci).2 = packDec s A W B pad ci := by
  simp only [Work.packDec, packDec]
  cases h : textDigits s A B pad ci with
  | error e => rfl
  | ok digits =>
    have := work_unpackDigits_eq w h0 hW digits ((length_textDigits h).trans_lt hn)
    simp only [this]

/-! ### The work buffer -/

/-- The number a buffer holds, most significant byte first. -/
def bufferValue (buf : List Byte) : Nat := ofDigits 256 (buf.map BitVec.toNat)

theorem bufferValue_cons (b : Byte) (rest : List Byte) :
    bufferValue (b :: rest) = b.toNat * 256 ^ rest.length + bufferValue rest := by
  have h := ofDigits_append 256 [b.toNat] (rest.map BitVec.toNat)
  have h1 : ofDigits 256 [b.toNat] = b.toNat := by simp [ofDigits]
  rw [h1, List.length_map] at h
  exact h

theorem bufferValue_lt (buf : List Byte) : bufferValue buf < 256 ^ buf.length := by
  induction buf with
  | nil => decide
  | cons b rest ih =>
    have hb := b.isLt
    have : b.toNat * 256 ^ rest.length + 256 ^ rest.length ≤ 256 * 256 ^ rest.length := by
      rw [← Nat.succ_mul]
      exact Nat.mul_le_mul_right _ hb
    rw [bufferValue_cons, List.length_cons, pow_succ, Nat.mul_comm (256 ^ rest.length)]
    omega

/-- The bytes of a buffer that does not begin with a zero byte are the digits of its value in base 256. -/
theorem toDigits_bufferValue {buf : List Byte} (h : buf.head? ≠ some 0) :
    toDigits 256 (bufferValue buf) = buf.map BitVec.toNat := by
  refine toDigits_ofDigits (by decide) ?_ ?_
  · intro d hd
    obtain ⟨x, -, rfl⟩ := List.mem_map.mp hd
    exact x.isLt
  · cases buf with
    | nil => simp
    | cons x rest =>
      intro h'
      apply h
      have : x.toNat = 0 := by simpa using h'
      rw [List.head?_cons, BitVec.eq_of_toNat_eq (y := 0) this]

theorem trimZeros_cons (b : Byte) (rest : List Byte) :
    trimZeros (b :: rest) = if b = 0 then trimZeros rest else b :: rest := by
  by_cases h : b = 0 <;> simp [trimZeros, List.dropWhile_cons, h]

theorem bufferValue_trimZeros (buf : List Byte) : bufferValue (trimZeros buf) = bufferValue buf := by
  induction buf with
  | nil => rfl
  | cons b rest ih =>
    rw [trimZeros_cons]
    split
    · next h => rw [ih, bufferValue_cons, h]; simp
    · rfl

theorem head_trimZeros (buf : List Byte) : (trimZeros buf).head? ≠ some 0 := by
  induction buf with
  | nil => simp [trimZeros]
  | cons b rest ih =>
    rw [trimZeros_cons]
    split
    · exact ih
    · next h => simpa using h

/-- A buffer of value 0 without a leading zero byte is empty. -/
theorem bufferValue_eq_zero {buf : List Byte} (h : buf.head? ≠ some 0) : bufferValue buf = 0 ↔ buf = [] := by
  constructor
  · intro h0
    have hd := toDigits_bufferValue h
    rw [h0] at hd
    exact List.map_eq_nil_iff.mp hd.symm
  · rintro rfl
    rfl

/-- Long division is exact. -/
theorem divBytes_spec {m : Nat} (hm : 0 < m) (r : Nat) (buf : List Byte) (hr : r < m) :
    (divBytes m r buf).1.length = buf.length
      ∧ bufferValue (divBytes m r buf).1 = (r * 256 ^ buf.length + bufferValue buf) / m
      ∧ (divBytes m r buf).2 = (r * 256 ^ buf.length + bufferValue buf) % m := by
  induction buf generalizing r with
  | nil => simp [divBytes, bufferValue, ofDigits, Nat.div_eq_of_lt hr, Nat.mod_eq_of_lt hr]
  | cons b rest ih =>
    obtain ⟨v, hv⟩ : ∃ v, v = r * 256 + b.toNat := ⟨_, rfl⟩
    obtain ⟨i1, i2, i3⟩ := ih (v % m) (Nat.mod_lt _ hm)
    have hb := b.isLt
    have hq : v / m < 256 := by
      rw [Nat.div_lt_iff_lt_mul hm]
      have : r * 256 + 256 ≤ m * 256 := by
        rw [← Nat.succ_mul]
        exact Nat.mul_le_mul_right _ hr
      omega
    have hsum : r * 256 ^ (b :: rest).length + bufferValue (b :: rest)
        = m * (v / m * 256 ^ rest.length) + (v % m * 256 ^ rest.length + bufferValue rest) := by
      have hdm := Nat.div_add_mod v m
      rw [bufferValue_cons, List.length_cons, pow_succ]
      calc r * (256 ^ rest.length * 256) + (b.toNat * 256 ^ rest.length + bufferValue rest)
          = v * 256 ^ rest.length + bufferValue rest := by rw [hv]; ring
        _ = (m * (v / m) + v % m) * 256 ^ rest.length + bufferValue rest := by rw [hdm]
        _ = _ := by ring
    simp only [divBytes, ← hv]
    refine ⟨by simp [i1], ?_, ?_⟩
    · rw [bufferValue_cons, i1, i2, hsum, Nat.mul_add_div hm, BitVec.toNat_ofNat, Nat.mod_eq_of_lt hq]
    · rw [i3, hsum, Nat.mul_add_mod]

/-- The buffer's division loop makes the digits the division of its value makes, and leaves the buffer empty. -/
theorem divLoop_spec {m : Nat} (hm : 2 ≤ m) (fuel : Nat) (buf : List Byte) (acc : List Nat)
    (hh : buf.head? ≠ some 0) (hf : bufferValue buf < m ^ fuel) :
    divLoop m fuel buf acc = ([], toDigits m (bufferValue buf) ++ acc) := by
  induction fuel generalizing buf acc with
  | zero =>
    have h0 : bufferValue buf = 0 := by simpa using hf
    have := (bufferValue_eq_zero hh).mp h0
    subst this
    rfl
  | succ fuel ih =>
    cases buf with
    | nil => rfl
    | cons b rest =>
      obtain ⟨v, hv⟩ : ∃ v, v = bufferValue (b :: rest) := ⟨_, rfl⟩
      have hpos : v ≠ 0 := fun h0 => by simpa using (bufferValue_eq_zero hh).mp (hv ▸ h0)
      obtain ⟨-, h2, h3⟩ := divBytes_spec (m := m) (by omega) 0 (b :: rest) (by omega : 0 < m)
      rw [Nat.zero_mul, Nat.zero_add, ← hv] at h2 h3
      have hlt : bufferValue (trimZeros (divBytes m 0 (b :: rest)).1) < m ^ fuel := by
        rw [bufferValue_trimZeros, h2, Nat.div_lt_iff_lt_mul (by omega)]
        rw [hv]
        rwa [pow_succ] at hf
      have step : divLoop m (fuel + 1) (b :: rest) acc
          = divLoop m fuel (trimZeros (divBytes m 0 (b :: rest)).1) ((divBytes m 0 (b :: rest)).2 :: acc) := rfl
      rw [step, ih _ _ (head_trimZeros _) hlt, bufferValue_trimZeros, h2, h3, ← hv, toDigits_eq hm, toDigits_eq hm,
        Nat.digits_def' (by omega : 1 < m) (by omega : 0 < v)]
      simp

/-- The engine's base-58 encoder gives what R87 gives. -/
theorem work_b58Encode_eq (w : Work) (A input : List Byte) : (w.b58Encode A input).2 = b58Encode A input := by
  have hlt : bufferValue (trimZeros input) < 58 ^ (2 * (trimZeros input).length) := by
    rw [pow_mul]
    exact (bufferValue_lt _).trans_le (Nat.pow_le_pow_left (by decide) _)
  have h := divLoop_spec (m := 58) (by decide) _ (trimZeros input) [] (head_trimZeros _) hlt
  simp only [Work.b58Encode, h, List.append_nil, bufferValue_trimZeros]
  rfl

/-- Multiplying and adding a byte at a time is exact. -/
theorem mulAddBytes_spec (m d : Nat) (buf : List Byte) :
    (mulAddBytes m d buf).1.length = buf.length
      ∧ bufferValue buf * m + d = (mulAddBytes m d buf).2 * 256 ^ buf.length + bufferValue (mulAddBytes m d buf).1 := by
  induction buf with
  | nil => simp [mulAddBytes, bufferValue, ofDigits]
  | cons b rest ih =>
    obtain ⟨i1, i2⟩ := ih
    obtain ⟨v, hv⟩ : ∃ v, v = b.toNat * m + (mulAddBytes m d rest).2 := ⟨_, rfl⟩
    have step : mulAddBytes m d (b :: rest) = (BitVec.ofNat 8 v :: (mulAddBytes m d rest).1, v / 256) := by
      rw [hv]
      rfl
    rw [step]
    refine ⟨by simp [i1], ?_⟩
    have hdm := Nat.div_add_mod v 256
    rw [bufferValue_cons, bufferValue_cons, i1, BitVec.toNat_ofNat, List.length_cons, pow_succ]
    calc (b.toNat * 256 ^ rest.length + bufferValue rest) * m + d
        = b.toNat * m * 256 ^ rest.length + (bufferValue rest * m + d) := by ring
      _ = v * 256 ^ rest.length + bufferValue (mulAddBytes m d rest).1 := by rw [i2, hv]; ring
      _ = (256 * (v / 256) + v % 256) * 256 ^ rest.length + bufferValue (mulAddBytes m d rest).1 := by rw [hdm]
      _ = _ := by ring

theorem mulAddBytes_carry {m d : Nat} (hd : d < m) (buf : List Byte) : (mulAddBytes m d buf).2 < m := by
  induction buf with
  | nil => exact hd
  | cons b rest ih =>
    show (b.toNat * m + (mulAddBytes m d rest).2) / 256 < m
    rw [Nat.div_lt_iff_lt_mul (by decide)]
    have hb := b.isLt
    have : b.toNat * m + m ≤ 256 * m := by
      rw [← Nat.succ_mul]
      exact Nat.mul_le_mul_right _ hb
    omega

/-- Multiplying and adding on the growing buffer is exact, and makes no leading zero byte. -/
theorem mulAdd_spec {m d : Nat} (hm : m ≤ 256) (hd : d < m) {buf : List Byte} (hh : buf.head? ≠ some 0) :
    bufferValue (mulAdd m buf d) = bufferValue buf * m + d ∧ (mulAdd m buf d).head? ≠ some 0
      ∧ (mulAdd m buf d).length ≤ buf.length + 1 := by
  obtain ⟨h1, h2⟩ := mulAddBytes_spec m d buf
  have hc := mulAddBytes_carry hd buf
  obtain ⟨c, hcv⟩ : ∃ c, c = (mulAddBytes m d buf).2 := ⟨_, rfl⟩
  rw [← hcv] at h2 hc
  have hdef : mulAdd m buf d
      = if c = 0 then (mulAddBytes m d buf).1 else BitVec.ofNat 8 c :: (mulAddBytes m d buf).1 := by
    rw [hcv]
    rfl
  rw [hdef]
  by_cases h0 : c = 0
  · rw [if_pos h0]
    rw [h0, Nat.zero_mul, Nat.zero_add] at h2
    refine ⟨h2.symm, ?_, by omega⟩
    cases buf with
    | nil => simp [mulAddBytes]
    | cons b rest =>
      intro hz
      have hb : b.toNat ≠ 0 := fun hb => hh (by rw [List.head?_cons, BitVec.eq_of_toNat_eq (y := 0) hb])
      have hlow : (b.toNat * m + (mulAddBytes m d rest).2) / 256 = 0 := hcv.symm.trans h0
      have hhead : (BitVec.ofNat 8 (b.toNat * m + (mulAddBytes m d rest).2)) = 0 := Option.some.inj hz
      have hv := congrArg BitVec.toNat hhead
      rw [BitVec.toNat_ofNat, Nat.mod_eq_of_lt (by omega)] at hv
      have : 0 < b.toNat * m := Nat.mul_pos (by omega) (by omega)
      simp at hv
      omega
  · rw [if_neg h0]
    have ho : (BitVec.ofNat 8 c).toNat = c := by
      rw [BitVec.toNat_ofNat, Nat.mod_eq_of_lt (by omega)]
    refine ⟨by rw [bufferValue_cons, ho, h1, h2], ?_, by simp [h1]⟩
    intro hz
    have := congrArg BitVec.toNat (Option.some.inj hz)
    rw [ho] at this
    exact h0 this

/-- The work buffer after the digits of a text: their value, without a leading zero byte, in no more bytes than digits. -/
theorem foldl_mulAdd {m : Nat} (hm : m ≤ 256) {digits : List Nat} (h : ∀ d ∈ digits, d < m) (buf : List Byte)
    (hh : buf.head? ≠ some 0) :
    bufferValue (digits.foldl (mulAdd m) buf) = digits.foldl (fun v d => v * m + d) (bufferValue buf)
      ∧ (digits.foldl (mulAdd m) buf).head? ≠ some 0
      ∧ (digits.foldl (mulAdd m) buf).length ≤ buf.length + digits.length := by
  induction digits generalizing buf with
  | nil => exact ⟨rfl, hh, Nat.le_refl _⟩
  | cons d rest ih =>
    obtain ⟨h1, h2, h3⟩ := mulAdd_spec hm (h d (by simp)) hh
    obtain ⟨i1, i2, i3⟩ := ih (fun x hx => h x (by simp [hx])) _ h2
    refine ⟨?_, i2, ?_⟩
    · rw [List.foldl_cons, i1, h1, List.foldl_cons]
    · rw [List.foldl_cons, List.length_cons]
      omega

/-- The engine's base-58 decoder gives what R88 gives, under an alphabet of 58 symbols. -/
theorem work_b58Decode_eq (w : Work) {A : List Byte} (hA : A.length = 58) (s : List Byte) :
    (w.b58Decode A s).2 = b58Decode A s := by
  simp only [Work.b58Decode, b58Decode]
  cases h : lookupAll A false (s.drop (leadingCount (symbol A 0) s)) with
  | none => rfl
  | some digits =>
    have hd : ∀ d ∈ digits, d < 58 := fun d hx => hA ▸ (symbols_of_lookupAll h).1 d hx
    obtain ⟨h1, h2, -⟩ := foldl_mulAdd (m := 58) (by decide) hd [] (by simp)
    have h3 : toDigits 256 (ofDigits 58 digits) = (digits.foldl (mulAdd 58) []).map BitVec.toNat := by
      rw [← toDigits_bufferValue h2, h1]
      rfl
    have hid : (BitVec.ofNat 8 ∘ BitVec.toNat : Byte → Byte) = id := by
      funext x
      simp
    simp only [h3, List.map_map, hid, List.map_id]

/-! ### The hash unit -/

@[simp] theorem work_checksum_snd (w : Work) (hash : List Byte → Config.Digest) (p : List Byte) :
    (w.checksum hash p).2 = checksum hash p := rfl

@[simp] theorem work_addChecksum_snd (w : Work) (hash : List Byte → Config.Digest) (p : List Byte) :
    (w.addChecksum hash p).2 = addChecksum hash p := rfl

@[simp] theorem work_verifyChecksum_snd (w : Work) (hash : List Byte → Config.Digest) (b : List Byte) :
    (w.verifyChecksum hash b).2 = verifyChecksum hash b := by
  simp only [Work.verifyChecksum, verifyChecksum]
  split <;> rfl

/-- The engine's checked encoder gives what R97 gives. -/
theorem work_b58EncodeChecked_eq (w : Work) (hash : List Byte → Config.Digest) (A p : List Byte) :
    (w.b58EncodeChecked hash A p).2 = b58EncodeChecked hash A p :=
  work_b58Encode_eq _ _ _

/-- The engine's checked decoder gives what R98 gives. -/
theorem work_b58DecodeChecked_eq (w : Work) (hash : List Byte → Config.Digest) {A : List Byte} (hA : A.length = 58)
    (s : List Byte) : (w.b58DecodeChecked hash A s).2 = b58DecodeChecked hash A s := by
  have hd := work_b58Decode_eq w hA s
  simp only [Work.b58DecodeChecked, b58DecodeChecked, ← hd]
  obtain ⟨w1, r⟩ := w.b58Decode A s
  cases r with
  | error e => rfl
  | ok b =>
    have hv := work_verifyChecksum_snd w1 hash b
    simp only [← hv]
    obtain ⟨w2, r⟩ := w1.verifyChecksum hash b
    cases r <;> rfl

end Sys2Proof.Machine
end

