-- ==== Sys2Proof/Laws/Memory.lean ====
section
/-! SUPPORT. The laws of byte storage: a read after a write, a write leaves every other offset alone, a forgotten range
holds nothing, and every operation keeps the canonical form. -/

namespace Sys2Proof.Machine

open Sys2Proof

@[simp] theorem Memory.get?_nil (a : Nat) : Memory.get? [] a = none := rfl

theorem Memory.get?_set (m : Memory) (a b : Nat) (v : Byte) :
    (m.set a v).get? b = if a = b then some v else m.get? b := by
  induction m with
  | nil => simp [Memory.set, Memory.get?]
  | cons c rest ih =>
    obtain ⟨d, u⟩ := c
    simp only [Memory.set]
    split
    · simp [Memory.get?]
    · split
      · subst a
        by_cases h : d = b <;> simp [Memory.get?, h]
      · simp only [Memory.get?, ih]
        by_cases h : d = b
        · have : a ≠ b := by omega
          simp [h, this]
        · simp [h]

@[simp] theorem Memory.get?_set_same (m : Memory) (a : Nat) (v : Byte) : (m.set a v).get? a = some v := by
  simp [Memory.get?_set]

theorem Memory.get?_set_other (m : Memory) {a b : Nat} (v : Byte) (h : a ≠ b) : (m.set a v).get? b = m.get? b := by
  simp [Memory.get?_set, h]

/-- A read after storing a byte sequence: inside the sequence its byte, elsewhere what was there. -/
theorem Memory.get?_setBytes (vs : List Byte) (m : Memory) (a b : Nat) :
    (m.setBytes a vs).get? b = if a ≤ b ∧ b < a + vs.length then vs[b - a]? else m.get? b := by
  induction vs generalizing m a with
  | nil =>
    have : ¬ (a ≤ b ∧ b < a) := by omega
    simp [Memory.setBytes, this]
  | cons v rest ih =>
    simp only [Memory.setBytes, ih, Memory.get?_set, List.length_cons]
    by_cases hab : a = b
    · subst hab
      simp
    · by_cases h : a + 1 ≤ b ∧ b < a + 1 + rest.length
      · have h2 : a ≤ b ∧ b < a + (rest.length + 1) := by omega
        have h3 : b - a = (b - (a + 1)) + 1 := by omega
        simp [h, h2, h3]
      · have h2 : ¬ (a ≤ b ∧ b < a + (rest.length + 1)) := by omega
        rw [if_neg h, if_neg h2, if_neg hab]

/-- A read after a range became unspecified: nothing inside it, elsewhere what was there. -/
theorem Memory.get?_forget (m : Memory) (a n b : Nat) :
    (m.forget a n).get? b = if a ≤ b ∧ b < a + n then none else m.get? b := by
  induction m with
  | nil => simp [Memory.forget, Memory.get?]
  | cons c rest ih =>
    obtain ⟨d, u⟩ := c
    simp only [Memory.forget, List.filter_cons, Memory.get?] at ih ⊢
    by_cases hd : d < a ∨ a + n ≤ d
    · simp only [hd, decide_true, if_true, Memory.get?]
      by_cases h : d = b
      · have : ¬ (a ≤ b ∧ b < a + n) := by omega
        simp [h, this]
      · rw [if_neg h, if_neg h, ih]
    · simp only [hd, decide_false, Bool.false_eq_true, if_false]
      by_cases h : d = b
      · have : a ≤ b ∧ b < a + n := by omega
        simp only [ih, this, and_self, if_true]
      · rw [ih, if_neg h]

/-- The offsets after one store: the old ones and the one stored to. -/
theorem Memory.mem_set_offset {m : Memory} {a : Nat} {v : Byte} {c : Host.Cell} (h : c ∈ m.set a v) :
    c = (a, v) ∨ c ∈ m := by
  induction m with
  | nil => simpa [Memory.set] using h
  | cons d rest ih =>
    obtain ⟨b, u⟩ := d
    simp only [Memory.set] at h
    split at h
    · simpa using h
    · split at h
      · simp only [List.mem_cons] at h ⊢
        tauto
      · simp only [List.mem_cons] at h ⊢
        rcases h with h | h
        · tauto
        · rcases ih h with h | h <;> tauto

theorem Memory.wf_cons {c : Host.Cell} {m : Memory} : Memory.wf (c :: m) ↔ (∀ x ∈ m, c.1 < x.1) ∧ m.wf :=
  List.pairwise_cons

theorem Memory.wf_set {m : Memory} (a : Nat) (v : Byte) (h : m.wf) : (m.set a v).wf := by
  induction m with
  | nil => simp [Memory.set]
  | cons c rest ih =>
    obtain ⟨b, u⟩ := c
    rw [Memory.wf_cons] at h
    simp only [Memory.set]
    split
    · next hlt =>
      rw [Memory.wf_cons, Memory.wf_cons]
      refine ⟨fun x hx => ?_, h⟩
      rcases List.mem_cons.mp hx with rfl | hx
      · exact hlt
      · exact Nat.lt_trans hlt (h.1 x hx)
    · split
      · next heq =>
        subst heq
        exact Memory.wf_cons.mpr h
      · next hnlt hne =>
        refine Memory.wf_cons.mpr ⟨fun x hx => ?_, ih h.2⟩
        rcases Memory.mem_set_offset hx with rfl | hx
        · show b < a
          omega
        · exact h.1 x hx

theorem Memory.wf_setBytes (vs : List Byte) {m : Memory} (a : Nat) (h : m.wf) : (m.setBytes a vs).wf := by
  induction vs generalizing m a with
  | nil => exact h
  | cons v rest ih => exact ih _ (Memory.wf_set _ _ h)

theorem Memory.wf_forget {m : Memory} (a n : Nat) (h : m.wf) : (m.forget a n).wf := List.Pairwise.filter _ h

/-- The offsets after storing a byte sequence: the old ones and those stored to. -/
theorem Memory.mem_setBytes_offset (vs : List Byte) {m : Memory} {a : Nat} {c : Host.Cell}
    (h : c ∈ m.setBytes a vs) : (a ≤ c.1 ∧ c.1 < a + vs.length) ∨ c ∈ m := by
  induction vs generalizing m a with
  | nil => exact .inr h
  | cons v rest ih =>
    rcases ih h with h | h
    · left
      simp only [List.length_cons]
      omega
    · rcases Memory.mem_set_offset h with rfl | h
      · left
        simp
      · exact .inr h

theorem Memory.mem_forget {m : Memory} {a n : Nat} {c : Host.Cell} (h : c ∈ m.forget a n) : c ∈ m :=
  (List.mem_filter.mp h).1

/-- Two memories in canonical form that read alike at every offset are equal. -/
theorem Memory.ext_of_wf {m m' : Memory} (h : m.wf) (h' : m'.wf) (e : ∀ a, m.get? a = m'.get? a) : m = m' := by
  have out : ∀ {r : Memory} {a : Nat}, (∀ x ∈ r, a < x.1) → r.get? a = none := by
    intro r a hr
    induction r with
    | nil => rfl
    | cons c rest ih =>
      have h1 := hr c (by simp)
      have h2 : c.1 ≠ a := by omega
      simp [Memory.get?, h2, ih (fun x hx => hr x (by simp [hx]))]
  induction m generalizing m' with
  | nil =>
    cases m' with
    | nil => rfl
    | cons c rest => simpa [Memory.get?] using e c.1
  | cons c rest ih =>
    cases m' with
    | nil => simpa [Memory.get?] using e c.1
    | cons c' rest' =>
      obtain ⟨a, v⟩ := c
      obtain ⟨a', v'⟩ := c'
      rw [Memory.wf_cons] at h h'
      have hhead : a = a' := by
        rcases Nat.lt_trichotomy a a' with hlt | heq | hgt
        · have := e a
          rw [out (r := (a', v') :: rest') (fun x hx => ?_)] at this
          · simp [Memory.get?] at this
          · rcases List.mem_cons.mp hx with rfl | hx
            · exact hlt
            · exact Nat.lt_trans hlt (h'.1 x hx)
        · exact heq
        · have := e a'
          rw [out (r := (a, v) :: rest) (fun x hx => ?_)] at this
          · simp [Memory.get?] at this
          · rcases List.mem_cons.mp hx with rfl | hx
            · exact hgt
            · exact Nat.lt_trans hgt (h.1 x hx)
      subst hhead
      have hv : v = v' := by simpa [Memory.get?] using e a
      subst hv
      congr 1
      refine ih h.2 h'.2 (fun b => ?_)
      by_cases hb : a = b
      · subst hb
        rw [out (fun x hx => h.1 x hx), out (fun x hx => h'.1 x hx)]
      · simpa [Memory.get?, hb] using e b

end Sys2Proof.Machine
end

