-- ==== Sys2Proof/Laws/State.lean ====
section
/-! SUPPORT. One lemma per field and per update of State and Status: what the field is after the update. -/

namespace Sys2Proof.Machine

open Sys2Proof

/-! ### Flags -/

@[simp] theorem acceptFlags_busy (st : Status) : (acceptFlags st).busy = true := rfl
@[simp] theorem acceptFlags_done (st : Status) : (acceptFlags st).done = false := rfl
@[simp] theorem acceptFlags_ok (st : Status) : (acceptFlags st).ok = false := rfl
@[simp] theorem acceptFlags_err (st : Status) : (acceptFlags st).err = 0 := rfl
@[simp] theorem acceptFlags_ferr (st : Status) : (acceptFlags st).ferr = st.ferr := rfl
@[simp] theorem acceptFlags_ovr (st : Status) : (acceptFlags st).ovr = st.ovr := rfl

@[simp] theorem overrunFlags_busy (st : Status) : (overrunFlags st).busy = st.busy := rfl
@[simp] theorem overrunFlags_done (st : Status) : (overrunFlags st).done = st.done := rfl
@[simp] theorem overrunFlags_ok (st : Status) : (overrunFlags st).ok = st.ok := rfl
@[simp] theorem overrunFlags_err (st : Status) : (overrunFlags st).err = st.err := rfl
@[simp] theorem overrunFlags_ferr (st : Status) : (overrunFlags st).ferr = st.ferr := rfl
@[simp] theorem overrunFlags_ovr (st : Status) : (overrunFlags st).ovr = true := rfl

@[simp] theorem successFlags_busy (st : Status) : (successFlags st).busy = false := rfl
@[simp] theorem successFlags_done (st : Status) : (successFlags st).done = true := rfl
@[simp] theorem successFlags_ok (st : Status) : (successFlags st).ok = true := rfl
@[simp] theorem successFlags_err (st : Status) : (successFlags st).err = 0 := rfl
@[simp] theorem successFlags_ferr (st : Status) : (successFlags st).ferr = st.ferr := rfl
@[simp] theorem successFlags_ovr (st : Status) : (successFlags st).ovr = st.ovr := rfl

@[simp] theorem failureFlags_busy (t : Bool) (e : CmdError) (st : Status) : (failureFlags t e st).busy = false := rfl
@[simp] theorem failureFlags_done (t : Bool) (e : CmdError) (st : Status) : (failureFlags t e st).done = true := rfl
@[simp] theorem failureFlags_ok (t : Bool) (e : CmdError) (st : Status) : (failureFlags t e st).ok = false := rfl
@[simp] theorem failureFlags_err (t : Bool) (e : CmdError) (st : Status) : (failureFlags t e st).err = e.code := rfl
@[simp] theorem failureFlags_ferr (t : Bool) (e : CmdError) (st : Status) : (failureFlags t e st).ferr = (st.ferr || t) := rfl
@[simp] theorem failureFlags_ovr (t : Bool) (e : CmdError) (st : Status) : (failureFlags t e st).ovr = st.ovr := rfl

@[simp] theorem clearFlags_busy (w : Word) (st : Status) : (clearFlags w st).busy = st.busy := rfl
@[simp] theorem clearFlags_done (w : Word) (st : Status) : (clearFlags w st).done = (st.done && !w.getLsbD 1) := rfl
@[simp] theorem clearFlags_ok (w : Word) (st : Status) : (clearFlags w st).ok = st.ok := rfl
@[simp] theorem clearFlags_err (w : Word) (st : Status) : (clearFlags w st).err = st.err := rfl
@[simp] theorem clearFlags_ferr (w : Word) (st : Status) : (clearFlags w st).ferr = (st.ferr && !w.getLsbD 8) := rfl
@[simp] theorem clearFlags_ovr (w : Word) (st : Status) : (clearFlags w st).ovr = (st.ovr && !w.getLsbD 9) := rfl

/-! ### State -/

@[simp] theorem accept_cmd (w : Word) (s : State) : (accept w s).cmd = w := rfl
@[simp] theorem accept_status (w : Word) (s : State) : (accept w s).status = acceptFlags s.status := rfl
@[simp] theorem accept_inLen (w : Word) (s : State) : (accept w s).inLen = s.inLen := rfl
@[simp] theorem accept_outLen (w : Word) (s : State) : (accept w s).outLen = 0 := rfl
@[simp] theorem accept_irqEn (w : Word) (s : State) : (accept w s).irqEn = s.irqEn := rfl
@[simp] theorem accept_inCap (w : Word) (s : State) : (accept w s).inCap = s.inCap := rfl
@[simp] theorem accept_outCap (w : Word) (s : State) : (accept w s).outCap = s.outCap := rfl
@[simp] theorem accept_mem (w : Word) (s : State) : (accept w s).mem = s.mem := rfl
@[simp] theorem accept_work (w : Word) (s : State) : (accept w s).work = some Work.start := rfl
@[simp] theorem accept_program (w : Word) (s : State) : (accept w s).program = s.program := rfl
@[simp] theorem accept_turns (w : Word) (s : State) : (accept w s).turns = s.turns := rfl
@[simp] theorem accept_answer (w : Word) (s : State) : (accept w s).answer = s.answer := rfl
@[simp] theorem accept_draws (w : Word) (s : State) : (accept w s).draws = s.draws := rfl
@[simp] theorem accept_epoch (w : Word) (s : State) : (accept w s).epoch = s.epoch := rfl
@[simp] theorem accept_copy (w : Word) (s : State) : (accept w s).copy = s.copy := rfl

@[simp] theorem overrun_cmd (s : State) : (overrun s).cmd = s.cmd := rfl
@[simp] theorem overrun_status (s : State) : (overrun s).status = overrunFlags s.status := rfl
@[simp] theorem overrun_inLen (s : State) : (overrun s).inLen = s.inLen := rfl
@[simp] theorem overrun_outLen (s : State) : (overrun s).outLen = s.outLen := rfl
@[simp] theorem overrun_irqEn (s : State) : (overrun s).irqEn = s.irqEn := rfl
@[simp] theorem overrun_inCap (s : State) : (overrun s).inCap = s.inCap := rfl
@[simp] theorem overrun_outCap (s : State) : (overrun s).outCap = s.outCap := rfl
@[simp] theorem overrun_mem (s : State) : (overrun s).mem = s.mem := rfl
@[simp] theorem overrun_work (s : State) : (overrun s).work = s.work := rfl
@[simp] theorem overrun_program (s : State) : (overrun s).program = s.program := rfl
@[simp] theorem overrun_turns (s : State) : (overrun s).turns = s.turns := rfl
@[simp] theorem overrun_answer (s : State) : (overrun s).answer = s.answer := rfl
@[simp] theorem overrun_draws (s : State) : (overrun s).draws = s.draws := rfl
@[simp] theorem overrun_epoch (s : State) : (overrun s).epoch = s.epoch := rfl
@[simp] theorem overrun_copy (s : State) : (overrun s).copy = s.copy := rfl

@[simp] theorem succeed_cmd (out : List Byte) (s : State) : (succeed out s).cmd = s.cmd := rfl
@[simp] theorem succeed_status (out : List Byte) (s : State) : (succeed out s).status = successFlags s.status := rfl
@[simp] theorem succeed_inLen (out : List Byte) (s : State) : (succeed out s).inLen = s.inLen := rfl
@[simp] theorem succeed_outLen (out : List Byte) (s : State) : (succeed out s).outLen = BitVec.ofNat 32 out.length := rfl
@[simp] theorem succeed_irqEn (out : List Byte) (s : State) : (succeed out s).irqEn = s.irqEn := rfl
@[simp] theorem succeed_inCap (out : List Byte) (s : State) : (succeed out s).inCap = s.inCap := rfl
@[simp] theorem succeed_outCap (out : List Byte) (s : State) : (succeed out s).outCap = s.outCap := rfl
@[simp] theorem succeed_mem (out : List Byte) (s : State) : (succeed out s).mem = s.mem.setBytes outBase out := rfl
@[simp] theorem succeed_work (out : List Byte) (s : State) : (succeed out s).work = none := rfl
@[simp] theorem succeed_program (out : List Byte) (s : State) : (succeed out s).program = s.program := rfl
@[simp] theorem succeed_turns (out : List Byte) (s : State) : (succeed out s).turns = s.turns := rfl
@[simp] theorem succeed_answer (out : List Byte) (s : State) : (succeed out s).answer = s.answer := rfl
@[simp] theorem succeed_draws (out : List Byte) (s : State) : (succeed out s).draws = s.draws := rfl
@[simp] theorem succeed_epoch (out : List Byte) (s : State) : (succeed out s).epoch = s.epoch := rfl
@[simp] theorem succeed_copy (out : List Byte) (s : State) : (succeed out s).copy = s.copy := rfl

@[simp] theorem failWith_cmd (t : Bool) (e : CmdError) (s : State) : (failWith t e s).cmd = s.cmd := rfl
@[simp] theorem failWith_status (t : Bool) (e : CmdError) (s : State) : (failWith t e s).status = failureFlags t e s.status := rfl
@[simp] theorem failWith_inLen (t : Bool) (e : CmdError) (s : State) : (failWith t e s).inLen = s.inLen := rfl
@[simp] theorem failWith_outLen (t : Bool) (e : CmdError) (s : State) : (failWith t e s).outLen = 0 := rfl
@[simp] theorem failWith_irqEn (t : Bool) (e : CmdError) (s : State) : (failWith t e s).irqEn = s.irqEn := rfl
@[simp] theorem failWith_inCap (t : Bool) (e : CmdError) (s : State) : (failWith t e s).inCap = s.inCap := rfl
@[simp] theorem failWith_outCap (t : Bool) (e : CmdError) (s : State) : (failWith t e s).outCap = s.outCap := rfl
@[simp] theorem failWith_mem (t : Bool) (e : CmdError) (s : State) : (failWith t e s).mem = s.mem.forget outBase s.outCap.bytes := rfl
@[simp] theorem failWith_work (t : Bool) (e : CmdError) (s : State) : (failWith t e s).work = none := rfl
@[simp] theorem failWith_program (t : Bool) (e : CmdError) (s : State) : (failWith t e s).program = s.program := rfl
@[simp] theorem failWith_turns (t : Bool) (e : CmdError) (s : State) : (failWith t e s).turns = s.turns := rfl
@[simp] theorem failWith_answer (t : Bool) (e : CmdError) (s : State) : (failWith t e s).answer = s.answer := rfl
@[simp] theorem failWith_draws (t : Bool) (e : CmdError) (s : State) : (failWith t e s).draws = s.draws := rfl
@[simp] theorem failWith_epoch (t : Bool) (e : CmdError) (s : State) : (failWith t e s).epoch = s.epoch := rfl
@[simp] theorem failWith_copy (t : Bool) (e : CmdError) (s : State) : (failWith t e s).copy = s.copy := rfl

@[simp] theorem acknowledge_cmd (w : Word) (s : State) : (acknowledge w s).cmd = s.cmd := rfl
@[simp] theorem acknowledge_status (w : Word) (s : State) : (acknowledge w s).status = clearFlags w s.status := rfl
@[simp] theorem acknowledge_inLen (w : Word) (s : State) : (acknowledge w s).inLen = s.inLen := rfl
@[simp] theorem acknowledge_outLen (w : Word) (s : State) : (acknowledge w s).outLen = s.outLen := rfl
@[simp] theorem acknowledge_irqEn (w : Word) (s : State) : (acknowledge w s).irqEn = s.irqEn := rfl
@[simp] theorem acknowledge_inCap (w : Word) (s : State) : (acknowledge w s).inCap = s.inCap := rfl
@[simp] theorem acknowledge_outCap (w : Word) (s : State) : (acknowledge w s).outCap = s.outCap := rfl
@[simp] theorem acknowledge_mem (w : Word) (s : State) : (acknowledge w s).mem = s.mem := rfl
@[simp] theorem acknowledge_work (w : Word) (s : State) : (acknowledge w s).work = s.work := rfl
@[simp] theorem acknowledge_program (w : Word) (s : State) : (acknowledge w s).program = s.program := rfl
@[simp] theorem acknowledge_turns (w : Word) (s : State) : (acknowledge w s).turns = s.turns := rfl
@[simp] theorem acknowledge_answer (w : Word) (s : State) : (acknowledge w s).answer = s.answer := rfl
@[simp] theorem acknowledge_draws (w : Word) (s : State) : (acknowledge w s).draws = s.draws := rfl
@[simp] theorem acknowledge_epoch (w : Word) (s : State) : (acknowledge w s).epoch = s.epoch := rfl
@[simp] theorem acknowledge_copy (w : Word) (s : State) : (acknowledge w s).copy = s.copy := rfl

@[simp] theorem resetBlock_cmd (s : State) : (resetBlock s).cmd = 0 := rfl
@[simp] theorem resetBlock_status (s : State) : (resetBlock s).status = Status.reset := rfl
@[simp] theorem resetBlock_inLen (s : State) : (resetBlock s).inLen = 0 := rfl
@[simp] theorem resetBlock_outLen (s : State) : (resetBlock s).outLen = 0 := rfl
@[simp] theorem resetBlock_irqEn (s : State) : (resetBlock s).irqEn = { doneIe := false, ferrIe := false } := rfl
@[simp] theorem resetBlock_inCap (s : State) : (resetBlock s).inCap = s.inCap := rfl
@[simp] theorem resetBlock_outCap (s : State) : (resetBlock s).outCap = s.outCap := rfl
@[simp] theorem resetBlock_mem (s : State) : (resetBlock s).mem = [] := rfl
@[simp] theorem resetBlock_work (s : State) : (resetBlock s).work = none := rfl
@[simp] theorem resetBlock_program (s : State) : (resetBlock s).program = s.program := rfl
@[simp] theorem resetBlock_turns (s : State) : (resetBlock s).turns = s.turns := rfl
@[simp] theorem resetBlock_answer (s : State) : (resetBlock s).answer = s.answer := rfl
@[simp] theorem resetBlock_draws (s : State) : (resetBlock s).draws = s.draws + 1 := rfl
@[simp] theorem resetBlock_epoch (s : State) : (resetBlock s).epoch = s.draws + 1 := rfl
@[simp] theorem resetBlock_copy (s : State) : (resetBlock s).copy = s.copy := rfl

@[simp] theorem respond_cmd (a : Answer) (s : State) : (respond a s).cmd = s.cmd := rfl
@[simp] theorem respond_status (a : Answer) (s : State) : (respond a s).status = s.status := rfl
@[simp] theorem respond_inLen (a : Answer) (s : State) : (respond a s).inLen = s.inLen := rfl
@[simp] theorem respond_outLen (a : Answer) (s : State) : (respond a s).outLen = s.outLen := rfl
@[simp] theorem respond_irqEn (a : Answer) (s : State) : (respond a s).irqEn = s.irqEn := rfl
@[simp] theorem respond_inCap (a : Answer) (s : State) : (respond a s).inCap = s.inCap := rfl
@[simp] theorem respond_outCap (a : Answer) (s : State) : (respond a s).outCap = s.outCap := rfl
@[simp] theorem respond_mem (a : Answer) (s : State) : (respond a s).mem = s.mem := rfl
@[simp] theorem respond_work (a : Answer) (s : State) : (respond a s).work = s.work := rfl
@[simp] theorem respond_program (a : Answer) (s : State) : (respond a s).program = s.program := rfl
@[simp] theorem respond_turns (a : Answer) (s : State) : (respond a s).turns = s.turns := rfl
@[simp] theorem respond_answer (a : Answer) (s : State) : (respond a s).answer = some a := rfl
@[simp] theorem respond_draws (a : Answer) (s : State) : (respond a s).draws = s.draws + 1 := rfl
@[simp] theorem respond_epoch (a : Answer) (s : State) : (respond a s).epoch = s.epoch := rfl
@[simp] theorem respond_copy (a : Answer) (s : State) : (respond a s).copy = s.copy := rfl

end Sys2Proof.Machine
end

