-- ==== Sys2Proof/Laws/Ops.lean ====
section
/-! SUPPORT. For each shared operation, once, everything it can do: the checks around a command's operation, the complete
step, every command, a bus transaction, and a step. -/

namespace Sys2Proof.Machine

open Sys2Proof Safety

theorem capacity_pos (c : Config.Capacity) : 0 < c.bytes := Nat.succ_pos _

theorem capacity_le (c : Config.Capacity) : c.bytes ≤ 65536 := by
  have := c.pred.isLt
  simp only [Config.Capacity.bytes]
  omega

@[simp] theorem length_inputBytes (s : State) : (inputBytes s).length = s.inLen.toNat := by simp [inputBytes]

theorem getElem?_inputBytes (s : State) {i : Nat} (h : i < s.inLen.toNat) : (inputBytes s)[i]? = some (inByte s i) := by
  simp [inputBytes, h]

/-! ### The checks around an operation -/

theorem executeOver_ok_iff {s : State} {op : List Byte → Except CmdError (List Byte)} {out : List Byte} :
    executeOver s op = .ok out ↔
      s.inLen.toNat ≤ s.inCap.bytes ∧ op (inputBytes s) = .ok out ∧ out.length ≤ s.outCap.bytes := by
  by_cases h : s.inCap.bytes < s.inLen.toNat
  · simp [executeOver, fetchInput, h]
  · cases ho : op (inputBytes s) with
    | error e => simp [executeOver, fetchInput, h, ho]
    | ok o =>
      by_cases hf : s.outCap.bytes < o.length
      · simp only [executeOver, fetchInput, h, if_false, ho, fitOutput, hf, if_true, reduceCtorEq, false_iff, not_and,
          Except.ok.injEq]
        rintro - rfl
        omega
      · simp only [executeOver, fetchInput, h, if_false, ho, fitOutput, hf, Except.ok.injEq]
        constructor
        · rintro rfl
          exact ⟨by omega, rfl, by omega⟩
        · rintro ⟨-, rfl, -⟩
          rfl

/-- An operation's own failure is the command's, when the input fits. -/
theorem executeOver_error {s : State} {op : List Byte → Except CmdError (List Byte)} {e : CmdError}
    (hin : s.inLen.toNat ≤ s.inCap.bytes) (h : op (inputBytes s) = .error e) : executeOver s op = .error e := by
  have : ¬ s.inCap.bytes < s.inLen.toNat := by omega
  simp [executeOver, fetchInput, this, h]

/-- An input that does not fit fails with CAPACITY, whatever the operation. -/
theorem executeOver_long_input {s : State} {op : List Byte → Except CmdError (List Byte)}
    (h : s.inCap.bytes < s.inLen.toNat) : executeOver s op = .error .capacity := by
  simp [executeOver, fetchInput, h]

/-- An output that does not fit fails with CAPACITY. -/
theorem executeOver_long_output {s : State} {op : List Byte → Except CmdError (List Byte)} {out : List Byte}
    (hin : s.inLen.toNat ≤ s.inCap.bytes) (h : op (inputBytes s) = .ok out) (hout : s.outCap.bytes < out.length) :
    executeOver s op = .error .capacity := by
  have : ¬ s.inCap.bytes < s.inLen.toNat := by omega
  simp [executeOver, fetchInput, this, h, fitOutput, hout]

theorem executeCodec_legal {f : Family} {cfg : FormatConfig} {s : State} {A : List Byte}
    {op : List Byte → List Byte → Except CmdError (List Byte)} (h : rom f cfg.alpha = some A) :
    executeCodec f cfg s op = executeOver s (op A) := by
  simp [executeCodec, h]

theorem executeCodec_illegal {f : Family} {cfg : FormatConfig} {s : State}
    {op : List Byte → List Byte → Except CmdError (List Byte)} (h : rom f cfg.alpha = none) :
    executeCodec f cfg s op = .error .unsupportedConfig := by
  simp [executeCodec, h]

/-! ### The complete step -/

/-- A successful complete step is what R68 says of it. -/
theorem completesOk_succeed {s : State} {out : List Byte} (h : out.length ≤ s.outCap.bytes) :
    CompletesOk s (succeed out s) out where
  fits := h
  registers := rfl
  stored j hj := by
    simp only [succeed_mem, Memory.get?_setBytes]
    rw [if_pos ⟨Nat.le_add_right _ _, Nat.add_lt_add_left hj _⟩, Nat.add_sub_cancel_left]
  otherBytes a ha := by
    simp only [succeed_mem, Memory.get?_setBytes]
    rw [if_neg (by omega)]

/-- A failed complete step is what R68 and R108 say of it. -/
theorem completesErr_failWith (t : Bool) (e : CmdError) (s : State) : CompletesErr s (failWith t e s) t e where
  registers := rfl
  unspecified j hj := by
    simp only [failWith_mem, Memory.get?_forget]
    rw [if_pos ⟨Nat.le_add_right _ _, Nat.add_lt_add_left hj _⟩]
  otherBytes a ha := by
    simp only [failWith_mem, Memory.get?_forget]
    rw [if_neg (by omega)]

/-- The result of a command, before the complete step writes it. -/
def result (i : Instr) (s : State) : Except CmdError (List Byte) :=
  match i with
  | .b16enc _ c => executeCodec .base16 c s (fun A input => .ok (b16Encode A input))
  | .b16dec _ c => executeCodec .base16 c s (fun A input => b16Decode A c.ci input)
  | .b32enc _ c => executeCodec .base32 c s (fun A input => .ok (packEnc input A 5 8 c.pad))
  | .b32dec _ c => executeCodec .base32 c s (fun A input => packDec input A 5 8 c.pad c.ci)
  | .b58enc _ c => executeCodec .base58 c s (fun A input => .ok (b58Encode A input))
  | .b58dec _ c => executeCodec .base58 c s (fun A input => b58Decode A input)
  | .b64enc _ c => executeCodec .base64 c s (fun A input => .ok (packEnc input A 6 4 c.pad))
  | .b64dec _ c => executeCodec .base64 c s (fun A input => packDec input A 6 4 c.pad false)
  | .chkadd _ _ => executeOver s (fun input => .ok (addChecksum Config.hash input))
  | .chkver _ _ => executeOver s (fun input => verifyChecksum Config.hash input)
  | .chkrem _ _ => executeOver s (fun input => removeChecksum input)
  | .b58encc _ c => executeCodec .base58 c s (fun A input => .ok (b58EncodeChecked Config.hash A input))
  | .b58decc _ c => executeCodec .base58 c s (fun A input => b58DecodeChecked Config.hash A input)

/-- Two operations that agree on every input that can fit IN_BUF give the same. -/
theorem executeOver_congr {s : State} {op op' : List Byte → Except CmdError (List Byte)}
    (h : ∀ input : List Byte, input.length < 2 ^ 17 → op input = op' input) : executeOver s op = executeOver s op' := by
  by_cases hin : s.inCap.bytes < s.inLen.toNat
  · rw [executeOver_long_input hin, executeOver_long_input hin]
  · have := capacity_le s.inCap
    have hlen : (inputBytes s).length < 2 ^ 17 := by
      rw [length_inputBytes]
      omega
    simp only [executeOver, fetchInput, hin, if_false, h _ hlen]

theorem executeCodec_congr {f : Family} {cfg : FormatConfig} {s : State}
    {op op' : List Byte → List Byte → Except CmdError (List Byte)}
    (h : ∀ A, rom f cfg.alpha = some A → ∀ input : List Byte, input.length < 2 ^ 17 → op A input = op' A input) :
    executeCodec f cfg s op = executeCodec f cfg s op' := by
  cases hr : rom f cfg.alpha with
  | none => rw [executeCodec_illegal hr, executeCodec_illegal hr]
  | some A => rw [executeCodec_legal hr, executeCodec_legal hr, executeOver_congr (h A hr)]

theorem length_base58 {a : Nat} {A : List Byte} (h : rom .base58 a = some A) : A.length = 58 := by
  have : ∀ A ∈ base58Rom, A.length = 58 := by decide
  exact this A (List.mem_of_getElem? h)

/-- Every command is the complete step with its result: what the engine computes in its working state is what the
operation's function gives. -/
theorem exec_eq (i : Instr) (s : State) : exec i s = .next (complete i.throwing (result i s) s) := by
  have next : ∀ {t : Bool} {r r' : Except CmdError (List Byte)}, r = r' →
      (Host.Outcome.next (complete t r s) : Host.Outcome State Fault Refusal) = .next (complete t r' s) := by
    rintro t r r' rfl
    rfl
  cases i with
  | b16enc | b16dec | chkrem => rfl
  | b32enc _ c =>
    exact next <| executeCodec_congr fun A _ input hn =>
      congrArg Except.ok (work_packEnc_eq (engineWork s) (by decide) (by decide) 8 A input c.pad hn)
  | b64enc _ c =>
    exact next <| executeCodec_congr fun A _ input hn =>
      congrArg Except.ok (work_packEnc_eq (engineWork s) (by decide) (by decide) 4 A input c.pad hn)
  | b32dec _ c =>
    exact next <| executeCodec_congr fun A _ input hn =>
      work_packDec_eq (engineWork s) (by decide) (by decide) 8 input A c.pad c.ci hn
  | b64dec _ c =>
    exact next <| executeCodec_congr fun A _ input hn =>
      work_packDec_eq (engineWork s) (by decide) (by decide) 4 input A c.pad false hn
  | b58enc =>
    exact next <| executeCodec_congr fun A _ input _ => congrArg Except.ok (work_b58Encode_eq (engineWork s) A input)
  | b58dec => exact next <| executeCodec_congr fun A hA input _ => work_b58Decode_eq (engineWork s) (length_base58 hA) input
  | chkadd => exact next <| executeOver_congr fun input _ => congrArg Except.ok (work_addChecksum_snd (engineWork s) _ input)
  | chkver => exact next <| executeOver_congr fun input _ => work_verifyChecksum_snd (engineWork s) _ input
  | b58encc =>
    exact next <| executeCodec_congr fun A _ input _ => congrArg Except.ok (work_b58EncodeChecked_eq (engineWork s) _ A input)
  | b58decc =>
    exact next <| executeCodec_congr fun A hA input _ =>
      work_b58DecodeChecked_eq (engineWork s) _ (length_base58 hA) input

/-- A command's output fits OUT_BUF. -/
theorem result_fits {i : Instr} {s : State} {out : List Byte} (h : result i s = .ok out) :
    out.length ≤ s.outCap.bytes := by
  have codec : ∀ {f c op}, executeCodec f c s op = .ok out → out.length ≤ s.outCap.bytes := by
    intro f c op h
    cases hr : rom f c.alpha with
    | none => simp [executeCodec_illegal hr] at h
    | some A =>
      rw [executeCodec_legal hr] at h
      exact (executeOver_ok_iff.mp h).2.2
  cases i <;> simp only [result] at h
  case chkadd => exact (executeOver_ok_iff.mp h).2.2
  case chkver => exact (executeOver_ok_iff.mp h).2.2
  case chkrem => exact (executeOver_ok_iff.mp h).2.2
  all_goals exact codec h

/-- Everything a command can do: succeed with an output that fits, or fail with one cause. -/
theorem exec_cases (i : Instr) (s : State) :
    (∃ out, result i s = .ok out ∧ exec i s = .next (succeed out s) ∧ out.length ≤ s.outCap.bytes)
    ∨ (∃ e, result i s = .error e ∧ exec i s = .next (failWith i.throwing e s)) := by
  rw [exec_eq]
  cases h : result i s with
  | ok out => exact .inl ⟨out, rfl, rfl, result_fits h⟩
  | error e => exact .inr ⟨e, rfl, rfl⟩

/-- A command whose result is an output succeeds with it. -/
theorem succeeds_of_result {i : Instr} {s : State} {out : List Byte} (h : result i s = .ok out) : Succeeds i s out :=
  ⟨succeed out s, by rw [exec_eq, h]; rfl, completesOk_succeed (result_fits h)⟩

/-- A command whose result is a cause fails with it. -/
theorem fails_of_result {i : Instr} {s : State} {e : CmdError} (h : result i s = .error e) : Fails i s e :=
  ⟨failWith i.throwing e s, by rw [exec_eq, h]; rfl, completesErr_failWith _ _ _⟩

/-! ### The bus -/

theorem target_reg {s : State} {off : Offset} (h : off.toNat < 0x20) :
    target s off .b4 = (regAt off.toNat).map .reg := by simp [target, h]

theorem target_narrow_reg {s : State} {off : Offset} {size : Size} (h : off.toNat < 0x20) (hs : size ≠ .b4) :
    target s off size = none := by
  cases size <;> simp_all [target]

/-- Everything an access can reach. -/
theorem target_cases (s : State) (off : Offset) (size : Size) :
    (off.toNat < 0x20 ∧ size = .b4 ∧ target s off size = (regAt off.toNat).map .reg)
    ∨ (off.toNat < 0x20 ∧ size ≠ .b4 ∧ target s off size = none)
    ∨ (inBase ≤ off.toNat ∧ off.toNat + size.bytes ≤ inBase + s.inCap.bytes ∧ off.toNat % size.bytes = 0
        ∧ target s off size = some (.inBuf (off.toNat - inBase)))
    ∨ (outBase ≤ off.toNat ∧ off.toNat + size.bytes ≤ outBase + s.outCap.bytes ∧ off.toNat % size.bytes = 0
        ∧ target s off size = some (.outBuf (off.toNat - outBase)))
    ∨ (0x20 ≤ off.toNat
        ∧ ¬ (inBase ≤ off.toNat ∧ off.toNat + size.bytes ≤ inBase + s.inCap.bytes ∧ off.toNat % size.bytes = 0)
        ∧ ¬ (outBase ≤ off.toNat ∧ off.toNat + size.bytes ≤ outBase + s.outCap.bytes ∧ off.toNat % size.bytes = 0)
        ∧ target s off size = none) := by
  by_cases h : off.toNat < 0x20
  · by_cases hs : size = .b4
    · subst hs
      exact .inl ⟨h, rfl, target_reg h⟩
    · exact .inr (.inl ⟨h, hs, target_narrow_reg h hs⟩)
  · by_cases hi : inBase ≤ off.toNat ∧ off.toNat + size.bytes ≤ inBase + s.inCap.bytes ∧ off.toNat % size.bytes = 0
    · exact .inr (.inr (.inl ⟨hi.1, hi.2.1, hi.2.2, by simp [target, h, inBuffer, hi]⟩))
    · by_cases ho : outBase ≤ off.toNat ∧ off.toNat + size.bytes ≤ outBase + s.outCap.bytes
          ∧ off.toNat % size.bytes = 0
      · refine .inr (.inr (.inr (.inl ⟨ho.1, ho.2.1, ho.2.2, ?_⟩)))
        simp only [target, h, if_false, inBuffer, decide_eq_true_eq]
        rw [if_neg hi, if_pos ho]
      · refine .inr (.inr (.inr (.inr ⟨by omega, hi, ho, ?_⟩)))
        simp only [target, h, if_false, inBuffer, decide_eq_true_eq]
        rw [if_neg hi, if_neg ho]

/-- A register write that is answered OKAY does one of these. -/
theorem writeReg_cases {r : Reg} {v : Word} {s s' : State} (h : writeReg r v s = some s') :
    (r = .cmd ∧ s.status.busy = false ∧ s' = accept v s)
    ∨ (r = .cmd ∧ s.status.busy = true ∧ s' = overrun s)
    ∨ (r = .status ∧ s' = acknowledge v s)
    ∨ (r = .inLen ∧ s.status.busy = false ∧ s' = { s with inLen := v })
    ∨ (r = .irqEn ∧ s' = { s with irqEn := irqEnOf v })
    ∨ (r = .ctrl ∧ v.getLsbD 0 = true ∧ s' = resetBlock s)
    ∨ s' = s := by
  cases r <;> simp only [writeReg, Option.some.injEq] at h
  case cmd => cases hb : s.status.busy <;> simp_all
  case inLen => cases hb : s.status.busy <;> simp_all
  case ctrl => cases hb : v.getLsbD 0 <;> simp_all
  all_goals simp_all

/-- A write transaction that is answered OKAY writes a register, or stores to IN_BUF while no command runs. -/
theorem busWrite_cases {off : Offset} {size : Size} {v : Word} {s s' : State} (h : busWrite off size v s = some s') :
    (∃ r, off.toNat < 0x20 ∧ size = .b4 ∧ regAt off.toNat = some r ∧ writeReg r v s = some s')
    ∨ (inBase ≤ off.toNat ∧ off.toNat + size.bytes ≤ inBase + s.inCap.bytes ∧ off.toNat % size.bytes = 0
        ∧ s.status.busy = false
        ∧ s' = { s with mem := s.mem.setBytes off.toNat (splitBytes size.bytes v) }) := by
  rcases target_cases s off size with ⟨h1, h2, h3⟩ | ⟨h1, h2, h3⟩ | ⟨h1, h2, h4, h3⟩ | ⟨h1, h2, h4, h3⟩ | ⟨h1, h2, h4, h3⟩
  · left
    cases hr : regAt off.toNat with
    | none => simp [busWrite, h3, hr] at h
    | some r => exact ⟨r, h1, h2, rfl, by simpa [busWrite, h3, hr] using h⟩
  · simp [busWrite, h3] at h
  · right
    have hb : inBase + (off.toNat - inBase) = off.toNat := by omega
    cases hbusy : s.status.busy with
    | true => simp [busWrite, h3, hbusy] at h
    | false =>
      simp only [busWrite, h3, hbusy, Bool.false_eq_true, if_false, Option.some.injEq, hb] at h
      exact ⟨h1, h2, h4, rfl, h.symm⟩
  · simp [busWrite, h3] at h
  · simp [busWrite, h3] at h

/-- A read transaction is an answer and nothing else. -/
theorem transact_read (off : Offset) (size : Size) (s : State) :
    ∃ a, transact (.read off size) s = respond a s := by
  cases h : busRead off size s <;> simp only [transact, h] <;> exact ⟨_, rfl⟩

/-- A transaction is an answer after a write that was performed, or an answer and nothing else. -/
theorem transact_cases (t : Txn) (s : State) :
    (∃ a, transact t s = respond a s)
    ∨ (∃ off size v s', t = .write off size v ∧ busWrite off size v s = some s' ∧ transact t s = respond .okWrite s') := by
  cases t with
  | read off size => exact .inl (transact_read off size s)
  | write off size v =>
    cases h : busWrite off size v s with
    | none => exact .inl ⟨.busErr off, by simp [transact, h]⟩
    | some s' => exact .inr ⟨off, size, v, s', rfl, h, by simp [transact, h]⟩

/-- The host's turn performs its next operation, or nothing when there is none. -/
theorem hostTurn_cases (s : State) :
    hostTurn s = s
    ∨ (∃ t rest, s.program = .txn t :: rest ∧ hostTurn s = transact t { s with program := rest })
    ∨ (∃ a p, hostTurn s = { respond a s with program := p }) := by
  cases hp : s.program with
  | nil => exact .inl (by simp [hostTurn, hp])
  | cons op rest =>
    cases op with
    | txn t => exact .inr (.inl ⟨t, rest, rfl, by simp [hostTurn, hp]⟩)
    | poll off mask val =>
      right; right
      obtain ⟨a, ha⟩ := transact_read off .b4 s
      by_cases hd : pollDone mask val (respond a s).answer
      · exact ⟨a, rest, by simp only [hostTurn, hp, ha, hd, if_true]⟩
      · have e : hostTurn s = respond a s := by simp only [hostTurn, hp, ha, hd, if_false, Bool.false_eq_true]
        exact ⟨a, s.program, e⟩

/-! ### A step -/

/-- The engine's turn: nothing unless BUSY, else a success whose output fits or a failure. -/
theorem engineTurn_cases (s : State) :
    (s.status.busy = false ∧ engineTurn s = .next s)
    ∨ (s.status.busy = true ∧ ∃ out, out.length ≤ s.outCap.bytes ∧ engineTurn s = .next (succeed out s))
    ∨ (s.status.busy = true ∧ ∃ t e, engineTurn s = .next (failWith t e s)) := by
  cases hb : s.status.busy with
  | false => exact .inl ⟨rfl, by simp [engineTurn, hb]⟩
  | true =>
    right
    cases hd : decode s.cmd with
    | error e => exact .inr ⟨rfl, throwField s.cmd, .illegalCommand, by simp [engineTurn, hb, hd, completeIllegal]⟩
    | ok i =>
      rcases exec_cases i s with ⟨out, -, h, hf⟩ | ⟨e, -, h⟩
      · exact .inl ⟨rfl, out, hf, by simp [engineTurn, hb, hd, h]⟩
      · exact .inr ⟨rfl, i.throwing, e, by simp [engineTurn, hb, hd, h]⟩

/-- Everything a step can be: the engine's turn, the host's, or a reset, in the state with that turn used up. -/
theorem step_cases (s : State) :
    (s.turns = [] ∧ s.status.busy = true ∧ step s = engineTurn s)
    ∨ (s.turns = [] ∧ s.status.busy = false ∧ step s = .next (hostTurn s))
    ∨ (∃ rest, s.turns = .engine :: rest ∧ step s = engineTurn { s with turns := rest })
    ∨ (∃ rest, s.turns = .host :: rest ∧ step s = .next (hostTurn { s with turns := rest }))
    ∨ (∃ rest, s.turns = .reset :: rest ∧ step s = .next (resetBlock { s with turns := rest })) := by
  cases ht : s.turns with
  | nil => cases hb : s.status.busy <;> simp [step, ht, hb]
  | cons t rest => cases t <;> simp [step, ht]

end Sys2Proof.Machine
end

