-- ==== Sys2Proof/Laws/Bus.lean ====
section
/-! SUPPORT. The laws of the bus port: register accesses, refused accesses, and the byte lanes of bus data. -/

namespace Sys2Proof.Machine

open Sys2Proof

theorem size_pos (z : Size) : 0 < z.bytes := by cases z <;> decide

theorem size_le (z : Size) : z.bytes ≤ 4 := by cases z <;> decide

/-- A 32-bit write at a register's offset is a write to that register. -/
theorem transact_write_reg {s : State} {off : Offset} {r : Reg} (v : Word) (h : regAt off.toNat = some r)
    (hl : off.toNat < 0x20) :
    transact (.write off .b4 v) s =
      (match writeReg r v s with
        | some s' => respond .okWrite s'
        | none => respond (.busErr off) s) := by
  cases hw : writeReg r v s <;> simp [transact, busWrite, target_reg hl, h, hw]

/-- A 32-bit read at a register's offset gives what that register reads as. -/
theorem busRead_reg {s : State} {off : Offset} {r : Reg} (h : regAt off.toNat = some r) (hl : off.toNat < 0x20) :
    busRead off .b4 s = some (readReg r s) := by
  simp only [busRead, target_reg hl, h, Option.map_some]

/-- An access that reaches nothing is answered BUSERR and changes nothing. -/
theorem transact_no_target {s : State} {off : Offset} {size : Size} (v : Word) (h : target s off size = none) :
    transact (.read off size) s = respond (.busErr off) s
      ∧ transact (.write off size v) s = respond (.busErr off) s := by
  simp [transact, busRead, busWrite, h]

/-! ### Byte lanes -/

/-- Byte lane `k` of joined bytes is byte `k`. -/
theorem joinBytes_lane (l : List Byte) (k : Nat) (hk : k < 4) : (joinBytes l).extractLsb' (8 * k) 8 = l.getD k 0 := by
  induction l generalizing k with
  | nil =>
    apply BitVec.eq_of_getLsbD_eq
    intro j hj
    simp [joinBytes]
  | cons b rest ih =>
    apply BitVec.eq_of_getLsbD_eq
    intro j hj
    cases k with
    | zero =>
      simp only [joinBytes, BitVec.getLsbD_extractLsb', BitVec.getLsbD_or, BitVec.getLsbD_setWidth,
        BitVec.getLsbD_shiftLeft, List.getD_cons_zero]
      have h1 : j < 32 := by omega
      simp [h1, hj]
    | succ k =>
      have h := congrArg (fun v => v.getLsbD j) (ih k (by omega))
      simp only [BitVec.getLsbD_extractLsb', hj, decide_true, Bool.true_and] at h
      simp only [joinBytes, BitVec.getLsbD_extractLsb', BitVec.getLsbD_or, BitVec.getLsbD_setWidth,
        BitVec.getLsbD_shiftLeft, List.getD_cons_succ, ← h]
      have h1 : 8 * (k + 1) + j < 32 := by omega
      have h2 : ¬ 8 * (k + 1) + j < 8 := by omega
      have h3 : b.getLsbD (8 * (k + 1) + j) = false := BitVec.getLsbD_of_ge _ _ (by omega)
      have h4 : 8 * (k + 1) + j - 8 = 8 * k + j := by omega
      simp [h1, h2, h3, h4, hj]

/-- Joined bytes leave the data bits above them 0. -/
theorem joinBytes_lt (l : List Byte) (h : l.length ≤ 4) : (joinBytes l).toNat < 2 ^ (8 * l.length) := by
  induction l with
  | nil => simp [joinBytes]
  | cons b rest ih =>
    simp only [List.length_cons] at h ⊢
    have hr := ih (by omega)
    have hb := b.isLt
    simp only [joinBytes, BitVec.toNat_or, BitVec.toNat_setWidth, BitVec.toNat_shiftLeft]
    apply Nat.or_lt_two_pow
    · calc b.toNat % 2 ^ 32 ≤ b.toNat := Nat.mod_le _ _
        _ < 2 ^ 8 := hb
        _ ≤ 2 ^ (8 * (rest.length + 1)) := Nat.pow_le_pow_right (by decide) (by omega)
    · calc (joinBytes rest).toNat <<< 8 % 2 ^ 32 ≤ (joinBytes rest).toNat <<< 8 := Nat.mod_le _ _
        _ = (joinBytes rest).toNat * 2 ^ 8 := Nat.shiftLeft_eq _ _
        _ < 2 ^ (8 * rest.length) * 2 ^ 8 := Nat.mul_lt_mul_of_pos_right hr (by decide)
        _ = 2 ^ (8 * (rest.length + 1)) := by rw [← Nat.pow_add]; congr 1

@[simp] theorem length_splitBytes (n : Nat) (v : Word) : (splitBytes n v).length = n := by simp [splitBytes]

theorem getElem?_splitBytes {n k : Nat} (v : Word) (h : k < n) :
    (splitBytes n v)[k]? = some (v.extractLsb' (8 * k) 8) := by
  simp [splitBytes, h]

end Sys2Proof.Machine
end

