-- ==== Sys2Proof/Laws/Codec.lean ====
section
/-! SUPPORT. What the codec operations give, element by element, and how a codec command's result follows from its
operation's. -/

namespace Sys2Proof.Machine

open Sys2Proof Safety

/-! ### A codec command's result -/

theorem rom_eq_none {f : Family} {a : Nat} (h : (familyRom f).length ≤ a) : rom f a = none := by simp [rom, h]

theorem rom_eq_some {f : Family} {a : Nat} (h : a < (familyRom f).length) : ∃ A, rom f a = some A :=
  ⟨(familyRom f)[a], by simp [rom, h]⟩

theorem executeCodec_ok {f : Family} {cfg : FormatConfig} {s : State} {A out : List Byte}
    {op : List Byte → List Byte → Except CmdError (List Byte)} (hA : rom f cfg.alpha = some A) (hin : InputFits s)
    (ho : op A (inputBytes s) = .ok out) (hout : OutputFits s out) : executeCodec f cfg s op = .ok out := by
  rw [executeCodec_legal hA, executeOver_ok_iff]
  exact ⟨hin, ho, hout⟩

theorem executeCodec_error {f : Family} {cfg : FormatConfig} {s : State} {A : List Byte} {e : CmdError}
    {op : List Byte → List Byte → Except CmdError (List Byte)} (hA : rom f cfg.alpha = some A) (hin : InputFits s)
    (ho : op A (inputBytes s) = .error e) : executeCodec f cfg s op = .error e := by
  rw [executeCodec_legal hA]
  exact executeOver_error hin ho

/-- A command with a legal ALPHA is its operation between the two capacity checks. -/
theorem result_operation {i : Instr} {A : List Byte} (s : State)
    (h : ∀ f, commandFamily i = some f → rom f i.format.alpha = some A) :
    result i s = executeOver s (operation i A) := by
  cases i <;> simp only [result, commandFamily, Instr.format] at h ⊢
  all_goals first | rfl | (rw [executeCodec_legal (h _ rfl)]; rfl)

/-! ### Base-16 -/

@[simp] theorem length_b16Encode (A input : List Byte) : (b16Encode A input).length = 2 * input.length := by
  induction input with
  | nil => rfl
  | cons b rest ih =>
    simp only [b16Encode, List.flatMap_cons, List.length_append, List.length_cons, List.length_nil] at ih ⊢
    omega

theorem getElem?_b16Encode (A : List Byte) {input : List Byte} {i : Nat} {b : Byte} (h : input[i]? = some b) :
    (b16Encode A input)[2 * i]? = some (symbol A (b.toNat / 16))
      ∧ (b16Encode A input)[2 * i + 1]? = some (symbol A (b.toNat % 16)) := by
  induction input generalizing i with
  | nil => simp at h
  | cons c rest ih =>
    have e : b16Encode A (c :: rest)
        = [symbol A (c.extractLsb' 4 4).toNat, symbol A (c.extractLsb' 0 4).toNat] ++ b16Encode A rest := rfl
    rw [e]
    cases i with
    | zero =>
      simp only [List.getElem?_cons_zero, Option.some.injEq] at h
      subst h
      have := c.isLt
      have h1 : c.toNat >>> 4 = c.toNat / 16 := by simp [Nat.shiftRight_eq_div_pow]
      simp
      congr 1
      omega
    | succ i =>
      have h1 : 2 * (i + 1) = 2 * i + 2 := by ring
      rw [h1]
      simpa using ih (i := i) (by simpa using h)

/-- Two digits a byte. -/
theorem joinNibbles_spec {ds : List Nat} {k : Nat} (h : ds.length = 2 * k) :
    (joinNibbles ds).length = k
      ∧ ∀ i, i < k →
          (joinNibbles ds)[i]? = some (BitVec.ofNat 8 ((ds.getD (2 * i) 0 <<< 4) ||| ds.getD (2 * i + 1) 0)) := by
  induction k generalizing ds with
  | zero =>
    obtain rfl : ds = [] := List.eq_nil_of_length_eq_zero h
    simp [joinNibbles]
  | succ k ih =>
    match ds, h with
    | a :: b :: rest, h =>
      obtain ⟨h1, h2⟩ := ih (ds := rest) (by simp only [List.length_cons] at h; omega)
      refine ⟨by simp [joinNibbles, h1], fun i hi => ?_⟩
      cases i with
      | zero => simp [joinNibbles]
      | succ i =>
        have e : 2 * (i + 1) = 2 * i + 2 := by ring
        simp only [joinNibbles, List.getElem?_cons_succ, h2 i (by omega), e]
        rfl

/-! ### The checksum trailer -/

@[simp] theorem length_checksum (hash : List Byte → Config.Digest) (p : List Byte) : (checksum hash p).length = 4 := by
  simp [checksum, Config.Digest.bytes]

theorem payload_append {p c : List Byte} (h : c.length = 4) : payload (p ++ c) = p := by simp [payload, h]

theorem trailer_append {p c : List Byte} (h : c.length = 4) : trailer (p ++ c) = c := by simp [trailer, h]

theorem verifyChecksum_append (hash : List Byte → Config.Digest) {p c : List Byte} (h : c.length = 4) :
    verifyChecksum hash (p ++ c) = if c = checksum hash p then .ok [] else .error .checksumMismatch := by
  have hl : ¬ (p ++ c).length < 4 := by simp [h]
  rw [verifyChecksum, if_neg hl, payload_append h, trailer_append h]
  by_cases hc : c = checksum hash p
  · rw [if_neg (by simp [hc]), if_pos hc]
  · rw [if_pos hc, if_neg hc]

theorem removeChecksum_append {p c : List Byte} (h : c.length = 4) : removeChecksum (p ++ c) = .ok p := by
  simp [removeChecksum, payload_append h, h]

end Sys2Proof.Machine
end

