-- ==== Sys2Proof/Laws/Decode.lean ====
section
/-! SUPPORT. The fields of an assembled command word are the fields it was assembled from (30_encoding.md R47). -/

namespace Sys2Proof

/-- The fields of a word laid out as R47 lays them out. -/
theorem fields_of_layout (op : BitVec 6) (t ci pad : Bool) (a : BitVec 4) {w : Word}
    (hw : w = (0#18 ++ BitVec.ofBool ci ++ BitVec.ofBool pad ++ a ++ BitVec.ofBool t ++ 0#1 ++ op : Word)) :
    rsvHighField w = 0 ∧ rsvLowField w = false ∧ throwField w = t ∧ alphaField w = a ∧ padField w = pad
      ∧ ciField w = ci ∧ opField w = op := by
  subst hw
  refine ⟨?_, ?_, ?_, ?_, ?_, ?_, ?_⟩ <;>
    simp only [rsvHighField, rsvLowField, throwField, alphaField, padField, ciField, opField]
  · apply BitVec.eq_of_getLsbD_eq
    intro k hk
    simp only [BitVec.getLsbD_extractLsb', BitVec.getLsbD_append, BitVec.getLsbD_ofBool]
    interval_cases k <;> simp
  · simp only [BitVec.getLsbD_append, BitVec.getLsbD_ofBool]
    simp
  · simp only [BitVec.getLsbD_append, BitVec.getLsbD_ofBool]
    simp
  · apply BitVec.eq_of_getLsbD_eq
    intro k hk
    simp only [BitVec.getLsbD_extractLsb', BitVec.getLsbD_append, BitVec.getLsbD_ofBool]
    interval_cases k <;> simp
  · simp only [BitVec.getLsbD_append, BitVec.getLsbD_ofBool]
    simp
  · simp only [BitVec.getLsbD_append, BitVec.getLsbD_ofBool]
    simp
  · apply BitVec.eq_of_getLsbD_eq
    intro k hk
    simp only [BitVec.getLsbD_extractLsb', BitVec.getLsbD_append, BitVec.getLsbD_ofBool]
    interval_cases k <;> simp

/-- A number that the table places is decoded as the word it is. -/
theorem decodeTableWord_some {nbits w : Nat} {i : Instr} (h : decodeTableWord nbits w = some i) :
    decode (tableWord nbits w) = .ok i := by
  unfold decodeTableWord at h
  split at h <;> simp_all

end Sys2Proof
end

