-- ==== Sys2Proof/Laws/PerInstr.lean ====
section
/-! SUPPORT. A law of the encoding made per command: its command word, masked as the opcode table masks it, is its
opcode (30_encoding.md R54). -/

namespace Sys2Proof.Laws

open Sys2Proof

/-- A command word's opcode and reserved bits are its opcode, whatever its other fields are. -/
theorem encodeFields_mask (op : BitVec 6) (t : Bool) (c : FormatConfig) :
    encodeFields op t c &&& 0xFFFFC07F = op.setWidth 32 := by
  apply BitVec.eq_of_getLsbD_eq
  intro k hk
  simp only [encodeFields, BitVec.getLsbD_and, BitVec.getLsbD_append, BitVec.getLsbD_setWidth, BitVec.getLsbD_ofBool]
  interval_cases k <;> simp

/-- The family: masked with the table's mask, the command word is the table's match. -/
def TableMatch.Statement (i : Instr) : Prop := encode i &&& 0xFFFFC07F = i.opcode.setWidth 32

theorem TableMatch.b16enc (t : Bool) (c : FormatConfig) : TableMatch.Statement (.b16enc t c) := encodeFields_mask _ t c

theorem TableMatch.b16dec (t : Bool) (c : FormatConfig) : TableMatch.Statement (.b16dec t c) := encodeFields_mask _ t c

theorem TableMatch.b32enc (t : Bool) (c : FormatConfig) : TableMatch.Statement (.b32enc t c) := encodeFields_mask _ t c

theorem TableMatch.b32dec (t : Bool) (c : FormatConfig) : TableMatch.Statement (.b32dec t c) := encodeFields_mask _ t c

theorem TableMatch.b58enc (t : Bool) (c : FormatConfig) : TableMatch.Statement (.b58enc t c) := encodeFields_mask _ t c

theorem TableMatch.b58dec (t : Bool) (c : FormatConfig) : TableMatch.Statement (.b58dec t c) := encodeFields_mask _ t c

theorem TableMatch.b64enc (t : Bool) (c : FormatConfig) : TableMatch.Statement (.b64enc t c) := encodeFields_mask _ t c

theorem TableMatch.b64dec (t : Bool) (c : FormatConfig) : TableMatch.Statement (.b64dec t c) := encodeFields_mask _ t c

theorem TableMatch.chkadd (t : Bool) (c : FormatConfig) : TableMatch.Statement (.chkadd t c) := encodeFields_mask _ t c

theorem TableMatch.chkver (t : Bool) (c : FormatConfig) : TableMatch.Statement (.chkver t c) := encodeFields_mask _ t c

theorem TableMatch.chkrem (t : Bool) (c : FormatConfig) : TableMatch.Statement (.chkrem t c) := encodeFields_mask _ t c

theorem TableMatch.b58encc (t : Bool) (c : FormatConfig) : TableMatch.Statement (.b58encc t c) := encodeFields_mask _ t c

theorem TableMatch.b58decc (t : Bool) (c : FormatConfig) : TableMatch.Statement (.b58decc t c) := encodeFields_mask _ t c

end Sys2Proof.Laws
end

