-- ==== Sys2Proof/Laws/Step.lean ====
section
/-! SUPPORT. What a step leaves: the turns, the capacities and the copy number under the host's and the engine's turn; one step of the
core; the result of a command as a function of its operands. -/

namespace Sys2Proof.Machine

open Sys2Proof Safety

/-- A bus transaction changes neither the turns, nor a capacity, nor the copy number. -/
theorem transact_keeps (t : Txn) (s : State) :
    (transact t s).turns = s.turns ∧ (transact t s).inCap = s.inCap ∧ (transact t s).outCap = s.outCap
      ∧ (transact t s).copy = s.copy := by
  rcases transact_cases t s with ⟨a, h⟩ | ⟨off, size, v, s', -, h2, h⟩ <;> rw [h]
  · exact ⟨rfl, rfl, rfl, rfl⟩
  · rcases busWrite_cases h2 with ⟨r, -, -, -, h3⟩ | ⟨-, -, -, -, h3⟩
    · rcases writeReg_cases h3 with ⟨-, -, rfl⟩ | ⟨-, -, rfl⟩ | ⟨-, rfl⟩ | ⟨-, -, rfl⟩ | ⟨-, rfl⟩ | ⟨-, -, rfl⟩ | rfl <;>
        exact ⟨rfl, rfl, rfl, rfl⟩
    · subst h3
      exact ⟨rfl, rfl, rfl, rfl⟩

/-- The host's turn changes neither the turns, nor a capacity, nor the copy number. -/
theorem hostTurn_keeps (s : State) :
    (hostTurn s).turns = s.turns ∧ (hostTurn s).inCap = s.inCap ∧ (hostTurn s).outCap = s.outCap
      ∧ (hostTurn s).copy = s.copy := by
  rcases hostTurn_cases s with h | ⟨t, rest, -, h⟩ | ⟨a, p, h⟩ <;> rw [h]
  · exact ⟨rfl, rfl, rfl, rfl⟩
  · exact transact_keeps t _
  · exact ⟨rfl, rfl, rfl, rfl⟩

/-- The engine's turn changes neither the turns, nor a capacity, nor the copy number. -/
theorem engineTurn_keeps {s t : State} (h : engineTurn s = .next t) :
    t.turns = s.turns ∧ t.inCap = s.inCap ∧ t.outCap = s.outCap ∧ t.copy = s.copy := by
  rcases engineTurn_cases s with ⟨-, h'⟩ | ⟨-, o, -, h'⟩ | ⟨-, o, e, h'⟩ <;> rw [h'] at h <;> cases h <;>
    exact ⟨rfl, rfl, rfl, rfl⟩

/-- A step changes neither a capacity nor the copy number. -/
theorem step_keeps {s t : State} (h : step s = .next t) :
    t.inCap = s.inCap ∧ t.outCap = s.outCap ∧ t.copy = s.copy := by
  rcases step_cases s with ⟨-, -, e⟩ | ⟨-, -, e⟩ | ⟨r, -, e⟩ | ⟨r, -, e⟩ | ⟨r, -, e⟩ <;> rw [e] at h
  · exact (engineTurn_keeps h).2
  · cases h
    exact (hostTurn_keeps s).2
  · exact (engineTurn_keeps h).2
  · cases h
    exact (hostTurn_keeps { s with turns := r }).2
  · cases h
    exact ⟨rfl, rfl, rfl⟩

/-- The engine's turn ends the command. -/
theorem engineTurn_not_busy {s t : State} (h : engineTurn s = .next t) : t.status.busy = false := by
  rcases engineTurn_cases s with ⟨hb, h'⟩ | ⟨-, o, -, h'⟩ | ⟨-, o, e, h'⟩ <;> rw [h'] at h <;> cases h
  · exact hb
  · rfl
  · rfl

theorem engineTurn_next (s : State) : ∃ t, engineTurn s = .next t := by
  rcases engineTurn_cases s with ⟨-, h⟩ | ⟨-, o, -, h⟩ | ⟨-, o, e, h⟩ <;> exact ⟨_, h⟩

/-- One step of the core is the machine's. -/
theorem run_one {s t : State} (h : step s = .next t) : Host.Core.run core 1 s = .next t := by
  simp only [Host.Core.run]
  rw [show core.step s = _ from h]

/-- A run of the core goes on after its first step. -/
theorem run_succ {s t : State} (k : Nat) (h : step s = .next t) :
    Host.Core.run core (k + 1) s = Host.Core.run core k t := by
  simp only [Host.Core.run]
  rw [show core.step s = _ from h]

/-- The T bit has no part in a command's result. -/
theorem result_throwing {i j : Instr} (s : State) (h : i.opcode = j.opcode) (hf : i.format = j.format) :
    result i s = result j s := by
  cases i <;> cases j <;> simp_all [Instr.opcode, Instr.format, result]

/-- A command's result is a function of its input and the capacities. -/
theorem result_congr (i : Instr) {s u : State} (h1 : s.inLen = u.inLen) (h2 : inputBytes s = inputBytes u)
    (h3 : s.inCap = u.inCap) (h4 : s.outCap = u.outCap) : result i s = result i u := by
  have : ∀ op, executeOver s op = executeOver u op := by
    intro op
    simp only [executeOver, fetchInput, fitOutput, h1, h2, h3, h4]
  cases i <;> simp only [result, executeCodec, this]

/-- A command that succeeds with an output has that output as its result. -/
theorem result_of_succeeds {i : Instr} {s : State} {out : List Byte} (h : Succeeds i s out) : result i s = .ok out := by
  obtain ⟨t, he, c⟩ := h
  rcases exec_cases i s with ⟨o, ho, h', hf⟩ | ⟨e, -, h'⟩
  · rw [h'] at he
    cases he
    have c1 := capacity_le s.outCap
    have hl := congrArg (fun t => t.outLen.toNat) c.registers
    simp only [succeed_outLen, BitVec.toNat_ofNat] at hl
    have hlen : o.length = out.length := by
      have := c.fits
      omega
    rw [ho]
    congr 1
    apply List.ext_getElem?
    intro j
    by_cases hj : j < out.length
    · rw [← c.stored j hj, ← (completesOk_succeed hf).stored j (by omega)]
    · rw [List.getElem?_eq_none (by omega), List.getElem?_eq_none (by omega)]
  · rw [h'] at he
    cases he
    have := congrArg (fun t => t.status.ok) c.registers
    simp at this

end Sys2Proof.Machine
end

