-- ==== Sys2Proof/Laws/Platform.lean ====
section
/-! SUPPORT. The routing of a platform address to its block, and what replacing one block, a step and a bus
transaction leave. -/

namespace Sys2Proof.Machine

open Sys2Proof

theorem setBlock_other (p : Platform) {k j : Nat} (b : State) (h : j ≠ k) : (setBlock p k b)[j]? = p[j]? := by
  unfold setBlock
  split
  · rw [List.getElem?_set_ne (Ne.symm h)]
  · rfl

/-- In a platform whose windows do not overlap, an address in a block's window reaches that block. -/
theorem route_window {p : Platform} {k : Nat} {x : Site} (off : Offset) (ha : ∀ y ∈ p, y.base % windowSize = 0)
    (hd : p.Pairwise (fun y z => y.base ≠ z.base ∧ y.block.copy ≠ z.block.copy)) (hk : p[k]? = some x) :
    route p (x.base + off.toNat) = some (k, off) := by
  have hoff := off.isLt
  have hws : windowSize = 262144 := rfl
  induction p generalizing k with
  | nil => simp at hk
  | cons y rest ih =>
    cases k with
    | zero =>
      obtain rfl : y = x := by simpa using hk
      have : y.base ≤ y.base + off.toNat ∧ y.base + off.toNat < y.base + windowSize := by omega
      simp [route, this]
    | succ k =>
      replace hk : rest[k]? = some x := by simpa using hk
      rw [List.pairwise_cons] at hd
      have hx : x ∈ rest := List.mem_of_getElem? hk
      have hne := (hd.1 x hx).1
      have h1 := ha x (by simp [hx])
      have h2 := ha y (by simp)
      rw [hws] at h1 h2
      have : ¬ (y.base ≤ x.base + off.toNat ∧ x.base + off.toNat < y.base + windowSize) := by omega
      rw [route, if_neg this, ih (fun z hz => ha z (by simp [hz])) hd.2 hk]
      rfl

/-- The bases and the copy numbers decide whether a platform is well formed. -/
theorem wf_of_same_sites {p q : Platform}
    (h : q.map (fun x => (x.base, x.block.copy)) = p.map (fun x => (x.base, x.block.copy))) (hw : p.wf) : q.wf := by
  obtain ⟨h1, h2, h3⟩ := hw
  have hl : q.length = p.length := by simpa using congrArg List.length h
  refine ⟨?_, ?_, ?_⟩
  · rintro rfl
    exact h1 (List.eq_nil_of_length_eq_zero hl.symm)
  · intro x hx
    have hm : (x.base, x.block.copy) ∈ p.map (fun x => (x.base, x.block.copy)) := h ▸ List.mem_map_of_mem hx
    obtain ⟨y, hy, he⟩ := List.mem_map.mp hm
    rw [← (Prod.mk.inj he).1]
    exact h2 y hy
  · have hp : (p.map (fun x => (x.base, x.block.copy))).Pairwise (fun a b => a.1 ≠ b.1 ∧ a.2 ≠ b.2) :=
      List.pairwise_map.mpr h3
    rw [← h] at hp
    exact List.pairwise_map.mp hp

/-- A block replaced by one of the same copy leaves a well-formed platform. -/
theorem wf_setBlock {p : Platform} {k : Nat} {x : Site} {b : State} (hw : p.wf) (hk : p[k]? = some x)
    (hb : b.copy = x.block.copy) : (setBlock p k b).wf := by
  refine wf_of_same_sites ?_ hw
  simp only [setBlock, hk]
  apply List.ext_getElem?
  intro j
  by_cases hj : j = k
  · subst hj
    obtain ⟨hl, he⟩ := List.getElem?_eq_some_iff.mp hk
    simp [hl, he, hb]
  · simp [List.getElem?_set_ne (Ne.symm hj)]

/-- A block's step leaves a well-formed platform. -/
theorem wf_platformStep {p : Platform} (k : Nat) (hw : p.wf) : (platformStep k p).wf := by
  unfold platformStep
  split
  · exact hw
  · next x hk =>
    split
    · next b hb => exact wf_setBlock hw hk (step_keeps hb).2.2
    · exact hw
    · exact hw

/-- A bus transaction leaves a well-formed platform. -/
theorem wf_platformAccess {p q : Platform} {a : Nat} {access : Offset → Txn} (hw : p.wf)
    (h : platformAccess a access p = some q) : q.wf := by
  unfold platformAccess at h
  split at h
  · cases h
  · split at h
    · cases h
    · next x hk =>
      obtain rfl := Option.some.inj h
      exact wf_setBlock hw hk (transact_keeps _ _).2.2.2

end Sys2Proof.Machine
end

