-- ==== Sys2Proof/Laws/Repack.lean ====
section
/-! SUPPORT. Bit strings and the repackers' loops: the bits of a value, and, for the encoder's and the decoder's loop,
what they have emitted and hold back when they end. Both are one argument, over sequences of `U`-bit values regrouped
into `V`-bit values. -/

namespace Sys2Proof.Machine

open Sys2Proof Safety

/-! ### Bits -/

@[simp] theorem length_valueBits (w v : Nat) : (valueBits w v).length = w := by simp [valueBits]

theorem getElem?_valueBits (w v : Nat) {i : Nat} (h : i < w) : (valueBits w v)[i]? = some (v.testBit (w - 1 - i)) := by
  simp [valueBits, h]

theorem bitsValue_append (a b : List Bool) : bitsValue (a ++ b) = bitsValue a * 2 ^ b.length + bitsValue b := by
  have go : ∀ (b : List Bool) (v : Nat),
      b.foldl (fun v x => 2 * v + x.toNat) v = v * 2 ^ b.length + bitsValue b := by
    intro b
    induction b with
    | nil => simp [bitsValue]
    | cons x rest ih =>
      intro v
      simp only [bitsValue, List.foldl_cons, List.length_cons]
      rw [ih (2 * v + x.toNat), ih (2 * 0 + x.toNat)]
      ring
  rw [bitsValue, List.foldl_append, go]
  rfl

theorem bitsValue_lt (bits : List Bool) : bitsValue bits < 2 ^ bits.length := by
  induction bits using List.reverseRecOn with
  | nil => simp [bitsValue]
  | append_singleton l x ih =>
    rw [bitsValue_append]
    have : bitsValue [x] ≤ 1 := by cases x <;> decide
    simp only [List.length_append, List.length_singleton, pow_succ]
    omega

theorem bitsValue_valueBits (w v : Nat) : bitsValue (valueBits w v) = v % 2 ^ w := by
  induction w generalizing v with
  | zero => simp [valueBits, bitsValue, Nat.mod_one]
  | succ w ih =>
    have split : valueBits (w + 1) v = valueBits w (v / 2) ++ [v.testBit 0] := by
      apply List.ext_getElem?
      intro i
      by_cases h : i < w
      · rw [getElem?_valueBits _ _ (by omega), List.getElem?_append_left (by simpa using h), getElem?_valueBits _ _ h,
          Nat.testBit_div_two]
        congr 2
        omega
      · by_cases h' : i = w
        · subst h'
          rw [getElem?_valueBits _ _ (by omega), List.getElem?_append_right (by simp)]
          simp
        · rw [List.getElem?_eq_none (by simp; omega), List.getElem?_eq_none (by simp; omega)]
    rw [split, bitsValue_append, ih, pow_succ]
    simp only [List.length_singleton, pow_one]
    have hb : bitsValue [v.testBit 0] = v % 2 := by
      rcases Nat.mod_two_eq_zero_or_one v with h | h <;> simp [bitsValue, Nat.testBit_zero, h]
    rw [hb, Nat.mul_comm (2 ^ w) 2, Nat.mod_mul]
    omega

theorem valueBits_bitsValue (bits : List Bool) : valueBits bits.length (bitsValue bits) = bits := by
  induction bits using List.reverseRecOn with
  | nil => rfl
  | append_singleton l x ih =>
    apply List.ext_getElem?
    intro i
    have hx : bitsValue [x] = x.toNat := by cases x <;> rfl
    by_cases h : i < l.length
    · rw [getElem?_valueBits _ _ (by simp; omega), List.getElem?_append_left h]
      have hi := congrArg (fun b => b[i]?) ih
      simp only [getElem?_valueBits _ _ h] at hi
      rw [← hi, bitsValue_append, hx]
      have : (l ++ [x]).length - 1 - i = (l.length - 1 - i) + 1 := by simp; omega
      rw [this, Nat.testBit_succ]
      congr 2
      have : x.toNat < 2 := by cases x <;> decide
      simp only [List.length_singleton, pow_one]
      omega
    · by_cases h' : i = l.length
      · subst h'
        rw [getElem?_valueBits _ _ (by simp), List.getElem?_append_right (by simp), bitsValue_append, hx]
        cases x <;> simp [Nat.testBit_zero]
      · rw [List.getElem?_eq_none (by simp; omega), List.getElem?_eq_none (by simp; omega)]

/-- Bits `off` to `off+k-1` of a `w`-bit value, counted from its most significant end. -/
theorem take_drop_valueBits {w v off k : Nat} (h : off + k ≤ w) :
    ((valueBits w v).drop off).take k = valueBits k (v >>> (w - off - k)) := by
  apply List.ext_getElem?
  intro i
  by_cases hi : i < k
  · rw [List.getElem?_take_of_lt hi, List.getElem?_drop, getElem?_valueBits _ _ (by omega), getElem?_valueBits _ _ hi,
      Nat.testBit_shiftRight]
    congr 2
    omega
  · rw [List.getElem?_eq_none (by simp; omega), List.getElem?_eq_none (by simp; omega)]

/-! ### Concatenated values -/

/-- The bits of a sequence of `U`-bit values, each most significant bit first. -/
def concatBits (U : Nat) (vals : List Nat) : List Bool := vals.flatMap (valueBits U)

@[simp] theorem length_concatBits (U : Nat) (vals : List Nat) : (concatBits U vals).length = U * vals.length := by
  induction vals with
  | nil => simp [concatBits]
  | cons v rest ih =>
    have : concatBits U (v :: rest) = valueBits U v ++ concatBits U rest := rfl
    rw [this]
    simp only [List.length_append, length_valueBits, ih, List.length_cons]
    ring

theorem bitString_eq_concatBits (input : List Byte) : bitString input = concatBits 8 (input.map BitVec.toNat) := by
  simp [bitString, concatBits, List.flatMap_map]

/-- Bits inside the value at index `pos`. -/
theorem take_drop_concatBits {U : Nat} {vals : List Nat} {pos off k : Nat} (hp : pos < vals.length)
    (h : off + k ≤ U) :
    ((concatBits U vals).drop (U * pos + off)).take k = ((valueBits U (vals.getD pos 0)).drop off).take k := by
  induction vals generalizing pos with
  | nil => simp at hp
  | cons v rest ih =>
    have hc : concatBits U (v :: rest) = valueBits U v ++ concatBits U rest := rfl
    rw [hc]
    cases pos with
    | zero =>
      rw [Nat.mul_zero, Nat.zero_add, List.drop_append_of_le_length (by simp; omega),
        List.take_append_of_le_length (by simp; omega)]
      rfl
    | succ pos =>
      have : U * (pos + 1) + off = (valueBits U v).length + (U * pos + off) := by
        simp
        ring
      rw [this, List.drop_append, List.drop_eq_nil_of_le (by omega), Nat.add_sub_cancel_left]
      simpa using ih (pos := pos) (by simpa using hp)

/-- The values of consecutive `V`-bit groups of a bit string, as many as are whole. -/
def wholeGroups (V : Nat) (bits : List Bool) : List Nat :=
  (List.range (bits.length / V)).map (fun j => bitsValue ((bits.drop (V * j)).take V))

/-- A quotient rounded up. -/
theorem ceil_div {n B : Nat} (hB : 0 < B) :
    (n + B - 1) / B = n / B + (if n % B = 0 then 0 else 1) := by
  have hdm := Nat.div_add_mod n B
  have hlt := Nat.mod_lt n hB
  obtain ⟨q, hq⟩ : ∃ q, q = n / B := ⟨_, rfl⟩
  obtain ⟨r, hr⟩ : ∃ r, r = n % B := ⟨_, rfl⟩
  rw [← hq, ← hr] at hdm ⊢
  rw [← hr] at hlt
  rw [← hdm, Nat.add_assoc, Nat.add_sub_assoc (by omega), Nat.mul_add_div hB]
  congr 1
  split
  · exact Nat.div_eq_of_lt (by omega)
  · exact Nat.div_eq_of_lt_le (by omega) (by omega)

theorem length_zeroFill {W : Nat} (hW : 0 < W) (S : List Bool) :
    (zeroFill W S).length = W * ((S.length + W - 1) / W) := by
  have hdm := Nat.div_add_mod S.length W
  have hlt := Nat.mod_lt S.length hW
  rw [ceil_div hW, Nat.mul_add, zeroFill, List.length_append, List.length_replicate]
  split
  · next h =>
    rw [h, Nat.sub_zero, Nat.mod_self, Nat.mul_zero]
    omega
  · rw [Nat.mod_eq_of_lt (by omega), Nat.mul_one]
    omega

/-- The values of consecutive groups, concatenated again, are the bit string. -/
theorem concatBits_groups (W m : Nat) {T : List Bool} (h : T.length = W * m) :
    concatBits W ((List.range m).map (fun j => bitsValue ((T.drop (j * W)).take W))) = T := by
  have go : ∀ k, k ≤ m →
      concatBits W ((List.range k).map (fun j => bitsValue ((T.drop (j * W)).take W))) = T.take (W * k) := by
    intro k
    induction k with
    | zero => simp [concatBits]
    | succ k ih =>
      intro hk
      have h1 : W * (k + 1) ≤ W * m := Nat.mul_le_mul_left _ hk
      have h2 : W * (k + 1) = W * k + W := Nat.mul_succ _ _
      have hlen : ((T.drop (k * W)).take W).length = W := by
        rw [List.length_take, List.length_drop, Nat.mul_comm k W]
        omega
      have hv := valueBits_bitsValue ((T.drop (k * W)).take W)
      rw [hlen] at hv
      rw [List.range_succ, List.map_append, List.map_singleton, h2, List.take_add, ← ih (by omega)]
      simp only [concatBits, List.flatMap_append, List.flatMap_cons, List.flatMap_nil, List.append_nil]
      rw [hv, Nat.mul_comm k W]
  rw [go m (Nat.le_refl _), ← h, List.take_length]

/-- The groups of a zero-filled bit string: the whole groups, and what is left with zero bits behind it. -/
theorem groups_zeroFill {W : Nat} (hW : 0 < W) (S : List Bool) :
    (List.range ((S.length + W - 1) / W)).map (fun j => bitsValue (((zeroFill W S).drop (j * W)).take W))
      = wholeGroups W S ++ (if S.length % W = 0 then []
          else [bitsValue (S.drop (W * (S.length / W))) <<< (W - S.length % W)]) := by
  have hdm := Nat.div_add_mod S.length W
  have hlt := Nat.mod_lt S.length hW
  obtain ⟨q, hq⟩ : ∃ q, q = S.length / W := ⟨_, rfl⟩
  obtain ⟨r, hr⟩ : ∃ r, r = S.length % W := ⟨_, rfl⟩
  rw [← hq, ← hr] at hdm ⊢
  rw [← hr] at hlt
  have whole : ∀ j, j < q → ((zeroFill W S).drop (j * W)).take W = (S.drop (W * j)).take W := by
    intro j hj
    have h1 : W * (j + 1) ≤ W * q := Nat.mul_le_mul_left _ hj
    have h2 : W * (j + 1) = W * j + W := Nat.mul_succ _ _
    rw [Nat.mul_comm j W, zeroFill, List.drop_append_of_le_length (by omega),
      List.take_append_of_le_length (by rw [List.length_drop]; omega)]
  have main : (List.range q).map (fun j => bitsValue (((zeroFill W S).drop (j * W)).take W)) = wholeGroups W S := by
    rw [wholeGroups, ← hq]
    apply List.map_congr_left
    intro j hj
    rw [whole j (List.mem_range.mp hj)]
  rw [ceil_div hW, ← hq, ← hr]
  by_cases h0 : r = 0
  · rw [if_pos h0, if_pos h0, List.append_nil, Nat.add_zero, main]
  · rw [if_neg h0, if_neg h0, List.range_succ, List.map_append, main]
    congr 1
    have hfill : (W - S.length % W) % W = W - r := by
      rw [← hr]
      exact Nat.mod_eq_of_lt (by omega)
    have hzero : ∀ n : Nat, bitsValue (List.replicate n false) = 0 := by
      intro n
      induction n with
      | zero => rfl
      | succ n ih => simpa [bitsValue, List.replicate_succ] using ih
    rw [List.map_singleton, zeroFill, hfill, Nat.mul_comm q W, List.drop_append_of_le_length (by omega),
      List.take_of_length_le (by simp; omega), bitsValue_append, hzero, List.length_replicate, Nat.shiftLeft_eq,
      Nat.add_zero]

/-! ### The loop, for any two widths -/

/-- What a repacker holds and has emitted after `c` of the bits `S`: the values of the whole groups, and the rest of
the bits in the accumulator. -/
structure Packed (V : Nat) (S : List Bool) (c acc cnt : Nat) (emitted : List Nat) : Prop where
  bound : c ≤ S.length
  count : c = V * emitted.length + cnt
  room : cnt < V
  groups : ∀ j, j < emitted.length → emitted[j]? = some (bitsValue ((S.drop (V * j)).take V))
  rest : acc = bitsValue ((S.drop (V * emitted.length)).take cnt)

theorem Packed.start {V : Nat} (S : List Bool) (h : 0 < V) : Packed V S 0 0 0 [] where
  bound := Nat.zero_le _
  count := by simp
  room := h
  groups := by simp
  rest := by simp [bitsValue]

/-- Taking `k` more bits into the accumulator. -/
theorem Packed.acc_step {V : Nat} {S : List Bool} {c acc cnt : Nat} {em : List Nat} (p : Packed V S c acc cnt em)
    {k bits : Nat} (hb : bits = bitsValue ((S.drop c).take k)) (hc : c + k ≤ S.length) :
    (acc <<< k) ||| bits = bitsValue ((S.drop (V * em.length)).take (cnt + k)) := by
  have hlen : ((S.drop c).take k).length = k := by
    simp
    omega
  have hlt : bits < 2 ^ k := by
    rw [hb]
    simpa only [hlen] using bitsValue_lt ((S.drop c).take k)
  rw [← Nat.shiftLeft_add_eq_or_of_lt hlt, Nat.shiftLeft_eq, List.take_add, bitsValue_append, List.drop_drop, ← p.count,
    ← p.rest, hlen, ← hb]

theorem Packed.keep {V : Nat} {S : List Bool} {c acc cnt : Nat} {em : List Nat} (p : Packed V S c acc cnt em)
    {k bits : Nat} (hb : bits = bitsValue ((S.drop c).take k)) (hc : c + k ≤ S.length) (hr : cnt + k < V) :
    Packed V S (c + k) ((acc <<< k) ||| bits) (cnt + k) em where
  bound := hc
  count := by
    have := p.count
    omega
  room := hr
  groups := p.groups
  rest := p.acc_step hb hc

theorem Packed.emit {V : Nat} {S : List Bool} {c acc cnt : Nat} {em : List Nat} (p : Packed V S c acc cnt em)
    {k bits : Nat} (hb : bits = bitsValue ((S.drop c).take k)) (hc : c + k ≤ S.length) (hr : cnt + k = V) :
    Packed V S (c + k) 0 0 (em ++ [(acc <<< k) ||| bits]) where
  bound := hc
  count := by
    have := p.count
    simp only [List.length_append, List.length_singleton, Nat.mul_add, Nat.mul_one]
    omega
  room := by
    have := p.room
    omega
  groups j hj := by
    simp only [List.length_append, List.length_singleton] at hj
    by_cases h : j < em.length
    · rw [List.getElem?_append_left h]
      exact p.groups j h
    · have : j = em.length := by omega
      subst this
      rw [List.getElem?_append_right (Nat.le_refl _), Nat.sub_self, p.acc_step hb hc, hr]
      rfl
  rest := by simp [bitsValue]

/-- When every bit is consumed, the whole groups are emitted and the rest is held back. -/
theorem Packed.finish {V : Nat} {S : List Bool} {acc cnt : Nat} {em : List Nat}
    (p : Packed V S S.length acc cnt em) :
    em = wholeGroups V S ∧ cnt = S.length % V ∧ acc = bitsValue (S.drop (V * (S.length / V))) := by
  have hq : S.length / V = em.length := by
    rw [p.count, Nat.mul_add_div (by have := p.room; omega), Nat.div_eq_of_lt p.room, Nat.add_zero]
  refine ⟨?_, ?_, ?_⟩
  · apply List.ext_getElem?
    intro j
    by_cases h : j < em.length
    · rw [p.groups j h]
      simp [wholeGroups, hq, h]
    · rw [List.getElem?_eq_none (by omega), List.getElem?_eq_none (by simp [wholeGroups, hq]; omega)]
  · rw [p.count, Nat.mul_add_mod, Nat.mod_eq_of_lt p.room]
  · rw [p.rest, hq, List.take_of_length_le]
    have := p.count
    simp
    omega

/-- The bits one pass takes, as a slice of the bit string. -/
theorem pass_bits {U : Nat} {vals : List Nat} {pos off k : Nat} (hp : pos < vals.length) (h : off + k ≤ U) :
    (vals.getD pos 0 >>> (U - off - k)) &&& ((1 <<< k) - 1)
      = bitsValue (((concatBits U vals).drop (U * pos + off)).take k) := by
  rw [take_drop_concatBits hp h, take_drop_valueBits h, bitsValue_valueBits, Nat.one_shiftLeft,
    Nat.and_two_pow_sub_one_eq_mod]

/-! ### The encoder's loop -/

/-- The encoder's loop ends with every whole group's symbol emitted and the rest of the bits in the accumulator. -/
theorem encLoop_spec {W : Nat} (hW : 0 < W) (A input : List Byte) :
    ∃ em acc cnt, encLoop id id W A input (8 * input.length) EncValues.start []
        = (⟨input.length, 0, acc, cnt⟩, em.map (symbol A))
      ∧ Packed W (bitString input) (bitString input).length acc cnt em := by
  have main : ∀ (fuel : Nat) (e : EncValues) (em : List Nat),
      e.inputBytePosition ≤ input.length → e.inputBitOffsetWithinByte < 8 →
      (e.inputBytePosition = input.length → e.inputBitOffsetWithinByte = 0) →
      8 * input.length ≤ fuel + (8 * e.inputBytePosition + e.inputBitOffsetWithinByte) →
      Packed W (bitString input) (8 * e.inputBytePosition + e.inputBitOffsetWithinByte)
        e.outputSymbolAccumulator e.outputBitCount em →
      ∃ em' acc cnt, encLoop id id W A input fuel e (em.map (symbol A))
          = (⟨input.length, 0, acc, cnt⟩, em'.map (symbol A))
        ∧ Packed W (bitString input) (bitString input).length acc cnt em' := by
    have hS : (bitString input).length = 8 * input.length := by simp [bitString_eq_concatBits]
    intro fuel
    induction fuel with
    | zero =>
      rintro ⟨pos, off, acc, cnt⟩ em hp ho hz hf hpk
      simp only at hp ho hz hf hpk
      have : pos = input.length := by omega
      subst this
      obtain rfl := hz rfl
      refine ⟨em, acc, cnt, rfl, ?_⟩
      rw [hS]
      exact hpk
    | succ fuel ih =>
      rintro ⟨pos, off, acc, cnt⟩ em hp ho hz hf hpk
      simp only at hp ho hz hf hpk
      by_cases hlt : pos < input.length
      · have hroom := hpk.room
        obtain ⟨k, hk⟩ : ∃ k, k = min (8 - off) (W - cnt) := ⟨_, rfl⟩
        have hk1 : 0 < k := by omega
        have hk8 : off + k ≤ 8 := by omega
        have hkW : cnt + k ≤ W := by omega
        have hbits : ((input.getD pos 0).toNat >>> (8 - off - k)) &&& ((1 <<< k) - 1)
            = bitsValue (((bitString input).drop (8 * pos + off)).take k) := by
          have hg : (input.getD pos 0).toNat = (input.map BitVec.toNat).getD pos 0 := by
            simp [List.getD_eq_getElem?_getD, hlt]
          rw [hg, bitString_eq_concatBits]
          exact pass_bits (by simpa using hlt) hk8
        have hin : 8 * pos + off + k ≤ (bitString input).length := by
          rw [hS]
          omega
        have hnext : 8 * (if off + k = 8 then pos + 1 else pos) + (if off + k = 8 then 0 else off + k)
            = 8 * pos + off + k := by
          split <;> omega
        have hp' : (if off + k = 8 then pos + 1 else pos) ≤ input.length := by split <;> omega
        have ho' : (if off + k = 8 then 0 else off + k) < 8 := by split <;> omega
        have hz' : (if off + k = 8 then pos + 1 else pos) = input.length → (if off + k = 8 then 0 else off + k) = 0 := by
          split <;> omega
        have hf' : 8 * input.length ≤ fuel + (8 * (if off + k = 8 then pos + 1 else pos)
            + (if off + k = 8 then 0 else off + k)) := by
          rw [hnext]
          omega
        simp only [encLoop, id_eq, hlt, if_true, encStep, ← hk]
        by_cases hc : cnt + k = W
        · rw [if_pos hc]
          have hpk' := hpk.emit hbits hin hc
          rw [← hnext] at hpk'
          obtain ⟨em', acc', cnt', h1, h2⟩ :=
            ih ⟨if off + k = 8 then pos + 1 else pos, if off + k = 8 then 0 else off + k, 0, 0⟩ _ hp' ho' hz' hf' hpk'
          refine ⟨em', acc', cnt', ?_, h2⟩
          rw [List.map_append] at h1
          exact h1
        · rw [if_neg hc]
          have hpk' := hpk.keep hbits hin (by omega)
          rw [← hnext] at hpk'
          exact ih ⟨_, _, _, _⟩ em hp' ho' hz' hf' hpk'
      · have : pos = input.length := by omega
        subst this
        obtain rfl := hz rfl
        refine ⟨em, acc, cnt, by simp [encLoop], ?_⟩
        rw [hS]
        exact hpk
  exact main _ EncValues.start [] (Nat.zero_le _) (by decide) (fun _ => rfl) (by omega) (Packed.start _ hW)

/-! ### The decoder's loop -/

/-- The decoder's loop emits exactly the whole bytes of the concatenated digits. -/
theorem unpackDigits_spec {W : Nat} (hW : 0 < W) (digits : List Nat) :
    unpackDigits W digits = (wholeGroups 8 (concatBits W digits)).map (BitVec.ofNat 8) := by
  have hS : (concatBits W digits).length = W * digits.length := by simp
  have main : ∀ (fuel : Nat) (e : DecValues) (em : List Nat),
      e.symbolPosition ≤ digits.length → e.symbolBitOffset < W →
      (e.symbolPosition = digits.length → e.symbolBitOffset = 0) →
      W * digits.length ≤ fuel + (W * e.symbolPosition + e.symbolBitOffset) →
      Packed 8 (concatBits W digits) (W * e.symbolPosition + e.symbolBitOffset) e.byteAccumulator e.byteBitCount em →
      ∃ em' acc cnt, (decLoop id id W digits fuel e (em.map (BitVec.ofNat 8))).2 = em'.map (BitVec.ofNat 8)
        ∧ Packed 8 (concatBits W digits) (concatBits W digits).length acc cnt em' := by
    intro fuel
    induction fuel with
    | zero =>
      rintro ⟨pos, off, acc, cnt⟩ em hp ho hz hf hpk
      simp only at hp ho hz hf hpk
      refine ⟨em, acc, cnt, rfl, ?_⟩
      have hle : W * pos + off ≤ W * digits.length := by
        rw [← hS]
        exact hpk.bound
      have : W * pos + off = W * digits.length := by omega
      rw [hS, ← this]
      exact hpk
    | succ fuel ih =>
      rintro ⟨pos, off, acc, cnt⟩ em hp ho hz hf hpk
      simp only at hp ho hz hf hpk
      by_cases hlt : pos < digits.length
      · have hroom := hpk.room
        obtain ⟨k, hk⟩ : ∃ k, k = min (W - off) (8 - cnt) := ⟨_, rfl⟩
        have hk1 : 0 < k := by omega
        have hkU : off + k ≤ W := by omega
        have hk8 : cnt + k ≤ 8 := by omega
        have hbits := pass_bits (U := W) hlt hkU
        have hmul : W * (pos + 1) ≤ W * digits.length := Nat.mul_le_mul_left _ hlt
        have hmul' : W * (pos + 1) = W * pos + W := Nat.mul_succ _ _
        have hin : W * pos + off + k ≤ (concatBits W digits).length := by
          rw [hS]
          omega
        have hnext : W * (if off + k = W then pos + 1 else pos) + (if off + k = W then 0 else off + k)
            = W * pos + off + k := by
          split <;> omega
        have hp' : (if off + k = W then pos + 1 else pos) ≤ digits.length := by split <;> omega
        have ho' : (if off + k = W then 0 else off + k) < W := by split <;> omega
        have hz' : (if off + k = W then pos + 1 else pos) = digits.length → (if off + k = W then 0 else off + k) = 0 := by
          split <;> omega
        have hf' : W * digits.length ≤ fuel + (W * (if off + k = W then pos + 1 else pos)
            + (if off + k = W then 0 else off + k)) := by
          rw [hnext]
          omega
        simp only [decLoop, id_eq, hlt, if_true, decStep, ← hk]
        by_cases hc : cnt + k = 8
        · rw [if_pos hc]
          have hpk' := hpk.emit hbits hin hc
          rw [← hnext] at hpk'
          obtain ⟨em', acc', cnt', h1, h2⟩ :=
            ih ⟨if off + k = W then pos + 1 else pos, if off + k = W then 0 else off + k, 0, 0⟩ _ hp' ho' hz' hf' hpk'
          refine ⟨em', acc', cnt', ?_, h2⟩
          rw [List.map_append] at h1
          exact h1
        · rw [if_neg hc]
          have hpk' := hpk.keep hbits hin (by omega)
          rw [← hnext] at hpk'
          exact ih ⟨_, _, _, _⟩ em hp' ho' hz' hf' hpk'
      · have : pos = digits.length := by omega
        subst this
        obtain rfl := hz rfl
        refine ⟨em, acc, cnt, by simp [decLoop], ?_⟩
        rw [hS]
        exact hpk
  obtain ⟨em, acc, cnt, h1, h2⟩ :=
    main (W * digits.length) DecValues.start [] (Nat.zero_le _) hW (fun _ => rfl) (by omega) (Packed.start _ (by decide))
  rw [unpackDigits, ← h2.finish.1]
  exact h1

/-- Everything a decode can be, its checks in their order. -/
theorem packDec_eq (s A : List Byte) (W B : Nat) (pad ci : Bool) :
    packDec s A W B pad ci =
      if pad ∧ s.length % B ≠ 0 then .error .invalidLength
      else
        match lookupAll A ci (if pad then stripPad s else s) with
        | none => .error .invalidCharacter
        | some digits =>
          if 0 < s.length ∧ (unpackDigits W digits).length = 0 then .error .invalidLength
          else .ok (unpackDigits W digits) := by
  simp only [packDec, textDigits, someBytes]
  by_cases h : pad ∧ s.length % B ≠ 0
  · rw [if_pos h, if_pos h]
  · rw [if_neg h, if_neg h]
    cases lookupAll A ci (if pad then stripPad s else s) <;> rfl

end Sys2Proof.Machine
end

