-- ==== Sys2Proof/Tests/Slice0.lean ====
section
/-! SUPPORT. Tests, each on one word, one function or one step, with expected values from the spec (the row of
95_test_vectors.md or the rule is named in the docstring); and a witness for the hypotheses of every statement of
Certificates/Slice0/Obligations.lean, named after it. -/

namespace Sys2Proof.Tests

open Sys2Proof Machine Safety

/-! ### States to test on -/

/-- After reset, capacities 64, an input in IN_BUF and its length in IN_LEN. -/
def idle (input : List Byte) : State :=
  { State.reset with
    inCap := ⟨63⟩
    outCap := ⟨63⟩
    inLen := BitVec.ofNat 32 input.length
    mem := Memory.setBytes [] inBase input }

/-- The same with a command word accepted. -/
def busyWith (w : Word) (input : List Byte) : State := accept w (idle input)

/-- What a host then reads: STATUS, and the stored bytes of OUT_BUF below OUT_LEN. -/
def readBack (s : State) : Word × List (Option Byte) :=
  (statusWord s.status, (List.range s.outLen.toNat).map (fun j => s.mem.get? (outBase + j)))

/-- STATUS and the output after one step on an accepted command word. -/
def outcome (w : Word) (input : List Byte) : Option (Word × List (Option Byte)) :=
  match step (busyWith w input) with
  | .next t => some (readBack t)
  | .fault _ => none
  | .refused _ => none

/-- A successful outcome. -/
def good (out : List Byte) : Option (Word × List (Option Byte)) := some (0x00000006, out.map some)

/-- A failed outcome with that STATUS. -/
def bad (status : Word) : Option (Word × List (Option Byte)) := some (status, [])

/-- The input of such a state is the bytes it was given. -/
theorem inputBytes_idle {input : List Byte} (h : input.length < 2 ^ 32) : inputBytes (idle input) = input := by
  apply List.ext_getElem?
  intro i
  have hl : (idle input).inLen.toNat = input.length := by
    show (BitVec.ofNat 32 input.length).toNat = input.length
    rw [BitVec.toNat_ofNat, Nat.mod_eq_of_lt h]
  by_cases hi : i < input.length
  · rw [getElem?_inputBytes _ (by rw [hl]; exact hi)]
    have hg : (idle input).mem.get? (inBase + i) = input[i]? := by
      show (Memory.setBytes [] inBase input).get? (inBase + i) = input[i]?
      rw [Memory.get?_setBytes, if_pos ⟨Nat.le_add_right _ _, Nat.add_lt_add_left hi _⟩, Nat.add_sub_cancel_left]
    rw [List.getElem?_eq_getElem hi] at hg ⊢
    simp [inByte, hg]
  · rw [List.getElem?_eq_none (by rw [length_inputBytes, hl]; omega), List.getElem?_eq_none (by omega)]

/-! ### Well-formedness -/

/-- ALPHA = 16 does not fit the 4-bit field (R47). -/
theorem test_wf_refuses_alpha_16 : Instr.wf (.b16enc false ⟨16, false, false⟩) = false := by decide

theorem test_wf_accepts_alpha_15 : Instr.wf (.chkadd true ⟨15, true, true⟩) = true := by decide

/-! ### Decoding: words written out from R47 and R54, bits CI PAD ALPHA T 0 OP -/

theorem test_decode_b16enc : decode 0b00000000000000000010000100000001 = .ok (.b16enc false ⟨1, false, true⟩) := by decide

theorem test_decode_b16dec : decode 0b00000000000000000010000110000010 = .ok (.b16dec true ⟨1, false, true⟩) := by decide

theorem test_decode_b32enc : decode 0b00000000000000000001010000000011 = .ok (.b32enc false ⟨4, true, false⟩) := by decide

theorem test_decode_b32dec : decode 0b00000000000000000011000110000100 = .ok (.b32dec true ⟨1, true, true⟩) := by decide

theorem test_decode_b58enc : decode 0b00000000000000000000001000000101 = .ok (.b58enc false ⟨2, false, false⟩) := by decide

theorem test_decode_b58dec : decode 0b00000000000000000000000110000110 = .ok (.b58dec true ⟨1, false, false⟩) := by decide

theorem test_decode_b64enc : decode 0b00000000000000000001000000000111 = .ok (.b64enc false ⟨0, true, false⟩) := by decide

theorem test_decode_b64dec : decode 0b00000000000000000001000010001000 = .ok (.b64dec true ⟨0, true, false⟩) := by decide

theorem test_decode_chkadd : decode 0b00000000000000000000111100001001 = .ok (.chkadd false ⟨15, false, false⟩) := by decide

theorem test_decode_chkver : decode 0b00000000000000000000000010001010 = .ok (.chkver true ⟨0, false, false⟩) := by decide

theorem test_decode_chkrem : decode 0b00000000000000000000100000001011 = .ok (.chkrem false ⟨8, false, false⟩) := by decide

theorem test_decode_b58encc : decode 0b00000000000000000000001010001100 = .ok (.b58encc true ⟨2, false, false⟩) := by decide

theorem test_decode_b58decc : decode 0b00000000000000000000000000001101 = .ok (.b58decc false ⟨0, false, false⟩) := by decide

/-- R55: a reserved opcode, RSV_L and RSV_H are refused, each by name. -/
theorem test_decode_refuses_reserved :
    decode 0x00000000 = .error (.reservedOpcode 0) ∧ decode 0x0000000E = .error (.reservedOpcode 0x0E)
      ∧ decode 0x0000003F = .error (.reservedOpcode 0x3F) ∧ decode 0x00000041 = .error .reservedLow
      ∧ decode 0x00004001 = .error .reservedHigh ∧ decode 0x80000003 = .error .reservedHigh := by decide

/-- R57's example word: `b32dec.t zbase32 pad ci`. -/
theorem test_encode_b32dec : encode (.b32dec true ⟨1, true, true⟩) = 0x00003184 := by decide

/-- A table row's number reaches the decoder, and the placed word is run by the very next step. -/
theorem test_table_word :
    decodeTableWord 32 0x1003 = some (.b32enc false ⟨0, true, false⟩)
      ∧ step (State.reset.withFetchWord 32 0x1003)
        = exec (.b32enc false ⟨0, true, false⟩) (State.reset.withFetchWord 32 0x1003) := ⟨by decide, rfl⟩

/-! ### One command -/

/-- H2 -/
theorem test_b16enc_lower : outcome 0x00000101 [0xAB, 0xCD] = good (text "abcd") := by decide

/-- H7 -/
theorem test_b16enc_alpha_2 : outcome 0x00000201 [0xAB] = bad 0x42 := by decide

/-- H11 -/
theorem test_b16dec_ci : outcome 0x00002102 (text "aBcD") = good [0xAB, 0xCD] := by decide

/-- H14: the length is checked before the characters. -/
theorem test_b16dec_odd : outcome 0x00000002 (text "abz") = bad 0x22 := by decide

/-- E4 -/
theorem test_b32enc_pad : outcome 0x00001003 (text "foo") = good (text "MZXW6===") := by decide

/-- E21 -/
theorem test_b32enc_hex : outcome 0x00000403 (text "foobar") = good (text "CPNMUOJ1E8") := by decide

/-- D24 -/
theorem test_b32dec_zbase32_ci : outcome 0x00002104 (text "AB") = good [0xC0] := by decide

/-- D13: only the trailing run of pads is stripped. -/
theorem test_b32dec_inner_pad : outcome 0x00001004 (text "MY=A====") = bad 0x12 := by decide

/-- N12 -/
theorem test_b58enc_ripple : outcome 0x00000105 [0, 0, 1, 2] = good (text "rrnT") := by decide

/-- N6 -/
theorem test_b58enc_hello : outcome 0x00000005 (text "Hello World!") = good (text "2NEpo7TZRRrLZSi2U") := by decide

/-- N30: CI is ignored. -/
theorem test_b58dec_ci : outcome 0x00002006 (text "2nEpo7TZRRrLZSi2U")
    = good [0x5E, 0x52, 0xE5, 0x07, 0x3D, 0x98, 0x83, 0xC6, 0x27, 0xE8, 0x64, 0x21] := by decide

/-- N27 -/
theorem test_b58dec_excluded : outcome 0x00000006 (text "1l") = bad 0x12 := by decide

/-- B11 -/
theorem test_b64enc_pad : outcome 0x00001007 [0xFB, 0xFF] = good (text "+/8=") := by decide

/-- B12 -/
theorem test_b64enc_alpha_1 : outcome 0x00001107 (text "f") = bad 0x42 := by decide

/-- B28: CI is ignored. -/
theorem test_b64dec_ci : outcome 0x00003008 (text "zg==") = good [0xCE] := by decide

/-- B18 -/
theorem test_b64dec_one_symbol : outcome 0x00001008 (text "Z===") = bad 0x22 := by decide

/-- A stand-in for HASH: the length of its input, then three fixed bytes. -/
def lengthHash (b : List Byte) : Config.Digest := ⟨BitVec.ofNat 8 b.length, 0xAA, 0xBB, 0xCC, [0xDD]⟩

/-- R92, R94 by hand: the inner hash is 5 bytes long. -/
theorem test_chkadd_double_hash : addChecksum lengthHash [1, 2, 3] = [1, 2, 3, 5, 0xAA, 0xBB, 0xCC] := by decide

/-- K5: ALPHA is ignored. -/
theorem test_chkadd_alpha : step (busyWith 0x00000F09 [1]) = .next { (match step (busyWith 0x00000009 [1]) with
    | .next t => t
    | _ => State.reset) with cmd := 0x00000F09 } := rfl

/-- K13 and K14, for the stand-in. -/
theorem test_chkver_trailer : verifyChecksum lengthHash [1, 2, 3, 5, 0xAA, 0xBB, 0xCC] = .ok []
    ∧ verifyChecksum lengthHash [1, 2, 3, 5, 0xAA, 0xBB, 0xCD] = .error .checksumMismatch := by decide

/-- K19 -/
theorem test_chkver_short : outcome 0x0000008A [] = bad 0x122 := by decide

/-- K15 -/
theorem test_chkrem : outcome 0x0000000B [0x01, 0x02, 0xAA, 0xBB, 0xCC, 0xDD] = good [0x01, 0x02] := by decide

/-- K16 -/
theorem test_chkrem_short : outcome 0x0000000B [1, 2, 3] = bad 0x22 := by decide

/-- R97 by hand, for the stand-in on an empty input: 0x05AABBCC has the base-58 digits 8, 23, 16, 32, 52. -/
theorem test_b58encc : b58EncodeChecked lengthHash (base58Rom.getD 0 []) [] = text "9QHZu" := by decide

/-- C8 -/
theorem test_b58encc_alpha_3 : outcome 0x0000030C [] = bad 0x42 := by decide

/-- C19: decoding comes first, and T sets FERR. -/
theorem test_b58decc_bad_symbol : outcome 0x0000008D (text "0") = bad 0x112 := by decide

/-- C16 -/
theorem test_b58decc_short : outcome 0x0000000D (text "5Q") = bad 0x22 := by decide

/-! ### What a host reads of OUT_BUF -/

/-- R41 and R42 by hand: after a success with `41 42` a halfword read gives both bytes, low lane first. -/
theorem test_output_read : busRead 0x20000 .b2 (succeed [0x41, 0x42] (busyWith 0x00000001 [1])) = some 0x00004241 := by decide

/-! ### The working state (R28) -/

/-- R79 by hand: three bytes are 24 bits, so four 5-bit symbols, and 4 bits stay in the accumulator. -/
theorem test_encoder_registers :
    (Work.start.packEnc [0xFF, 0xFF, 0xFB] (base32Rom.getD 0 []) 5 8 false).1.enc = ⟨3, 0, 0b1011, 4⟩ := by decide

/-- R81 by hand: three 6-bit digits are 18 bits, so two bytes, and 2 bits stay in the accumulator; what the registers
held before plays no part. -/
theorem test_decoder_registers :
    ({ Work.start with dec := ⟨5, 5, 5, 5⟩ }.unpackDigits 6 [0x3F, 0x3F, 0x3E]).1.dec = ⟨3, 0, 0b10, 2⟩
    ∧ ({ Work.start with dec := ⟨5, 5, 5, 5⟩ }.unpackDigits 6 [0x3F, 0x3F, 0x3E]).2 = [0xFF, 0xFF] := by decide

/-- R87 and R88 by hand: 0x0102 = 258 = 4 * 58 + 26; the work buffer is divided down to nothing, and grows by a byte
where a carry is left. -/
theorem test_work_buffer :
    divBytes 58 0 [0x01, 0x02] = ([0, 4], 26) ∧ divLoop 58 4 [0x01, 0x02] [] = ([], [4, 26])
    ∧ mulAdd 58 [0x04] 26 = [0x01, 0x02] ∧ mulAdd 58 [] 0 = []
    ∧ (Work.start.b58Decode (base58Rom.getD 0 []) (text "115T")).1.bigInteger = [0x01, 0x02] := by decide

/-- R92 by hand: after the two applications the hash unit holds the whole second output. -/
theorem test_hash_unit :
    (Work.start.checksum lengthHash [1, 2, 3]).1.hashState = [5, 0xAA, 0xBB, 0xCC, 0xDD] := by decide

/-! ### Checks, flags, the bus and `irq` -/

/-- X7 -/
theorem test_illegal_throwing : outcome 0x0000008E [] = bad 0x162 := by decide

/-- X11 and X12 -/
theorem test_output_capacity :
    (match step { busyWith 0x00000001 (List.replicate 9 0) with outCap := ⟨15⟩ } with
      | .next t => readBack t
      | _ => (0, [])) = (0x52, [])
    ∧ (match step { busyWith 0x00000001 (List.replicate 8 0) with outCap := ⟨15⟩ } with
      | .next t => t.outLen
      | _ => 0) = 16 := by decide

/-- U8, U9 and U10 -/
theorem test_bus_lanes :
    (transact (.write 0x10000 .b4 0x64636261) (idle [])).mem = Memory.setBytes [] inBase (text "abcd")
    ∧ busRead 0x10002 .b2 (idle (text "abcd")) = some 0x00006463
    ∧ busRead 0x10001 .b1 (idle (text "abcd")) = some 0x00000062 := by decide

/-- U1, U2, U3, U6 and U7 -/
theorem test_bus_errors :
    busRead 0x004 .b1 (idle []) = none ∧ busRead 0x006 .b4 (idle []) = none ∧ busRead 0x020 .b4 (idle []) = none
    ∧ busRead 0x10001 .b2 (idle []) = none ∧ busRead 0x10002 .b4 (idle []) = none := by decide

/-- U5, U11 and U12 -/
theorem test_bus_refused_writes :
    busWrite 0x20000 .b1 0 (idle []) = none ∧ busWrite 0x10000 .b1 0x41 (busyWith 1 [0]) = none
    ∧ busWrite 0x008 .b4 5 (busyWith 1 [0]) = none := by decide

/-- U16: STATUS 0x332 is done, ERR 3, FERR and OVR. -/
theorem test_status_acknowledge :
    statusWord ⟨false, true, false, 3, true, true⟩ = 0x332
    ∧ statusWord (clearFlags 0x302 ⟨false, true, false, 3, true, true⟩) = 0x30 := by decide

/-- U20 -/
theorem test_irq_enable_bits : irqEnWord (irqEnOf 0xFFFFFFFF) = 3 := by decide

/-- Q1 to Q6 -/
theorem test_irq :
    irqLevel ⟨false, true, false, 3, true, false⟩ ⟨false, false⟩ = false
    ∧ irqLevel ⟨false, true, true, 0, false, false⟩ ⟨true, false⟩ = true
    ∧ irqLevel ⟨false, true, true, 0, false, false⟩ ⟨false, true⟩ = false
    ∧ irqLevel ⟨false, true, false, 3, true, false⟩ ⟨false, true⟩ = true
    ∧ irqLevel ⟨false, false, false, 3, true, false⟩ ⟨false, true⟩ = true
    ∧ irqLevel ⟨true, false, false, 0, false, false⟩ ⟨true, false⟩ = false := by decide

/-- R58: a poll reads until its value appears, and is then done. -/
theorem test_poll :
    (hostTurn { busyWith 1 [] with program := [.poll 0x004 1 0] }).program = [.poll 0x004 1 0]
    ∧ (hostTurn { idle [] with program := [.poll 0x004 1 0] }).program = [] := by decide

/-- R57's example and the `.std` forms of R59. -/
theorem test_assemble :
    assemble "b32dec.t zbase32 pad ci" = some 0x00003184 ∧ assemble "b64enc.std" = some 0x00001007
    ∧ assemble "b16enc crockford" = none := by decide

/-! ### Witnesses: command words and steps -/

theorem witness_DecodeEncodeRoundTrip :
    Instr.wf (.b32dec true ⟨15, true, true⟩) = true ∧ Instr.wf (.b58decc false ⟨0, false, false⟩) = true := by decide

theorem witness_DecodeSelectsByMaskAndMatch :
    decode 0x00003F8D = .ok (.b58decc true ⟨15, true, true⟩)
    ∧ (0x00003F8D : Word) &&& 0xFFFFC07F = (Instr.b58decc true ⟨15, true, true⟩).opcode.setWidth 32 := by decide

theorem witness_StepRunsTheDecodedCommand :
    ((busyWith 0x1003 [1]).status.busy = true ∧ decode (busyWith 0x1003 [1]).cmd = .ok (.b32enc false ⟨0, true, false⟩)
      ∧ (busyWith 0x1003 [1]).turns = [])
    ∧ ({ busyWith 0x1003 [1] with turns := [.engine, .host] }.status.busy = true
      ∧ decode { busyWith 0x1003 [1] with turns := [.engine, .host] }.cmd = .ok (.b32enc false ⟨0, true, false⟩)
      ∧ { busyWith 0x1003 [1] with turns := [.engine, .host] }.turns = .engine :: [.host])
    ∧ decodeTableWord 32 0x1003 = some (.b32enc false ⟨0, true, false⟩)
    ∧ ({ idle [] with turns := [.engine, .host] }.turns = .engine :: [.host]
      ∧ { idle [] with turns := [.engine, .host] }.status.busy = false)
    ∧ ({ idle [] with turns := [.host] }.turns = .host :: [] ∧ { idle [] with turns := [.host] }.program = [])
    ∧ ((idle []).turns = [] ∧ (idle []).status.busy = false
      ∧ { idle [] with program := [wr32 0x008 1, .poll 0x004 1 0] }.program = .txn (.write 0x008 .b4 1) :: [.poll 0x004 1 0])
    ∧ (pollDone 1 0 (transact (.read 0x004 .b4) (idle [])).answer = true
      ∧ pollDone 1 0 (transact (.read 0x004 .b4) (busyWith 0x1003 [1])).answer = false) := by decide

/-- One word for each of the four ways to be illegal, at the edge of its range. -/
theorem witness_IllegalWordCompletesIllegal :
    ((0x00004001 : Word).extractLsb' 14 18 ≠ 0 ∧ (0x00000041 : Word).getLsbD 6 = true
      ∧ (0x00000080 : Word).extractLsb' 0 6 = 0 ∧ 0x0E ≤ ((0x0000000E : Word).extractLsb' 0 6).toNat)
    ∧ (idle []).status.busy = false
    ∧ ((busyWith 0x0000000E []).status.busy = true ∧ (busyWith 0x0000000E []).cmd = 0x0000000E
      ∧ (busyWith 0x0000000E []).turns = [])
    ∧ ({ busyWith 0x0000000E [] with turns := [.engine, .reset] }.status.busy = true
      ∧ { busyWith 0x0000000E [] with turns := [.engine, .reset] }.cmd = 0x0000000E
      ∧ { busyWith 0x0000000E [] with turns := [.engine, .reset] }.turns = .engine :: [.reset]) := by decide

/-! ### Witnesses: the bus and the registers -/

theorem witness_CommandWriteIsAcceptedOrDropped :
    (idle [1]).status.busy = false ∧ (busyWith 1 [1]).status.busy = true := by decide

/-- A state in the middle of a command meets the invariant. -/
theorem inv_busyWith : Inv (busyWith 0x00000001 [1, 2]) where
  memWf := by decide
  memInBuffers := by decide
  busyClear := by decide
  okNoErr := by decide
  errCode := by decide
  outLenOk := by decide
  outLenFits := by decide
  outStored j hj := absurd hj (Nat.not_lt_zero j)
  workBusy := by decide
  epochDrawn := by decide

/-- A state after a successful command, with two bytes of output. -/
def doneState : State := succeed [0x41, 0x42] (busyWith 0x00000001 [1])

theorem inv_doneState : Inv doneState where
  memWf := by decide
  memInBuffers := by decide
  busyClear := by decide
  okNoErr := by decide
  errCode := by decide
  outLenOk := by decide
  outLenFits := by decide
  outStored j hj := by
    have h2 : j < 2 := hj
    interval_cases j <;> decide
  workBusy := by decide
  epochDrawn := by decide

/-- The first and the last word of each buffer, and a stored byte. -/
theorem witness_InputIsFixedWhileBusy :
    (busyWith 0x00000001 [1, 2]).status.busy = true ∧ Inv (busyWith 0x00000001 [1, 2])
    ∧ (inBase ≤ (0x10000 : Offset).toNat
      ∧ (0x10000 : Offset).toNat + Size.b4.bytes ≤ inBase + (busyWith 0x00000001 [1, 2]).inCap.bytes
      ∧ (0x10000 : Offset).toNat % Size.b4.bytes = 0)
    ∧ (inBase ≤ (0x1003F : Offset).toNat ∧ (0x1003F : Offset).toNat < inBase + (busyWith 0x00000001 [1, 2]).inCap.bytes)
    ∧ (outBase ≤ (0x20000 : Offset).toNat
      ∧ (0x20000 : Offset).toNat + Size.b1.bytes ≤ outBase + (busyWith 0x00000001 [1, 2]).outCap.bytes)
    ∧ (outBase ≤ (0x2003C : Offset).toNat
      ∧ (0x2003C : Offset).toNat + Size.b4.bytes ≤ outBase + (busyWith 0x00000001 [1, 2]).outCap.bytes
      ∧ (0x2003C : Offset).toNat % Size.b4.bytes = 0)
    ∧ (busyWith 0x00000001 [1, 2]).mem.get? ((0x10000 : Offset).toNat + 1) = some 2
    ∧ (idle [1, 2]).status.busy = false := by
  refine ⟨by decide, inv_busyWith, ?_⟩
  decide

/-- The first and the last offset of each reserved range. -/
theorem witness_ReservedOffsetsAnswerBusErr :
    (0x20 ≤ (0x00020 : Offset).toNat ∧ (0x00020 : Offset).toNat < inBase)
    ∧ (0x20 ≤ (0x0FFFF : Offset).toNat ∧ (0x0FFFF : Offset).toNat < inBase)
    ∧ (inBase + (idle []).inCap.bytes ≤ (0x10040 : Offset).toNat ∧ (0x10040 : Offset).toNat < outBase)
    ∧ (inBase + (idle []).inCap.bytes ≤ (0x1FFFF : Offset).toNat ∧ (0x1FFFF : Offset).toNat < outBase)
    ∧ outBase + (idle []).outCap.bytes ≤ (0x20040 : Offset).toNat
    ∧ outBase + (idle []).outCap.bytes ≤ (0x3FFFF : Offset).toNat := by decide

theorem witness_RegisterAccessForm :
    ((0x01C : Offset).toNat < 0x20 ∧ (Size.b2 ≠ .b4 ∨ (0x01C : Offset).toNat % 4 ≠ 0))
    ∧ ((0x01F : Offset).toNat < 0x20 ∧ (Size.b4 ≠ .b4 ∨ (0x01F : Offset).toNat % 4 ≠ 0))
    ∧ ((0x01C : Offset).toNat < 0x20 ∧ Size.b4 = .b4 ∧ (0x01C : Offset).toNat % 4 = 0) := by decide

/-- In a 63-byte IN_BUF and a 64-byte OUT_BUF: an access out of line, one over the end, and the last one inside; U5's
write at the first offset of OUT_BUF, which the transaction refuses. -/
theorem witness_BufferAccessForm :
    (inBase ≤ (0x10001 : Offset).toNat ∧ (0x10001 : Offset).toNat < inBase + Config.Capacity.bytes ⟨62⟩
      ∧ (0x10001 : Offset).toNat % Size.b2.bytes ≠ 0)
    ∧ (inBase ≤ (0x1003C : Offset).toNat ∧ (0x1003C : Offset).toNat < inBase + Config.Capacity.bytes ⟨62⟩
      ∧ inBase + Config.Capacity.bytes ⟨62⟩ < (0x1003C : Offset).toNat + Size.b4.bytes)
    ∧ (outBase ≤ (0x2003C : Offset).toNat ∧ (0x2003C : Offset).toNat < outBase + (idle []).outCap.bytes
      ∧ (0x2003C : Offset).toNat % Size.b4.bytes = 0
      ∧ (0x2003C : Offset).toNat + Size.b4.bytes ≤ outBase + (idle []).outCap.bytes)
    ∧ (outBase ≤ (0x20000 : Offset).toNat ∧ (0x20000 : Offset).toNat < outBase + (idle []).outCap.bytes
      ∧ (transact (.write 0x20000 .b1 0) (idle [])).answer = some (.busErr 0x20000)) := by decide

theorem succeeds_b16enc : Succeeds (.b16enc false ⟨0, false, false⟩) (busyWith 0x00000001 [0xAB]) (text "AB") :=
  succeeds_of_result rfl

/-- The last aligned access of each buffer; a stored and an unwritten byte of IN_BUF; the last byte below OUT_LEN and the
first above; the whole output of a command. -/
theorem witness_BusIsLittleEndian :
    ((0x1003C : Offset).toNat % Size.b4.bytes = 0 ∧ inBase ≤ (0x1003C : Offset).toNat
      ∧ (0x1003C : Offset).toNat + Size.b4.bytes ≤ inBase + (idle []).inCap.bytes ∧ (idle []).status.busy = false)
    ∧ ((0x2003E : Offset).toNat % Size.b2.bytes = 0 ∧ outBase ≤ (0x2003E : Offset).toNat
      ∧ (0x2003E : Offset).toNat + Size.b2.bytes ≤ outBase + (idle []).outCap.bytes)
    ∧ (inBase ≤ (0x10001 : Offset).toNat ∧ (0x10001 : Offset).toNat + Size.b1.bytes ≤ inBase + doneState.inCap.bytes
      ∧ doneState.mem.get? (0x10000 : Offset).toNat = some 1 ∧ doneState.mem.get? (0x10001 : Offset).toNat = none)
    ∧ (doneState.status.busy = false ∧ (0x20000 : Offset).toNat - outBase + 1 < doneState.outLen.toNat
      ∧ doneState.mem.get? ((0x20000 : Offset).toNat + 1) = some 0x42)
    ∧ doneState.outLen.toNat ≤ (0x20002 : Offset).toNat - outBase + 0
    ∧ (∃ t, exec (.b16enc false ⟨0, false, false⟩) (busyWith 0x00000001 [0xAB]) = .next t
      ∧ CompletesOk (busyWith 0x00000001 [0xAB]) t (text "AB"))
    ∧ ((0x20000 : Offset).toNat % Size.b2.bytes = 0
      ∧ (0x20000 : Offset).toNat + Size.b2.bytes ≤ outBase + (text "AB").length) := by
  refine ⟨by decide, by decide, by decide, by decide, by decide, succeeds_b16enc, by decide⟩

theorem witness_ResetsClearTheBlock :
    { busyWith 1 [1] with turns := [.reset, .host] }.turns = .reset :: [.host]
    ∧ (0x00000001 : Word).getLsbD 0 = true ∧ (0xFFFFFFFE : Word).getLsbD 0 = false := by decide

theorem witness_CapacityRegistersNeverChange : ∃ t, step (busyWith 0x00000001 [1]) = .next t := ⟨_, rfl⟩

theorem fails_b16dec : Fails (.b16dec true ⟨0, false, false⟩) (busyWith 0x00000082 (text "A")) .invalidLength :=
  fails_of_result rfl

/-- A success with two bytes and a failure; an illegal word; an accepted CMD write; a host's turn and a reset's during a
command. -/
theorem witness_OutputLengthRegister :
    (∃ t, exec (.b16enc false ⟨0, false, false⟩) (busyWith 0x00000001 [0xAB]) = .next t ∧ t.status.ok = true
      ∧ t.outLen = 2)
    ∧ (∃ t, exec (.b16dec true ⟨0, false, false⟩) (busyWith 0x00000082 (text "A")) = .next t ∧ t.status.ok = false)
    ∧ ((busyWith 0x0000000E []).status.busy = true
      ∧ decode (busyWith 0x0000000E []).cmd = .error (.reservedOpcode 0x0E)
      ∧ ∃ t, engineTurn (busyWith 0x0000000E []) = .next t)
    ∧ doneState.status.busy = false
    ∧ ({ busyWith 1 [1] with turns := [.host] }.status.busy = true ∧ { busyWith 1 [1] with turns := [.host] }.outLen = 0
      ∧ ∃ t, step { busyWith 1 [1] with turns := [.host] } = .next t ∧ t.status.busy = true)
    ∧ (∃ t, step { doneState with turns := [.reset] } = .next t ∧ doneState.outLen = 2)
    ∧ (0x00000001 : Word).getLsbD 0 = true :=
  ⟨⟨_, rfl, rfl, rfl⟩, ⟨_, rfl, rfl⟩, ⟨rfl, rfl, _, rfl⟩, rfl, ⟨rfl, rfl, _, rfl, rfl⟩, ⟨_, rfl, rfl⟩, rfl⟩

theorem witness_InterruptLineFollowsStatus :
    busRead 0x004 .b4 doneState = some 0x00000006 ∧ busRead 0x010 .b4 doneState = some 0
    ∧ ∃ t, exec (.b16enc false ⟨0, false, false⟩) (busyWith 0x00000001 [1]) = .next t :=
  ⟨by decide, by decide, _, rfl⟩

/-! ### Witnesses: what each command does -/

theorem witness_Base16EncodeResult :
    rom .base16 1 = some (text "0123456789abcdef") ∧ InputFits (idle (List.replicate 32 0xAB))
    ∧ 2 * (idle (List.replicate 32 0xAB)).inLen.toNat ≤ (idle (List.replicate 32 0xAB)).outCap.bytes := by
  refine ⟨by decide, ?_, by decide⟩
  show (idle (List.replicate 32 0xAB)).inLen.toNat ≤ (idle (List.replicate 32 0xAB)).inCap.bytes
  decide

theorem inputFits_idle {input : List Byte} (h : input.length ≤ 64) : InputFits (idle input) := by
  show (BitVec.ofNat 32 input.length).toNat ≤ 64
  rw [BitVec.toNat_ofNat, Nat.mod_eq_of_lt (by omega)]
  exact h

theorem outputFits_idle {input out : List Byte} (h : out.length ≤ 64) : OutputFits (idle input) out := h

theorem witness_Base16DecodeResult :
    rom .base16 0 = some (text "0123456789ABCDEF") ∧ InputFits (idle (text "aB"))
    ∧ (idle (text "aB")).inLen.toNat % 2 = 0 ∧ (idle (text "aB")).inLen.toNat / 2 ≤ (idle (text "aB")).outCap.bytes
    ∧ ∀ j, j < (idle (text "aB")).inLen.toNat →
        lookup (text "0123456789ABCDEF") true (inByte (idle (text "aB")) j) = some (10 + j) := by
  refine ⟨by decide, inputFits_idle (by decide), by decide, by decide, fun j hj => ?_⟩
  have h2 : j < 2 := hj
  interval_cases j <;> decide

theorem witness_Base32EncodeResult :
    rom .base32 4 = some (base32Rom.getD 4 []) ∧ InputFits (idle (text "foo"))
    ∧ OutputFits (idle (text "foo")) (groupEncode 5 8 (base32Rom.getD 4 []) (inputBytes (idle (text "foo"))) true) := by
  refine ⟨by decide, inputFits_idle (by decide), ?_⟩
  rw [inputBytes_idle (by decide)]
  exact outputFits_idle (by decide)

theorem witness_Base64EncodeResult :
    rom .base64 0 = some (base64Rom.getD 0 []) ∧ InputFits (idle (text "fo"))
    ∧ OutputFits (idle (text "fo")) (groupEncode 6 4 (base64Rom.getD 0 []) (inputBytes (idle (text "fo"))) true) := by
  refine ⟨by decide, inputFits_idle (by decide), ?_⟩
  rw [inputBytes_idle (by decide)]
  exact outputFits_idle (by decide)

/-- A padded text, and an unpadded one of the shortest length that gives a byte. -/
theorem witness_Base32DecodeResult :
    (rom .base32 0 = some (base32Rom.getD 0 []) ∧ InputFits (idle (text "MY======"))
      ∧ inputBytes (idle (text "MY======")) = text "MY" ++ List.replicate 6 padChar
      ∧ (if true then (text "MY").getLast? ≠ some padChar ∧ (idle (text "MY======")).inLen.toNat % 8 = 0 else 6 = 0)
      ∧ (text "MY").map (lookup (base32Rom.getD 0 []) false) = [12, 24].map some
      ∧ ((idle (text "MY======")).inLen.toNat = 0 ∨ 2 ≤ [12, 24].length)
      ∧ OutputFits (idle (text "MY======")) (groupDecode 5 [12, 24]))
    ∧ (inputBytes (idle (text "my")) = text "my" ++ List.replicate 0 padChar
      ∧ (text "my").map (lookup (base32Rom.getD 0 []) true) = [12, 24].map some) := by
  refine ⟨⟨by decide, inputFits_idle (by decide), ?_, by decide, by decide, by decide, outputFits_idle (by decide)⟩, ?_,
    by decide⟩ <;> rw [inputBytes_idle (by decide)] <;> decide

theorem witness_Base64DecodeResult :
    (rom .base64 0 = some (base64Rom.getD 0 []) ∧ InputFits (idle (text "Zg=="))
      ∧ inputBytes (idle (text "Zg==")) = text "Zg" ++ List.replicate 2 padChar
      ∧ (if true then (text "Zg").getLast? ≠ some padChar ∧ (idle (text "Zg==")).inLen.toNat % 4 = 0 else 2 = 0)
      ∧ (text "Zg").map (lookup (base64Rom.getD 0 []) false) = [25, 32].map some
      ∧ ((idle (text "Zg==")).inLen.toNat = 0 ∨ 2 ≤ [25, 32].length)
      ∧ OutputFits (idle (text "Zg==")) (groupDecode 6 [25, 32]))
    ∧ (inputBytes (idle []) = [] ++ List.replicate 0 padChar ∧ (idle []).inLen.toNat = 0) := by
  refine ⟨⟨by decide, inputFits_idle (by decide), ?_, by decide, by decide, by decide, outputFits_idle (by decide)⟩, ?_,
    by decide⟩ <;> rw [inputBytes_idle (by decide)] <;> decide

/-- N1: `[00 00 01 02]`, whose value is 258 = 4 * 58 + 26. -/
theorem witness_Base58EncodeResult :
    rom .base58 0 = some (base58Rom.getD 0 []) ∧ InputFits (idle [0, 0, 1, 2])
    ∧ IsLeadingRun 0 (inputBytes (idle [0, 0, 1, 2])) 2
    ∧ IsNumeral 58 (weightedSum 256 ((inputBytes (idle [0, 0, 1, 2])).map BitVec.toNat)) [4, 26]
    ∧ OutputFits (idle [0, 0, 1, 2])
        (List.replicate 2 (symbol (base58Rom.getD 0 []) 0) ++ [4, 26].map (symbol (base58Rom.getD 0 []))) := by
  rw [inputBytes_idle (by decide)]
  exact ⟨by decide, inputFits_idle (by decide), isLeadingRun_iff.mpr (by decide), ⟨by decide, by decide, by decide⟩,
    outputFits_idle (by decide)⟩

/-- N18: `"115T"`. -/
theorem witness_Base58DecodeResult :
    rom .base58 0 = some (base58Rom.getD 0 []) ∧ InputFits (idle (text "115T"))
    ∧ IsLeadingRun (symbol (base58Rom.getD 0 []) 0) (inputBytes (idle (text "115T"))) 2
    ∧ ((inputBytes (idle (text "115T"))).drop 2).map (lookup (base58Rom.getD 0 []) false) = [4, 26].map some
    ∧ IsNumeral 256 (weightedSum 58 [4, 26]) [1, 2]
    ∧ OutputFits (idle (text "115T")) (List.replicate 2 0 ++ [1, 2].map (BitVec.ofNat 8)) := by
  rw [inputBytes_idle (by decide)]
  exact ⟨by decide, inputFits_idle (by decide), isLeadingRun_iff.mpr (by decide), by decide,
    ⟨by decide, by decide, by decide⟩, outputFits_idle (by decide)⟩

theorem witness_ChecksumAddResult :
    InputFits (idle [1]) ∧ (idle [1]).inLen.toNat + 4 ≤ (idle [1]).outCap.bytes :=
  ⟨inputFits_idle (by decide), by decide⟩

/-- An input with its checksum, whatever HASH is. -/
def checked (p : List Byte) : List Byte := addChecksum Config.hash p

theorem length_checked (p : List Byte) : (checked p).length = p.length + 4 := by simp [checked, addChecksum]

theorem witness_ChecksumVerifyResult :
    InputFits (idle (checked [1]))
    ∧ inputBytes (idle (checked [1])) = [1] ++ (Config.hash (Config.hash [1]).bytes).bytes.take 4 := by
  refine ⟨inputFits_idle (by rw [length_checked]; decide), ?_⟩
  rw [inputBytes_idle (by rw [length_checked]; decide)]
  rfl

theorem witness_ChecksumRemoveResult :
    InputFits (idle [1, 2, 3, 4]) ∧ inputBytes (idle [1, 2, 3, 4]) = [] ++ [1, 2, 3, 4]
    ∧ ([1, 2, 3, 4] : List Byte).length = 4 ∧ OutputFits (idle [1, 2, 3, 4]) [] := by
  rw [inputBytes_idle (by decide)]
  exact ⟨inputFits_idle (by decide), rfl, rfl, outputFits_idle (by decide)⟩

theorem isNumeral_toDigits {base : Nat} (h : 2 ≤ base) (v : Nat) : IsNumeral base v (toDigits base v) :=
  ⟨fun _ => toDigits_lt h, toDigits_head h v, by rw [weightedSum_eq, ofDigits_toDigits h]⟩

/-- The empty payload: four checksum bytes, at most six base-58 digits. -/
theorem witness_Base58EncodeCheckedResult :
    ∃ (q : List Byte) (z : Nat) (ds : List Nat),
      rom .base58 2 = some (base58Rom.getD 2 []) ∧ InputFits (idle [])
      ∧ q = inputBytes (idle []) ++ (Config.hash (Config.hash (inputBytes (idle []))).bytes).bytes.take 4
      ∧ IsLeadingRun 0 q z ∧ IsNumeral 58 (weightedSum 256 (q.map BitVec.toNat)) ds
      ∧ OutputFits (idle [])
          (List.replicate z (symbol (base58Rom.getD 2 []) 0) ++ ds.map (symbol (base58Rom.getD 2 []))) := by
  obtain ⟨q, hq⟩ : ∃ q, q = inputBytes (idle []) ++ checksum Config.hash (inputBytes (idle [])) := ⟨_, rfl⟩
  have hl : q.length = 4 := by rw [hq, inputBytes_idle (by decide)]; simp
  have hz := (isLeadingRun_iff (c := 0) (s := q)).mpr rfl
  refine ⟨q, _, toDigits 58 (weightedSum 256 (q.map BitVec.toNat)), by decide, inputFits_idle (by decide), hq, hz,
    isNumeral_toDigits (by decide) _, outputFits_idle ?_⟩
  have hv : weightedSum 256 (q.map BitVec.toNat) < 58 ^ 6 := by
    match q, hl with
    | [a, b, c, d], _ =>
      have := a.isLt
      have := b.isLt
      have := c.isLt
      have := d.isLt
      simp only [weightedSum_eq, ofDigits, List.map_cons, List.map_nil, List.foldl_cons, List.foldl_nil]
      omega
  have hd : (toDigits 58 (weightedSum 256 (q.map BitVec.toNat))).length ≤ 6 := by
    rw [toDigits_eq (by decide), List.length_reverse]
    exact (Nat.digits_length_le_iff (by decide) _).mpr hv
  have := hz.bound
  simp only [List.length_append, List.length_replicate, List.length_map]
  omega

theorem nodup_bitcoin : (base58Rom.getD 0 []).Nodup := by decide

/-- A text whose base-58 decoding is a given sequence that does not begin with a zero byte. -/
theorem exists_text {q : List Byte} (hq : q.head? ≠ some 0) :
    ∃ (s : List Byte) (digits : List Nat), IsLeadingRun (symbol (base58Rom.getD 0 []) 0) s 0
      ∧ s = digits.map (symbol (base58Rom.getD 0 []))
      ∧ (s.drop 0).map (lookup (base58Rom.getD 0 []) false) = digits.map some
      ∧ digits = toDigits 58 (weightedSum 256 (q.map BitVec.toNat))
      ∧ IsNumeral 256 (weightedSum 58 digits) (q.map BitVec.toNat) := by
  obtain ⟨ds, hds⟩ : ∃ ds, ds = toDigits 58 (weightedSum 256 (q.map BitVec.toNat)) := ⟨_, rfl⟩
  have hlt : ∀ d ∈ ds, d < (base58Rom.getD 0 []).length := fun d hd => by
    rw [hds] at hd
    exact toDigits_lt (by decide) hd
  refine ⟨ds.map (symbol (base58Rom.getD 0 [])), ds, ?_, rfl, ?_, hds, ?_, ?_, ?_⟩
  · refine ⟨Nat.zero_le _, fun i hi => absurd hi (Nat.not_lt_zero i), ?_⟩
    have hh := toDigits_head (base := 58) (by decide) (weightedSum 256 (q.map BitVec.toNat))
    rw [← hds] at hh
    cases ds with
    | nil => simp
    | cons d rest =>
      intro h
      have h1 := (indexOf_iff nodup_bitcoin).mpr (getElem?_symbol (hlt d (by simp)))
      have h2 := (indexOf_iff nodup_bitcoin).mpr (getElem?_symbol (A := base58Rom.getD 0 []) (d := 0) (by decide))
      have h3 : symbol (base58Rom.getD 0 []) d = symbol (base58Rom.getD 0 []) 0 := by simpa using h
      rw [h3, h2] at h1
      exact hh (by simp [Option.some.inj h1.symm])
  · exact lookupAll_some_iff.mp (lookupAll_symbols nodup_bitcoin false hlt)
  · intro d hd
    obtain ⟨x, -, rfl⟩ := List.mem_map.mp hd
    exact x.isLt
  · cases q with
    | nil => simp
    | cons x rest =>
      intro h
      apply hq
      have : x.toNat = 0 := by simpa using h
      rw [List.head?_cons, BitVec.eq_of_toNat_eq (y := 0) this]
  · rw [hds, weightedSum_eq, weightedSum_eq, ofDigits_toDigits (by decide)]

/-- The payload `[01]` and its checksum, whatever HASH is: five bytes, at most seven base-58 digits. -/
theorem witness_Base58DecodeCheckedResult :
    ∃ (s : List Byte) (digits bs : List Nat),
      rom .base58 0 = some (base58Rom.getD 0 []) ∧ InputFits (idle s)
      ∧ IsLeadingRun (symbol (base58Rom.getD 0 []) 0) (inputBytes (idle s)) 0
      ∧ ((inputBytes (idle s)).drop 0).map (lookup (base58Rom.getD 0 []) false) = digits.map some
      ∧ IsNumeral 256 (weightedSum 58 digits) bs
      ∧ List.replicate 0 0 ++ bs.map (BitVec.ofNat 8) = [1] ++ (Config.hash (Config.hash [1]).bytes).bytes.take 4
      ∧ OutputFits (idle s) [1] := by
  obtain ⟨s, ds, h1, h2, h3, h4, h5⟩ := exists_text (q := checked [1]) (by simp [checked, addChecksum])
  have hv : weightedSum 256 ((checked [1]).map BitVec.toNat) < 58 ^ 7 := by
    have hl := length_checked [1]
    match checked [1], hl with
    | [a, b, c, d, e], _ =>
      have := a.isLt
      have := b.isLt
      have := c.isLt
      have := d.isLt
      have := e.isLt
      simp only [weightedSum_eq, ofDigits, List.map_cons, List.map_nil, List.foldl_cons, List.foldl_nil]
      omega
  have hs : s.length ≤ 7 := by
    rw [h2, List.length_map, h4, toDigits_eq (by decide), List.length_reverse]
    exact (Nat.digits_length_le_iff (by decide) _).mpr hv
  refine ⟨s, ds, (checked [1]).map BitVec.toNat, by decide, inputFits_idle (by omega), ?_, ?_, h5, ?_,
    outputFits_idle (by decide)⟩
  · rwa [inputBytes_idle (by omega)]
  · rwa [inputBytes_idle (by omega)]
  · rw [List.map_map]
    have : (BitVec.ofNat 8 ∘ BitVec.toNat : Byte → Byte) = id := by
      funext x
      simp
    rw [this, List.map_id]
    rfl

/-! ### Witnesses: how commands fail -/

/-- For each clause: an illegal word; the first illegal ALPHA of each family, and the last; X10's IN_LEN = IN_CAP + 1 at
the last legal ALPHA; an operation that fails; an output of two bytes for an OUT_BUF of one; and one that just fits. -/
theorem witness_ChecksRunInOrder :
    ((busyWith 0x0000000E []).status.busy = true ∧ 0x0E ≤ ((busyWith 0x0000000E []).cmd.extractLsb' 0 6).toNat)
    ∧ (Instr.wf (.b16dec true ⟨2, false, false⟩) = true ∧ legalAlphas (.b16dec true ⟨2, false, false⟩) ≤ 2
      ∧ legalAlphas (.b32enc true ⟨5, false, false⟩) ≤ 5 ∧ legalAlphas (.b58decc true ⟨3, false, false⟩) ≤ 3
      ∧ legalAlphas (.b64enc true ⟨1, false, false⟩) ≤ 1 ∧ Instr.wf (.b64enc true ⟨15, false, false⟩) = true)
    ∧ ((Instr.format (.b32dec true ⟨4, true, false⟩)).alpha < legalAlphas (.b32dec true ⟨4, true, false⟩)
      ∧ (Instr.format (.chkver true ⟨15, true, false⟩)).alpha < legalAlphas (.chkver true ⟨15, true, false⟩)
      ∧ { idle [] with inLen := 65 }.inCap.bytes < { idle [] with inLen := 65 }.inLen.toNat)
    ∧ (∀ f, commandFamily (.b16dec true ⟨1, false, false⟩) = some f → rom f 1 = some (text "0123456789abcdef"))
    ∧ InputFits (idle (text "a"))
    ∧ operation (.b16dec true ⟨1, false, false⟩) (text "0123456789abcdef") (text "a") = .error .invalidLength
    ∧ operation (.b16enc true ⟨1, false, false⟩) (text "0123456789abcdef") [0xAB] = .ok (text "ab")
    ∧ { idle [0xAB] with outCap := ⟨0⟩ }.outCap.bytes < (text "ab").length
    ∧ OutputFits { idle [0xAB] with outCap := ⟨1⟩ } (text "ab") := by
  refine ⟨by decide, by decide, by decide, ?_, inputFits_idle (by decide), by decide, by decide, by decide, ?_⟩
  · intro f h
    obtain rfl := Option.some.inj h
    decide
  · show (text "ab").length ≤ 2
    decide

/-- An empty input at the last legal ALPHA of each family, with room for the checked output. -/
theorem witness_EmptyInput :
    (idle []).inLen = 0 ∧ (rom .base16 1).isSome = true ∧ (rom .base32 4).isSome = true ∧ (rom .base58 2).isSome = true
    ∧ (rom .base64 0).isSome = true ∧ 4 ≤ (idle []).outCap.bytes
    ∧ OutputFits { idle [] with outCap := ⟨65535⟩ }
        (b58Encode (base58Rom.getD 2 []) ((Config.hash (Config.hash []).bytes).bytes.take 4)) := by
  refine ⟨by decide, by decide, by decide, by decide, by decide, by decide, ?_⟩
  have hl : (checksum Config.hash []).length = 4 := length_checksum _ _
  show (b58Encode (base58Rom.getD 2 []) (checksum Config.hash [])).length ≤ 65536
  have hz := ((isLeadingRun_iff (c := 0) (s := checksum Config.hash [])).mpr rfl).bound
  have hd : (toDigits 58 (ofDigits 256 ((checksum Config.hash []).map BitVec.toNat))).length ≤ 6 := by
    rw [toDigits_eq (by decide), List.length_reverse]
    refine (Nat.digits_length_le_iff (by decide) _).mpr ?_
    match checksum Config.hash [], hl with
    | [a, b, c, d], _ =>
      have := a.isLt
      have := b.isLt
      have := c.isLt
      have := d.isLt
      simp only [ofDigits, List.map_cons, List.map_nil, List.foldl_cons, List.foldl_nil]
      omega
  simp only [b58Encode, List.length_append, List.length_replicate, List.length_map]
  omega

theorem witness_Base16DecodeFailures :
    rom .base16 0 = some (text "0123456789ABCDEF")
    ∧ (InputFits (idle (text "z")) ∧ (idle (text "z")).inLen.toNat % 2 = 1)
    ∧ (InputFits (idle (text "0g")) ∧ (idle (text "0g")).inLen.toNat % 2 = 0
      ∧ ∃ j, j < (idle (text "0g")).inLen.toNat
        ∧ lookup (text "0123456789ABCDEF") true (inByte (idle (text "0g")) j) = none) :=
  ⟨by decide, ⟨inputFits_idle (by decide), by decide⟩, inputFits_idle (by decide), by decide, 1, by decide, by decide⟩

/-- D4, D13 and D11; and D12, with no symbol at all. -/
theorem witness_Base32DecodeFailures :
    rom .base32 0 = some (base32Rom.getD 0 [])
    ∧ (idle (text "MY")).inLen.toNat % 8 ≠ 0
    ∧ (inputBytes (idle (text "MY=A====")) = text "MY=A" ++ List.replicate 4 padChar
      ∧ ((text "MY=A").getLast? ≠ some padChar ∧ (idle (text "MY=A====")).inLen.toNat % 8 = 0)
      ∧ ∃ c ∈ text "MY=A", lookup (base32Rom.getD 0 []) false c = none)
    ∧ (inputBytes (idle (text "M=======")) = text "M" ++ List.replicate 7 padChar
      ∧ ((text "M").getLast? ≠ some padChar ∧ (idle (text "M=======")).inLen.toNat % 8 = 0)
      ∧ (∀ c ∈ text "M", lookup (base32Rom.getD 0 []) false c ≠ none)
      ∧ 0 < (idle (text "M=======")).inLen.toNat ∧ (text "M").length ≤ 1)
    ∧ (inputBytes (idle (text "========")) = [] ++ List.replicate 8 padChar
      ∧ (([] : List Byte).getLast? ≠ some padChar ∧ (idle (text "========")).inLen.toNat % 8 = 0)
      ∧ InputFits (idle (text "========")) ∧ 0 < (idle (text "========")).inLen.toNat) := by
  rw [inputBytes_idle (by decide), inputBytes_idle (by decide), inputBytes_idle (by decide)]
  exact ⟨by decide, by decide, ⟨by decide, by decide, by decide⟩, ⟨by decide, by decide, by decide, by decide, by decide⟩,
    by decide, by decide, inputFits_idle (by decide), by decide⟩

/-- B16, B26 and B18; and B19, without padding. -/
theorem witness_Base64DecodeFailures :
    rom .base64 0 = some (base64Rom.getD 0 [])
    ∧ (idle (text "Zg")).inLen.toNat % 4 ≠ 0
    ∧ (inputBytes (idle (text "-_8=")) = text "-_8" ++ List.replicate 1 padChar
      ∧ ((text "-_8").getLast? ≠ some padChar ∧ (idle (text "-_8=")).inLen.toNat % 4 = 0)
      ∧ ∃ c ∈ text "-_8", lookup (base64Rom.getD 0 []) false c = none)
    ∧ (inputBytes (idle (text "Z===")) = text "Z" ++ List.replicate 3 padChar
      ∧ ((text "Z").getLast? ≠ some padChar ∧ (idle (text "Z===")).inLen.toNat % 4 = 0)
      ∧ (∀ c ∈ text "Z", lookup (base64Rom.getD 0 []) false c ≠ none)
      ∧ 0 < (idle (text "Z===")).inLen.toNat ∧ (text "Z").length ≤ 1)
    ∧ (inputBytes (idle (text "Z")) = text "Z" ++ List.replicate 0 padChar ∧ InputFits (idle (text "Z"))) := by
  rw [inputBytes_idle (by decide), inputBytes_idle (by decide), inputBytes_idle (by decide)]
  exact ⟨by decide, by decide, ⟨by decide, by decide, by decide⟩, ⟨by decide, by decide, by decide, by decide, by decide⟩,
    by decide, inputFits_idle (by decide)⟩

/-- Four bytes that are not the checksum of a payload, whatever HASH is. -/
def wrongTrailer (p : List Byte) : List Byte := (checksum Config.hash p).map (fun b => b + 1)

theorem length_wrongTrailer (p : List Byte) : (wrongTrailer p).length = 4 := by simp [wrongTrailer]

theorem wrongTrailer_ne (p : List Byte) : wrongTrailer p ≠ (Config.hash (Config.hash p).bytes).bytes.take 4 := by
  intro h
  have h0 : (Config.hash (Config.hash p).bytes).byte0 + 1 = (Config.hash (Config.hash p).bytes).byte0 :=
    (List.cons.inj h).1
  generalize (Config.hash (Config.hash p).bytes).byte0 = b at h0
  have hb := congrArg BitVec.toNat h0
  rw [BitVec.toNat_add] at hb
  have := b.isLt
  simp only [BitVec.reduceToNat] at hb
  omega

/-- C13, C15; and a text that decodes to `[01]` and four bytes that are not its checksum. -/
theorem witness_Base58DecodeFailures :
    rom .base58 0 = some (base58Rom.getD 0 [])
    ∧ (InputFits (idle (text "3QJmn0")) ∧ ∃ j, j < (idle (text "3QJmn0")).inLen.toNat
      ∧ lookup (base58Rom.getD 0 []) false (inByte (idle (text "3QJmn0")) j) = none)
    ∧ (b58Decode (base58Rom.getD 0 []) (inputBytes (idle (text "1"))) = .ok [0] ∧ ([0] : List Byte).length < 4)
    ∧ ∃ s : List Byte, b58Decode (base58Rom.getD 0 []) s = .ok ([1] ++ wrongTrailer [1])
      ∧ (wrongTrailer [1]).length = 4 ∧ wrongTrailer [1] ≠ (Config.hash (Config.hash [1]).bytes).bytes.take 4 := by
  refine ⟨by decide, ⟨inputFits_idle (by decide), 5, by decide, by decide⟩, ⟨?_, by decide⟩, ?_⟩
  · rw [inputBytes_idle (by decide)]
    rfl
  · obtain ⟨s, ds, h1, h2, h3, h4, h5⟩ := exists_text (q := [1] ++ wrongTrailer [1]) (by simp)
    refine ⟨s, ?_, length_wrongTrailer _, wrongTrailer_ne _⟩
    have hd : toDigits 256 (ofDigits 58 ds) = ([1] ++ wrongTrailer [1]).map BitVec.toNat := by
      have hv := h5.value
      rw [weightedSum_eq, weightedSum_eq] at hv
      rw [← hv]
      exact toDigits_ofDigits (by decide) h5.small h5.noLeadingZero
    have hid : (BitVec.ofNat 8 ∘ BitVec.toNat : Byte → Byte) = id := by
      funext x
      simp
    rw [b58Decode, ← isLeadingRun_iff.mp h1, lookupAll_some_iff.mpr h3]
    simp only
    rw [hd, List.map_map, hid, List.map_id]
    rfl

theorem witness_ChecksumFailures :
    (InputFits (idle [1, 2, 3]) ∧ (idle [1, 2, 3]).inLen.toNat < 4)
    ∧ (InputFits (idle ([1] ++ wrongTrailer [1]))
      ∧ inputBytes (idle ([1] ++ wrongTrailer [1])) = [1] ++ wrongTrailer [1] ∧ (wrongTrailer [1]).length = 4
      ∧ wrongTrailer [1] ≠ (Config.hash (Config.hash [1]).bytes).bytes.take 4) := by
  have hl : ([1] ++ wrongTrailer [1]).length = 5 := by rw [List.length_append, length_wrongTrailer]; rfl
  exact ⟨⟨inputFits_idle (by decide), by decide⟩, inputFits_idle (by omega), inputBytes_idle (by omega),
    length_wrongTrailer _, wrongTrailer_ne _⟩

/-! ### Witnesses: the contract every command keeps -/

theorem witness_ThrowBitOnlySetsFerr :
    (Instr.b32dec true ⟨1, true, true⟩).opcode = (Instr.b32dec false ⟨1, true, true⟩).opcode
    ∧ (Instr.b32dec true ⟨1, true, true⟩).format = (Instr.b32dec false ⟨1, true, true⟩).format
    ∧ (Instr.b32dec true ⟨1, true, true⟩).throwing = true ∧ (Instr.b32dec false ⟨1, true, true⟩).throwing = false := by
  decide

/-- A state with FERR set. -/
def ferrState (p : List HostOp) (ts : List Turn) : State :=
  { idle [] with status := ⟨false, true, false, 1, true, false⟩, program := p, turns := ts }

/-- A reset, a write of 1 to STATUS bit 8 with no turn listed, and a soft reset in a listed turn each clear FERR. -/
theorem witness_FormatErrorIsSticky :
    (∃ t, step (ferrState [] [.reset]) = .next t ∧ (ferrState [] [.reset]).status.ferr = true ∧ t.status.ferr = false)
    ∧ (∃ t, step (ferrState [wr32 0x004 0x100] []) = .next t ∧ (ferrState [wr32 0x004 0x100] []).status.ferr = true
      ∧ t.status.ferr = false)
    ∧ (∃ t, step (ferrState [wr32 0x014 1] [.host]) = .next t ∧ (ferrState [wr32 0x014 1] [.host]).status.ferr = true
      ∧ t.status.ferr = false) :=
  ⟨⟨_, rfl, rfl, rfl⟩, ⟨_, rfl, rfl, rfl⟩, ⟨_, rfl, rfl, rfl⟩⟩

theorem witness_EveryCommandSucceedsOrFails :
    Fails (.b16dec true ⟨0, false, false⟩) (busyWith 0x00000082 (text "A")) .invalidLength := fails_b16dec

theorem witness_IgnoredFields : (idle []).status.busy = false := by decide

/-- Two states with the same input that differ in CMD, STATUS, IRQ_EN and OUT_BUF. -/
theorem witness_CommandReadsOnlyItsInput :
    (idle [1]).inLen = { doneState with irqEn := ⟨true, true⟩ }.inLen
    ∧ inputBytes (idle [1]) = inputBytes { doneState with irqEn := ⟨true, true⟩ }
    ∧ (idle [1]).inCap = { doneState with irqEn := ⟨true, true⟩ }.inCap
    ∧ (idle [1]).outCap = { doneState with irqEn := ⟨true, true⟩ }.outCap := by decide

theorem witness_StepKeepsInvariant :
    (Inv (busyWith 0x00000001 [1, 2]) ∧ ∃ t, step (busyWith 0x00000001 [1, 2]) = .next t)
    ∧ (Inv doneState ∧ ∃ t, step doneState = .next t) :=
  ⟨⟨inv_busyWith, _, rfl⟩, inv_doneState, _, rfl⟩

theorem witness_BusyEndsWithinTheTurns : { busyWith 1 [1] with turns := [.host, .host] }.status.busy = true := by decide

/-- Two blocks at neighbouring windows, each a copy of its own. -/
def twoBlocks : Platform := [⟨0x40000, idle []⟩, ⟨0x80000, { idle [1] with copy := 1 }⟩]

theorem witness_BlocksAreIndependent :
    (0 ≠ 1) ∧ twoBlocks.wf ∧ twoBlocks[0]? = some ⟨0x40000, idle []⟩
    ∧ twoBlocks[1]? = some ⟨0x80000, { idle [1] with copy := 1 }⟩
    ∧ (idle [1]).mem.get? (inBase + 1) = none
    ∧ ((busyWith 1 [1]).status.busy = true ∧ (idle [1]).outLen.toNat ≤ 0) := by
  refine ⟨by decide, ⟨by decide, by decide, by decide⟩, rfl, rfl, by decide, by decide⟩

/-! ### Witnesses: the codecs -/

theorem witness_EncoderMatchesClosedForm : 0 < 6 ∧ 0 < 8 ∧ 6 ≤ 6 ∧ (text "foobar").length ≤ 65536 := by decide

theorem witness_DecoderMatchesClosedForm :
    0 < 6 ∧ packDec (text "MY======") (base32Rom.getD 0 []) 5 8 true false = .ok [0x66]
    ∧ rom .base32 0 = some (base32Rom.getD 0 []) ∧ 6 ≤ 6 ∧ (text "MY======").length ≤ 65536 := by decide

theorem witness_Base16RoundTrip : rom .base16 1 = some (text "0123456789abcdef") := by decide

theorem witness_GroupedRoundTrips :
    rom .base32 4 = some (base32Rom.getD 4 []) ∧ rom .base64 0 = some (base64Rom.getD 0 []) := by decide

theorem witness_Base58RoundTrip :
    rom .base58 2 = some (base58Rom.getD 2 []) ∧ IsLeadingRun 0 [0, 0, 1, 2] 2
    ∧ b58Decode (base58Rom.getD 2 []) (text "115s") = .ok [0, 0, 1, 2]
    ∧ IsLeadingRun (symbol (base58Rom.getD 2 []) 0) (text "115s") 2
    ∧ ((text "115s").drop 2).map (lookup (base58Rom.getD 2 []) false) = [4, 26].map some :=
  ⟨by decide, isLeadingRun_iff.mpr (by decide), rfl, isLeadingRun_iff.mpr (by decide), by decide⟩

theorem witness_ChecksumRoundTrips : rom .base58 0 = some (base58Rom.getD 0 []) := by decide

theorem witness_RadixDigitsAreTheNumeral :
    (2 ≤ 2 ∧ IsNumeral 2 5 [1, 0, 1])
    ∧ rom .base58 0 = some (base58Rom.getD 0 []) ∧ b58Decode (base58Rom.getD 0 []) (text "115T") = .ok [0, 0, 1, 2] :=
  ⟨⟨by decide, by decide, by decide, by decide⟩, by decide, rfl⟩

theorem witness_AlphabetsAreDistinctSymbols :
    rom .base32 4 = some (base32Rom.getD 4 []) ∧ 31 < (base32Rom.getD 4 []).length ∧ rom .base58 3 = none := by decide

theorem witness_LookupFindsExactlyTheSymbols :
    rom .base32 0 = some (base32Rom.getD 0 []) ∧ (0x80 : Byte).toNat = 0x80
    ∧ rom .base16 0 = some (text "0123456789ABCDEF") ∧ rom .base16 1 = some (text "0123456789abcdef") := by decide

end Sys2Proof.Tests
end

section
/-! PROOFS. The registers, flags and steps of one block (10_state.md): what a register write and a step do, what OUT_LEN
holds, the block's invariant operation by operation, and the statements of this family. -/

namespace Sys2Proof.Machine

open Sys2Proof Safety

/-! ### Register writes and register words -/

/-- A 32-bit write that a register takes is answered OKAY and does what the register does with it. -/
theorem transact_write_reg_okay {s s' : State} {off : Offset} {r : Reg} {v : Word} (h : regAt off.toNat = some r)
    (hw : writeReg r v s = some s') (hl : off.toNat < 0x20 := by decide) :
    transact (.write off .b4 v) s = respond .okWrite s' := by
  rw [transact_write_reg v h hl, hw]

/-- A CMD write while idle is the accept step (R66). -/
theorem writeReg_cmd_idle {s : State} (w : Word) (hb : s.status.busy = false) :
    writeReg .cmd w s = some (accept w s) := by simp [writeReg, hb]

/-- A CTRL write with bit 0 set is the soft reset (R23, R120). -/
theorem writeReg_ctrl_reset {v : Word} (s : State) (hv : v.getLsbD 0 = true) :
    writeReg .ctrl v s = some (resetBlock s) := by simp [writeReg, hv]

/-- The bits of STATUS (R19). -/
theorem statusWord_bits (st : Status) :
    (statusWord st).getLsbD 0 = st.busy ∧ (statusWord st).getLsbD 1 = st.done ∧ (statusWord st).getLsbD 2 = st.ok
      ∧ (statusWord st).getLsbD 3 = false ∧ (statusWord st).extractLsb' 4 4 = st.err
      ∧ (statusWord st).getLsbD 8 = st.ferr ∧ (statusWord st).getLsbD 9 = st.ovr
      ∧ (statusWord st).extractLsb' 10 22 = 0 := by
  refine ⟨?_, ?_, ?_, ?_, BitVec.eq_of_getLsbD_eq fun k hk => ?err, ?_, ?_, BitVec.eq_of_getLsbD_eq fun k hk => ?rsv⟩
  case err | rsv =>
    simp only [statusWord, BitVec.getLsbD_extractLsb', BitVec.getLsbD_append, BitVec.getLsbD_ofBool]
    interval_cases k <;> simp
  all_goals
    simp only [statusWord, BitVec.getLsbD_append, BitVec.getLsbD_ofBool]
    simp

/-- The acknowledged STATUS reads with the written ones of bits 1, 8 and 9 cleared (R19). -/
theorem statusWord_clearFlags (w : Word) (st : Status) :
    statusWord (clearFlags w st) = statusWord st &&& ~~~(w &&& 0x302) := by
  apply BitVec.eq_of_getLsbD_eq
  intro k hk
  simp only [statusWord, clearFlags, BitVec.getLsbD_append, BitVec.getLsbD_and, BitVec.getLsbD_not, BitVec.getLsbD_ofBool]
  interval_cases k <;> simp

/-- The bits of IRQ_EN (R22). -/
theorem irqEnWord_bits (e : IrqEn) :
    (irqEnWord e).getLsbD 0 = e.doneIe ∧ (irqEnWord e).getLsbD 1 = e.ferrIe
      ∧ (irqEnWord e).extractLsb' 2 30 = 0 := by
  refine ⟨?_, ?_, BitVec.eq_of_getLsbD_eq fun k hk => ?rsv⟩
  case rsv =>
    simp only [irqEnWord, BitVec.getLsbD_extractLsb', BitVec.getLsbD_append, BitVec.getLsbD_ofBool]
    interval_cases k <;> simp
  all_goals
    simp only [irqEnWord, BitVec.getLsbD_append, BitVec.getLsbD_ofBool]
    simp

/-- What IRQ_EN stores of a word reads back as the word's bits 1:0 (R22). -/
theorem irqEnWord_irqEnOf (v : Word) : irqEnWord (irqEnOf v) = v &&& 3 := by
  apply BitVec.eq_of_getLsbD_eq
  intro k hk
  simp only [irqEnWord, irqEnOf, BitVec.getLsbD_append, BitVec.getLsbD_and, BitVec.getLsbD_ofBool]
  interval_cases k <;> simp

/-! ### OUT_LEN -/

/-- The length of an output that fits OUT_BUF is what OUT_LEN then holds. -/
theorem toNat_outLen_succeed {s : State} {out : List Byte} (hf : out.length ≤ s.outCap.bytes) :
    (succeed out s).outLen.toNat = out.length := by
  have := capacity_le s.outCap
  rw [succeed_outLen, BitVec.toNat_ofNat, Nat.mod_eq_of_lt (by omega)]

/-- An ALPHA value that the command's family does not have is the command's failure (R69). -/
theorem result_illegal_alpha {i : Instr} {f : Family} (s : State) (hf : commandFamily i = some f)
    (hr : rom f i.format.alpha = none) : result i s = .error .unsupportedConfig := by
  cases i <;> cases hf <;> exact executeCodec_illegal hr

/-- A command that has an output has it from its operation on the input, under the alphabet its ALPHA selects. -/
theorem operation_of_result {i : Instr} {s : State} {out : List Byte} (h : result i s = .ok out) :
    ∃ A, (∀ f, commandFamily i = some f → rom f i.format.alpha = some A)
      ∧ operation i A (inputBytes s) = .ok out := by
  have of_alphabet : ∀ A, (∀ f, commandFamily i = some f → rom f i.format.alpha = some A) →
      operation i A (inputBytes s) = .ok out := fun A hA => by
    rw [result_operation s hA, executeOver_ok_iff] at h
    exact h.2.1
  cases hf : commandFamily i with
  | none => exact ⟨[], by simp, of_alphabet [] (by simp [hf])⟩
  | some f =>
    cases hr : rom f i.format.alpha with
    | none => simp [result_illegal_alpha s hf hr] at h
    | some A =>
      have hA : ∀ g, some f = some g → rom g i.format.alpha = some A := by
        rintro _ ⟨⟩
        exact hr
      exact ⟨A, hA, of_alphabet A (hf ▸ hA)⟩

theorem engineTurn_illegal {s : State} {e : DecodeError} (hb : s.status.busy = true) (hd : decode s.cmd = .error e) :
    engineTurn s = .next (completeIllegal s) := by simp [engineTurn, hb, hd]

/-- No write makes OUT_LEN anything but 0. -/
theorem outLen_transact {s : State} (t : Txn) (h : s.outLen = 0) : (transact t s).outLen = 0 := by
  rcases transact_cases t s with ⟨a, ht⟩ | ⟨off, size, v, s', -, hw, ht⟩ <;> rw [ht, respond_outLen]
  · exact h
  · rcases busWrite_cases hw with ⟨r, -, -, -, hr⟩ | ⟨-, -, -, -, rfl⟩
    · rcases writeReg_cases hr with ⟨-, -, rfl⟩ | ⟨-, -, rfl⟩ | ⟨-, rfl⟩ | ⟨-, -, rfl⟩ | ⟨-, rfl⟩ | ⟨-, -, rfl⟩ | rfl <;>
        simp [h]
    · exact h

theorem outLen_hostTurn {s : State} (h : s.outLen = 0) : (hostTurn s).outLen = 0 := by
  rcases hostTurn_cases s with ht | ⟨t, rest, -, ht⟩ | ⟨a, p, ht⟩ <;> rw [ht]
  · exact h
  · exact outLen_transact t h
  · exact h

/-- While OUT_LEN is 0, only the engine's turn, which ends the command, can make it anything else (R21). -/
theorem outLen_step_busy {s t : State} (h : s.outLen = 0) (ht : step s = .next t) (hb : t.status.busy = true) :
    t.outLen = 0 := by
  have engine : ∀ {u : State}, engineTurn u = .next t → t.outLen = 0 := fun hu => by
    simp [engineTurn_not_busy hu] at hb
  rcases step_cases s with ⟨-, -, he⟩ | ⟨-, -, he⟩ | ⟨r, -, he⟩ | ⟨r, -, he⟩ | ⟨r, -, he⟩ <;> rw [he] at ht
  · exact engine ht
  · cases ht
    exact outLen_hostTurn h
  · exact engine ht
  · cases ht
    exact outLen_hostTurn h
  · cases ht
    rfl

/-- A command's complete step leaves the length of its operation's output, or 0 when it failed (R21). -/
theorem outLen_exec (i : Instr) (s : State) : ∃ t, exec i s = .next t
    ∧ (t.status.ok = true → ∃ A out, (∀ f, commandFamily i = some f → rom f i.format.alpha = some A)
        ∧ operation i A (inputBytes s) = .ok out ∧ t.outLen.toNat = out.length)
    ∧ (t.status.ok = false → t.outLen = 0) := by
  rcases exec_cases i s with ⟨out, hr, he, hf⟩ | ⟨e, -, he⟩
  · obtain ⟨A, hA, hop⟩ := operation_of_result hr
    exact ⟨_, he, fun _ => ⟨A, out, hA, hop, toNat_outLen_succeed hf⟩, by simp⟩
  · exact ⟨_, he, by simp, fun _ => rfl⟩

/-! ### Whose turn a step is -/

theorem engineTurn_decoded {s : State} {i : Instr} (hb : s.status.busy = true) (hd : decode s.cmd = .ok i) :
    engineTurn s = exec i s := by simp [engineTurn, hb, hd]

theorem engineTurn_idle {s : State} (hb : s.status.busy = false) : engineTurn s = .next s := by
  simp [engineTurn, hb]

/-- With no turn listed the engine moves while BUSY (R124). -/
theorem step_unlisted_busy {s : State} (ht : s.turns = []) (hb : s.status.busy = true) : step s = engineTurn s := by
  simp [step, ht, hb]

theorem step_engine {s : State} {rest : List Turn} (ht : s.turns = .engine :: rest) :
    step s = engineTurn { s with turns := rest } := by simp [step, ht]

theorem step_reset {s : State} {rest : List Turn} (ht : s.turns = .reset :: rest) :
    step s = .next (resetBlock { s with turns := rest }) := by simp [step, ht]

/-- The host moves in a turn listed for it, and while BUSY = 0 when no turn is listed. -/
theorem step_host {s : State} {rest : List Turn}
    (ht : s.turns = .host :: rest ∨ (s.turns = [] ∧ rest = [] ∧ s.status.busy = false)) :
    step s = .next (hostTurn { s with turns := rest }) := by
  rcases ht with ht | ⟨ht, rfl, hb⟩
  · simp [step, ht]
  · have hs : { s with turns := [] } = s := by rw [← ht]
    simp [step, ht, hb, hs]

theorem hostTurn_nil {s : State} (hp : s.program = []) : hostTurn s = s := by simp [hostTurn, hp]

theorem hostTurn_txn {s : State} {t : Txn} {p : List HostOp} (hp : s.program = .txn t :: p) :
    hostTurn s = transact t { s with program := p } := by simp [hostTurn, hp]

theorem pollDone_iff {mask val : Word} {a : Option Answer} :
    pollDone mask val a = true ↔ ∃ d, a = some (.okRead d) ∧ d &&& mask = val := by
  cases a with
  | none => simp [pollDone]
  | some a => cases a <;> simp [pollDone]

theorem pollDone_eq_false_iff {mask val : Word} {a : Option Answer} :
    pollDone mask val a = false ↔ ∀ d, a = some (.okRead d) → d &&& mask ≠ val := by
  simp [← Bool.not_eq_true, pollDone_iff]

/-- A poll whose read gave the awaited value leaves the program. -/
theorem hostTurn_poll_done {s : State} {off : Offset} {mask val : Word} {p : List HostOp}
    (hp : s.program = .poll off mask val :: p) (hd : pollDone mask val (transact (.read off .b4) s).answer = true) :
    hostTurn s = { transact (.read off .b4) s with program := p } := by simp [hostTurn, hp, hd]

/-- A poll whose read did not stays next. -/
theorem hostTurn_poll_again {s : State} {off : Offset} {mask val : Word} {p : List HostOp}
    (hp : s.program = .poll off mask val :: p) (hd : pollDone mask val (transact (.read off .b4) s).answer = false) :
    hostTurn s = transact (.read off .b4) s := by simp [hostTurn, hp, hd]

/-! ### The block's invariant, operation by operation -/

section

/-- Every cause has a code that STATUS.ERR may show (R103). -/
theorem CmdError.code_le (e : CmdError) : e.code.toNat ≤ 6 := by cases e <;> decide

/-- A block meets the invariant when its storage, STATUS, OUT_LEN and working state have their reset values. -/
theorem inv_of_reset_values {s : State} (hm : s.mem = []) (hst : s.status = .reset) (hl : s.outLen = 0)
    (hw : s.work = none) (he : s.epoch ≤ s.draws) : Inv s where
  memWf := by simp [hm]
  memInBuffers := by simp [hm]
  busyClear := by simp [hst, Status.reset]
  okNoErr := by simp [hst, Status.reset]
  errCode := by simp [hst, Status.reset]
  outLenOk _ := hl
  outLenFits := by simp [hl]
  outStored := by simp [hl]
  workBusy := by simp [hst, hw, Status.reset]
  epochDrawn := he

theorem inv_resetBlock (s : State) : Inv (resetBlock s) := inv_of_reset_values rfl rfl rfl rfl (Nat.le_refl _)

variable {s : State}

theorem inv_program (p : List HostOp) (h : Inv s) : Inv { s with program := p } := { h with }

theorem inv_turns (ts : List Turn) (h : Inv s) : Inv { s with turns := ts } := { h with }

theorem inv_inLen (v : Word) (h : Inv s) : Inv { s with inLen := v } := { h with }

theorem inv_irqEn (e : IrqEn) (h : Inv s) : Inv { s with irqEn := e } := { h with }

theorem inv_overrun (h : Inv s) : Inv (overrun s) := { h with }

theorem inv_respond (a : Answer) (h : Inv s) : Inv (respond a s) :=
  { h with epochDrawn := Nat.le_succ_of_le h.epochDrawn }

/-- An acknowledgement clears DONE at most, which BUSY has clear already. -/
theorem inv_acknowledge (w : Word) (h : Inv s) : Inv (acknowledge w s) :=
  { h with
    busyClear := fun hb => by
      obtain ⟨hdone, hrest⟩ := h.busyClear hb
      exact ⟨by simp [hdone], hrest⟩ }

theorem inv_accept (w : Word) (h : Inv s) : Inv (accept w s) :=
  { h with
    busyClear := fun _ => ⟨rfl, rfl, rfl, rfl⟩
    okNoErr := fun _ => rfl
    errCode := by simp
    outLenOk := fun _ => rfl
    outLenFits := by simp
    outStored := by simp
    workBusy := rfl }

/-- Bytes stored inside IN_BUF leave OUT_BUF, which begins above it (R32). -/
theorem inv_storeInput {a : Nat} {vs : List Byte} (h : Inv s) (hlo : inBase ≤ a)
    (hhi : a + vs.length ≤ inBase + s.inCap.bytes) : Inv { s with mem := s.mem.setBytes a vs } :=
  { h with
    memWf := Memory.wf_setBytes vs a h.memWf
    memInBuffers := fun c hc => by
      rcases Memory.mem_setBytes_offset vs hc with ⟨hc1, hc2⟩ | hc
      · exact .inl ⟨by omega, by simp only; omega⟩
      · exact h.memInBuffers c hc
    outStored := fun j hj => by
      have hcap := capacity_le s.inCap
      have hout : ¬ (a ≤ outBase + j ∧ outBase + j < a + vs.length) := by
        simp only [inBase, outBase] at *
        omega
      rw [Memory.get?_setBytes, if_neg hout]
      exact h.outStored j hj }

theorem inv_succeed {out : List Byte} (h : Inv s) (hf : out.length ≤ s.outCap.bytes) : Inv (succeed out s) :=
  { h with
    memWf := Memory.wf_setBytes out outBase h.memWf
    memInBuffers := fun c hc => by
      rcases Memory.mem_setBytes_offset out hc with ⟨hc1, hc2⟩ | hc
      · exact .inr ⟨hc1, by simp only [succeed_outCap]; omega⟩
      · exact h.memInBuffers c hc
    busyClear := by simp
    okNoErr := fun _ => rfl
    errCode := by simp
    outLenOk := by simp
    outLenFits := (toNat_outLen_succeed hf).trans_le hf
    outStored := fun j hj => by
      rw [toNat_outLen_succeed hf] at hj
      rw [(completesOk_succeed hf).stored j hj, List.getElem?_eq_getElem hj, Option.isSome_some]
    workBusy := rfl }

theorem inv_failWith (t : Bool) (e : CmdError) (h : Inv s) : Inv (failWith t e s) :=
  { h with
    memWf := Memory.wf_forget outBase _ h.memWf
    memInBuffers := fun c hc => h.memInBuffers c (Memory.mem_forget hc)
    busyClear := by simp
    okNoErr := by simp
    errCode := e.code_le
    outLenOk := fun _ => rfl
    outLenFits := by simp
    outStored := by simp
    workBusy := rfl }

theorem inv_writeReg {r : Reg} {v : Word} {s' : State} (h : Inv s) (hw : writeReg r v s = some s') : Inv s' := by
  rcases writeReg_cases hw with ⟨-, -, rfl⟩ | ⟨-, -, rfl⟩ | ⟨-, rfl⟩ | ⟨-, -, rfl⟩ | ⟨-, rfl⟩ | ⟨-, -, rfl⟩ | rfl
  · exact inv_accept v h
  · exact inv_overrun h
  · exact inv_acknowledge v h
  · exact inv_inLen v h
  · exact inv_irqEn _ h
  · exact inv_resetBlock s
  · exact h

theorem inv_busWrite {off : Offset} {size : Size} {v : Word} {s' : State} (h : Inv s)
    (hw : busWrite off size v s = some s') : Inv s' := by
  rcases busWrite_cases hw with ⟨r, -, -, -, hr⟩ | ⟨hlo, hhi, -, -, rfl⟩
  · exact inv_writeReg h hr
  · exact inv_storeInput h hlo (by simpa using hhi)

theorem inv_transact (t : Txn) (h : Inv s) : Inv (transact t s) := by
  rcases transact_cases t s with ⟨a, ht⟩ | ⟨off, size, v, s', -, hw, ht⟩ <;> rw [ht]
  · exact inv_respond a h
  · exact inv_respond _ (inv_busWrite h hw)

theorem inv_hostTurn (h : Inv s) : Inv (hostTurn s) := by
  rcases hostTurn_cases s with ht | ⟨t, rest, -, ht⟩ | ⟨a, p, ht⟩ <;> rw [ht]
  · exact h
  · exact inv_transact t (inv_program rest h)
  · exact inv_program p (inv_respond a h)

theorem inv_engineTurn {t : State} (h : Inv s) (ht : engineTurn s = .next t) : Inv t := by
  rcases engineTurn_cases s with ⟨-, he⟩ | ⟨-, out, hf, he⟩ | ⟨-, thr, e, he⟩ <;> rw [he] at ht <;> cases ht
  · exact h
  · exact inv_succeed h hf
  · exact inv_failWith thr e h

theorem inv_step {t : State} (h : Inv s) (ht : step s = .next t) : Inv t := by
  rcases step_cases s with ⟨-, -, he⟩ | ⟨-, -, he⟩ | ⟨r, -, he⟩ | ⟨r, -, he⟩ | ⟨r, -, he⟩ <;> rw [he] at ht
  · exact inv_engineTurn h ht
  · cases ht
    exact inv_hostTurn h
  · exact inv_engineTurn (inv_turns r h) ht
  · cases ht
    exact inv_hostTurn (inv_turns r h)
  · cases ht
    exact inv_resetBlock _

end

/-! ### The statements -/

/-- Settles O49: each operation of the host, of the engine and of a reset keeps the invariant, so every step does. -/
theorem stepKeepsInvariant : Obligations.StepKeepsInvariant := fun _ _ => inv_step

/-- Settles O7: the write is the acknowledgement. -/
theorem statusWriteClearsOnlyWrittenFlags : Obligations.StatusWriteClearsOnlyWrittenFlags := fun s w =>
  ⟨clearFlags w s.status, transact_write_reg_okay (r := .status) rfl rfl, statusWord_clearFlags w s.status⟩

/-- Settles O17: both registers read as the capacities and drop writes, and `step_keeps` is the frame of a step. -/
theorem capacityRegistersNeverChange : Obligations.CapacityRegistersNeverChange := fun s =>
  ⟨⟨busRead_reg (r := .inCapr) rfl (by decide), busRead_reg (r := .outCapr) rfl (by decide)⟩,
    fun v => ⟨transact_write_reg_okay (r := .inCapr) (v := v) rfl rfl,
      transact_write_reg_okay (r := .outCapr) (v := v) rfl rfl⟩,
    fun _ h => ⟨(step_keeps h).1, (step_keeps h).2.1⟩⟩

/-- Settles O18, from what a complete step, a host's turn and a reset leave in OUT_LEN. -/
theorem outputLengthRegister : Obligations.OutputLengthRegister := by
  refine ⟨outLen_exec, ?illegal, ?accepted, fun s t _ => outLen_step_busy, ?reset, ?softReset, rfl,
    fun s v => transact_write_reg_okay (r := .outLen) rfl rfl⟩
  case illegal =>
    intro s t e hb hd ht
    rw [engineTurn_illegal hb hd] at ht
    cases ht
    rfl
  case accepted =>
    intro s w hb
    rw [transact_write_reg_okay (r := .cmd) rfl (writeReg_cmd_idle w hb)]
    rfl
  case reset =>
    intro s t rest hs ht
    rw [step_reset hs] at ht
    cases ht
    rfl
  case softReset =>
    intro s v hv
    rw [transact_write_reg_okay (r := .ctrl) rfl (writeReg_ctrl_reset s hv)]
    rfl

/-- Settles O19: IRQ_EN stores `irqEnOf` of the word. -/
theorem interruptEnableKeepsTwoBits : Obligations.InterruptEnableKeepsTwoBits := by
  refine ⟨fun s v => ⟨_, rfl, transact_write_reg_okay (r := .irqEn) rfl rfl, ?_, ?_⟩, rfl⟩
  · rw [busRead_reg (r := .irqEn) rfl (by decide), transact_write_reg_okay (r := .irqEn) rfl rfl]
    exact congrArg some (irqEnWord_irqEnOf v)
  · rw [transact_write_reg_okay (r := .irqEn) rfl rfl]
    rfl

/-- Settles O4, from whose turn the step is and what that turn does. -/
theorem stepRunsTheDecodedCommand : Obligations.StepRunsTheDecodedCommand := by
  refine ⟨?unlisted, ?listed, ?fetched, ?idle, ?host⟩
  case unlisted =>
    intro s i hb hd ht
    rw [step_unlisted_busy ht hb, engineTurn_decoded hb hd]
  case listed =>
    intro s i rest hb hd ht
    exact (step_engine ht).trans (engineTurn_decoded hb hd)
  case fetched =>
    intro s nbits w i hd
    have hb : (s.withFetchWord nbits w).status.busy = true := rfl
    have hc : decode (s.withFetchWord nbits w).cmd = .ok i := decodeTableWord_some hd
    exact (step_unlisted_busy rfl hb).trans (engineTurn_decoded hb hc)
  case idle =>
    intro s rest ht hb
    exact (step_engine ht).trans (engineTurn_idle hb)
  case host =>
    intro s rest ht
    rw [step_host ht]
    refine ⟨fun hp => congrArg _ (hostTurn_nil hp), fun t p hp => congrArg _ (hostTurn_txn hp), ?_⟩
    rintro off mask val p u hp rfl
    refine ⟨fun hd => congrArg _ (hostTurn_poll_done hp (pollDone_iff.mpr hd)), fun hd => ?_⟩
    exact congrArg _ (hostTurn_poll_again hp (pollDone_eq_false_iff.mpr hd))

/-- Settles O9: each offset is its register's, and STATUS and IRQ_EN read bit by bit. -/
theorem registersReadAsTheirContents : Obligations.RegistersReadAsTheirContents := fun s =>
  ⟨busRead_reg (r := .cmd) rfl (by decide),
    ⟨_, busRead_reg (r := .status) rfl (by decide), statusWord_bits s.status⟩,
    busRead_reg (r := .inLen) rfl (by decide),
    busRead_reg (r := .outLen) rfl (by decide),
    ⟨_, busRead_reg (r := .irqEn) rfl (by decide), irqEnWord_bits s.irqEn⟩,
    busRead_reg (r := .ctrl) rfl (by decide),
    busRead_reg (r := .inCapr) rfl (by decide),
    busRead_reg (r := .outCapr) rfl (by decide)⟩

/-- Settles O16: each register's contents at reset. -/
theorem resetValues : Obligations.ResetValues :=
  ⟨busRead_reg (r := .cmd) rfl (by decide), busRead_reg (r := .status) rfl (by decide),
    busRead_reg (r := .inLen) rfl (by decide), busRead_reg (r := .outLen) rfl (by decide),
    busRead_reg (r := .irqEn) rfl (by decide), busRead_reg (r := .ctrl) rfl (by decide),
    busRead_reg (r := .inCapr) rfl (by decide), busRead_reg (r := .outCapr) rfl (by decide),
    rfl, rfl, Memory.get?_nil⟩

/-- Settles O48: every field the invariant speaks of has its reset value. -/
theorem resetMeetsInvariant : Obligations.ResetMeetsInvariant := inv_of_reset_values rfl rfl rfl rfl (Nat.le_refl 0)

end Sys2Proof.Machine
end

section
/-! PROOFS. The memory map and the bus port (20_memory.md): what an access reaches, which writes are refused, the byte
lanes of a buffer read and of a stored write, and the statements of this family. -/

namespace Sys2Proof.Machine

open Sys2Proof Safety

section

variable {s : State} {off : Offset} {size : Size}

/-! ### The address map -/

/-- The registers stand at the multiples of 4 below 0x20 (R17). -/
theorem regAt_isSome : ∀ a < 0x20, (regAt a).isSome = decide (a % 4 = 0) := by decide

/-- IN_BUF ends where OUT_BUF begins, or below it (R32). -/
theorem inBuf_end_le_outBase (s : State) : inBase + s.inCap.bytes ≤ outBase :=
  Nat.add_le_add_left (capacity_le s.inCap) inBase

/-- An offset of a buffer, from the index of its byte. -/
theorem base_add_index {base a : Nat} (h : base ≤ a) (k : Nat) : base + (a - base + k) = a + k := by omega

theorem target_misplaced_reg (hr : off.toNat < 0x20) (hf : size ≠ .b4 ∨ off.toNat % 4 ≠ 0) :
    target s off size = none := by
  by_cases hs : size = .b4
  · subst hs
    have hn := regAt_isSome off.toNat hr
    rw [decide_eq_false (hf.resolve_left (not_not_intro rfl)), Option.isSome_eq_false_iff,
      Option.isNone_iff_eq_none] at hn
    rw [target_reg hr, hn, Option.map_none]
  · exact target_narrow_reg hr hs

theorem target_inBuf (hlo : inBase ≤ off.toNat) (hhi : off.toNat + size.bytes ≤ inBase + s.inCap.bytes)
    (ha : off.toNat % size.bytes = 0) : target s off size = some (.inBuf (off.toNat - inBase)) := by
  have hr : ¬ off.toNat < 0x20 := Nat.not_lt.mpr (Nat.le_trans (by decide) hlo)
  simp [target, hr, inBuffer, hlo, hhi, ha]

theorem target_outBuf (hlo : outBase ≤ off.toNat) (hhi : off.toNat + size.bytes ≤ outBase + s.outCap.bytes)
    (ha : off.toNat % size.bytes = 0) : target s off size = some (.outBuf (off.toNat - outBase)) := by
  have hr : ¬ off.toNat < 0x20 := Nat.not_lt.mpr (Nat.le_trans (by decide) hlo)
  have hi : ¬ off.toNat + size.bytes ≤ inBase + s.inCap.bytes := by
    have := inBuf_end_le_outBase s
    have := size_pos size
    omega
  simp [target, hr, inBuffer, hi, hlo, hhi, ha]

/-- Above the registers, an access that neither buffer takes reaches nothing (R33, R35). -/
theorem target_outside_buffers (hr : 0x20 ≤ off.toNat)
    (hi : off.toNat < inBase ∨ inBase + s.inCap.bytes < off.toNat + size.bytes ∨ off.toNat % size.bytes ≠ 0)
    (ho : off.toNat < outBase ∨ outBase + s.outCap.bytes < off.toNat + size.bytes ∨ off.toNat % size.bytes ≠ 0) :
    target s off size = none := by
  rcases target_cases s off size with
    ⟨h, -, -⟩ | ⟨h, -, -⟩ | ⟨hlo, hhi, ha, -⟩ | ⟨hlo, hhi, ha, -⟩ | ⟨-, -, -, hnone⟩
  case inr.inr.inr.inr => exact hnone
  all_goals omega

theorem target_reserved (h : (0x20 ≤ off.toNat ∧ off.toNat < inBase)
      ∨ (inBase + s.inCap.bytes ≤ off.toNat ∧ off.toNat < outBase) ∨ outBase + s.outCap.bytes ≤ off.toNat) :
    target s off size = none := by
  have hbase : 0x20 ≤ inBase ∧ inBase < outBase := by decide
  have hin := inBuf_end_le_outBase s
  have hpos := size_pos size
  exact target_outside_buffers (by omega) (by omega) (by omega)

/-- An access that begins in a buffer and is misaligned or runs over the buffer's end reaches nothing (R35). -/
theorem target_misplaced_buffer {base cap : Nat}
    (hb : (base = inBase ∧ cap = s.inCap.bytes) ∨ (base = outBase ∧ cap = s.outCap.bytes)) (hlo : base ≤ off.toNat)
    (hhi : off.toNat < base + cap) (hf : off.toNat % size.bytes ≠ 0 ∨ base + cap < off.toNat + size.bytes) :
    target s off size = none := by
  have hbase : 0x20 ≤ inBase ∧ inBase < outBase := by decide
  have hin := inBuf_end_le_outBase s
  have hpos := size_pos size
  rcases hb with ⟨rfl, rfl⟩ | ⟨rfl, rfl⟩
  all_goals exact target_outside_buffers (by omega) (by omega) (by omega)

/-! ### Transactions -/

theorem transact_read_data {d : Word} (h : busRead off size s = some d) :
    transact (.read off size) s = respond (.okRead d) s := by simp [transact, h]

theorem transact_write_okay {v : Word} {s' : State} (h : busWrite off size v s = some s') :
    transact (.write off size v) s = respond .okWrite s' := by simp [transact, h]

theorem transact_write_refused {v : Word} (h : busWrite off size v s = none) :
    transact (.write off size v) s = respond (.busErr off) s := by simp [transact, h]

/-- Above the registers only a write inside IN_BUF of an idle block is taken (R32, R38). -/
theorem busWrite_refused (v : Word) (hr : 0x20 ≤ off.toNat)
    (hi : s.status.busy = false → inBase + s.inCap.bytes < off.toNat + size.bytes) : busWrite off size v s = none := by
  refine Option.eq_none_iff_forall_ne_some.mpr fun s' hw => ?_
  rcases busWrite_cases hw with ⟨r, hreg, -⟩ | ⟨-, hhi, -, hb, -⟩
  · omega
  · exact absurd (hi hb) (Nat.not_lt.mpr hhi)

theorem transact_write_inBuf_busy (v : Word) (hb : s.status.busy = true) (hlo : inBase ≤ off.toNat) :
    transact (.write off size v) s = respond (.busErr off) s :=
  transact_write_refused (busWrite_refused v (Nat.le_trans (by decide) hlo) (by simp [hb]))

theorem transact_write_outBuf (v : Word) (hlo : outBase ≤ off.toNat) :
    transact (.write off size v) s = respond (.busErr off) s := by
  refine transact_write_refused (busWrite_refused v (Nat.le_trans (by decide) hlo) fun _ => ?_)
  have := inBuf_end_le_outBase s
  have := size_pos size
  omega

/-- An IN_LEN write while BUSY is refused (R38). -/
theorem transact_write_inLen_busy (v : Word) (hb : s.status.busy = true) :
    transact (.write 0x008 .b4 v) s = respond (.busErr 0x008) s := by
  have hw : writeReg .inLen v s = none := by simp [writeReg, hb]
  rw [transact_write_reg (r := .inLen) v rfl (by decide), hw]

/-- While idle IN_LEN takes any value (R20). -/
theorem transact_write_inLen_idle (v : Word) (hb : s.status.busy = false) :
    transact (.write 0x008 .b4 v) s = respond .okWrite { s with inLen := v } :=
  transact_write_reg_okay (r := .inLen) rfl (by simp [writeReg, hb])

/-- A write inside IN_BUF of an idle block stores its bytes from its offset on. -/
theorem transact_write_inBuf_idle (v : Word) (hb : s.status.busy = false) (hlo : inBase ≤ off.toNat)
    (hhi : off.toNat + size.bytes ≤ inBase + s.inCap.bytes) (ha : off.toNat % size.bytes = 0) :
    transact (.write off size v) s =
      respond .okWrite { s with mem := s.mem.setBytes off.toNat (splitBytes size.bytes v) } := by
  apply transact_write_okay
  simp only [busWrite, target_inBuf hlo hhi ha, hb, Bool.false_eq_true, if_false, Nat.add_sub_cancel' hlo]

theorem get?_setBytes_splitBytes (m : Memory) (a : Nat) (v : Word) {n k : Nat} (hk : k < n) :
    (m.setBytes a (splitBytes n v)).get? (a + k) = some (v.extractLsb' (8 * k) 8) := by
  rw [Memory.get?_setBytes, length_splitBytes, if_pos (by omega), Nat.add_sub_cancel_left, getElem?_splitBytes v hk]

theorem get?_setBytes_outside (m : Memory) {a b : Nat} {vs : List Byte} (h : b < a ∨ a + vs.length ≤ b) :
    (m.setBytes a vs).get? b = m.get? b := by rw [Memory.get?_setBytes, if_neg (by omega)]

/-! ### The data of a buffer read -/

/-- The data of an access, from the byte at each of its offsets (R36). -/
def laneData (size : Size) (f : Nat → Byte) : Word := joinBytes ((List.range size.bytes).map f)

theorem laneData_lane (f : Nat → Byte) {k : Nat} (hk : k < size.bytes) :
    (laneData size f).extractLsb' (8 * k) 8 = f k := by
  rw [laneData, joinBytes_lane _ k (Nat.lt_of_lt_of_le hk (size_le size))]
  simp [hk]

theorem laneData_lt (size : Size) (f : Nat → Byte) : (laneData size f).toNat < 2 ^ (8 * size.bytes) := by
  simpa [laneData] using joinBytes_lt ((List.range size.bytes).map f) (by simpa using size_le size)

theorem busRead_inBuf (hlo : inBase ≤ off.toNat) (hhi : off.toNat + size.bytes ≤ inBase + s.inCap.bytes)
    (ha : off.toNat % size.bytes = 0) :
    busRead off size s = some (laneData size fun k => inByte s (off.toNat - inBase + k)) := by
  simp only [busRead, target_inBuf hlo hhi ha, laneData]

theorem busRead_outBuf (hlo : outBase ≤ off.toNat) (hhi : off.toNat + size.bytes ≤ outBase + s.outCap.bytes)
    (ha : off.toNat % size.bytes = 0) :
    busRead off size s = some (laneData size fun k => outByte s (off.toNat - outBase + k)) := by
  simp only [busRead, target_outBuf hlo hhi ha, laneData]

theorem inByte_stored {i : Nat} {b : Byte} (h : s.mem.get? (inBase + i) = some b) : inByte s i = b := by
  simp [inByte, h]

theorem inByte_unstored {i : Nat} (h : s.mem.get? (inBase + i) = none) :
    inByte s i = Config.freeByte s.copy s.epoch (inBase + i) := by simp [inByte, h]

theorem outByte_stored {j : Nat} {b : Byte} (hb : s.status.busy = false) (hj : j < s.outLen.toNat)
    (h : s.mem.get? (outBase + j) = some b) : outByte s j = b := by simp [outByte, hb, hj, h]

theorem outByte_unspecified {j : Nat} (h : s.status.busy = true ∨ s.outLen.toNat ≤ j) :
    outByte s j = Config.freeByte s.copy s.draws (outBase + j) := if_pos h

/-! ### A host's read of a command's output -/

section

variable {t : State} {out : List Byte}

theorem busy_of_completesOk (h : CompletesOk s t out) : t.status.busy = false := by rw [h.registers]

theorem outCap_of_completesOk (h : CompletesOk s t out) : t.outCap = s.outCap := by rw [h.registers]

theorem toNat_outLen_of_completesOk (h : CompletesOk s t out) : t.outLen.toNat = out.length := by
  have := h.fits
  have := capacity_le s.outCap
  rw [h.registers]
  exact Nat.mod_eq_of_lt (by omega)

/-- After a success the host reads the output (R41). -/
theorem outByte_of_completesOk (h : CompletesOk s t out) {j : Nat} (hj : j < out.length) :
    out[j]? = some (outByte t j) := by
  have hst := h.stored j hj
  rw [List.getElem?_eq_getElem hj] at hst ⊢
  rw [outByte_stored (busy_of_completesOk h) (hj.trans_eq (toNat_outLen_of_completesOk h).symm) hst]

end

end

/-! ### The statements -/

/-- Settles O8: an IN_LEN write and an IN_BUF write are refused while BUSY, the invariant holds OUT_LEN at 0, and each
buffer reads lane by lane. -/
theorem inputIsFixedWhileBusy : Obligations.InputIsFixedWhileBusy := by
  refine ⟨fun s hb hinv => ⟨fun v => transact_write_inLen_busy v hb,
      fun off size v hlo _ => transact_write_inBuf_busy v hb hlo, ?outLen, ?outBuf, ?inBuf⟩,
    fun s v hb => ⟨?stored, ?reads⟩⟩
  case outLen =>
    obtain ⟨-, -, -, hl⟩ := hinv.busyClear hb
    rw [busRead_reg (r := .outLen) rfl (by decide)]
    exact congrArg some hl
  case outBuf =>
    intro off size hlo hhi ha
    refine ⟨_, busRead_outBuf hlo hhi ha, fun k hk => ?_⟩
    rw [laneData_lane _ hk, outByte_unspecified (.inl hb), base_add_index hlo]
  case inBuf =>
    intro off size hlo hhi ha
    refine ⟨_, busRead_inBuf hlo hhi ha, fun k b hk hm => ?_⟩
    rw [laneData_lane _ hk, inByte_stored (by rwa [base_add_index hlo])]
  case stored => exact transact_write_inLen_idle v hb
  case reads =>
    rw [busRead_reg (r := .inLen) rfl (by decide), transact_write_inLen_idle v hb]
    rfl

/-- Settles O10: a reserved offset reaches nothing. -/
theorem reservedOffsetsAnswerBusErr : Obligations.ReservedOffsetsAnswerBusErr := fun _ _ _ v h =>
  transact_no_target v (target_reserved h)

/-- Settles O11: a register stands at every multiple of 4 and nowhere else, and only a 32-bit access reaches it. -/
theorem registerAccessForm : Obligations.RegisterAccessForm := by
  intro s off size v hr
  refine ⟨fun hf => transact_no_target v (target_misplaced_reg hr hf), ?_⟩
  rintro ⟨rfl, ha⟩
  obtain ⟨r, hreg⟩ := Option.isSome_iff_exists.mp ((regAt_isSome off.toNat hr).trans (decide_eq_true ha))
  exact ⟨_, transact_read_data (busRead_reg hreg hr)⟩

/-- Settles O12: a misplaced access reaches nothing, an aligned read inside reaches its buffer, and no write reaches
OUT_BUF. -/
theorem bufferAccessForm : Obligations.BufferAccessForm := by
  intro s off size v base cap hb hlo hhi
  refine ⟨fun hf => transact_no_target v (target_misplaced_buffer hb hlo hhi hf), ?read, ?write⟩
  case read =>
    rintro ⟨ha, hend⟩
    rcases hb with ⟨rfl, rfl⟩ | ⟨rfl, rfl⟩
    · exact ⟨_, transact_read_data (busRead_inBuf hlo hend ha)⟩
    · exact ⟨_, transact_read_data (busRead_outBuf hlo hend ha)⟩
  case write =>
    rintro rfl
    exact transact_write_outBuf v hlo

/-- Settles O13, lane by lane: the bytes a write stores, the bytes a read of each buffer joins, and the output of a
success. -/
theorem busIsLittleEndian : Obligations.BusIsLittleEndian := by
  refine ⟨fun s off size v ha => ⟨fun hlo hhi => ⟨fun hb => ?write, ?readIn⟩, fun hlo hhi => ?readOut⟩, ?output⟩
  case write =>
    exact ⟨_, transact_write_inBuf_idle v hb hlo hhi ha, fun k hk => get?_setBytes_splitBytes s.mem off.toNat v hk,
      fun a hout => get?_setBytes_outside s.mem (by rwa [length_splitBytes])⟩
  case readIn =>
    refine ⟨_, transact_read_data (busRead_inBuf hlo hhi ha), fun k hk => ?_, laneData_lt size _⟩
    rw [laneData_lane _ hk, ← base_add_index hlo]
    exact ⟨rfl, fun b => inByte_stored, inByte_unstored⟩
  case readOut =>
    refine ⟨_, transact_read_data (busRead_outBuf hlo hhi ha), fun k hk => ?_, laneData_lt size _⟩
    rw [laneData_lane _ hk, ← base_add_index hlo]
    exact ⟨rfl, fun hb hj b => outByte_stored hb hj, fun hj => outByte_unspecified (.inr hj)⟩
  case output =>
    intro i s t out off size _ hc ha hlo hhi
    have hcap : off.toNat + size.bytes ≤ outBase + t.outCap.bytes := by
      have := hc.fits
      rw [outCap_of_completesOk hc]
      omega
    refine ⟨_, transact_read_data (busRead_outBuf hlo hcap ha), fun k hk => ?_⟩
    rw [laneData_lane _ hk, outByte_of_completesOk hc (by omega)]

/-- Settles O14: a read transaction is an answer and nothing else. -/
theorem readsHaveNoSideEffect : Obligations.ReadsHaveNoSideEffect := fun s off size => transact_read off size s

end Sys2Proof.Machine
end

section
/-! PROOFS. The command word (30_encoding.md): when a word is a command and which, what an illegal word does, which
fields a command reads, and the statements of this family. -/

namespace Sys2Proof.Machine

open Sys2Proof Safety

/-! ### The decoder -/

/-- The opcode map sends exactly a command's opcode to it, with the T bit and the fields as given (R54). -/
theorem decodeOp_eq_some_iff {op : Nat} {t : Bool} {c : FormatConfig} {i : Instr} :
    decodeOp op t c = some i ↔ op = i.opcode.toNat ∧ i.throwing = t ∧ i.format = c := by
  constructor
  · intro h
    unfold decodeOp at h
    split at h <;> cases h <;> exact ⟨rfl, rfl, rfl⟩
  · rintro ⟨rfl, rfl, rfl⟩
    cases i <;> rfl

/-- A word is a command exactly when its reserved bits are 0 and its other fields are the command's (R47, R54, R55). -/
theorem decode_eq_ok_iff {w : Word} {i : Instr} :
    decode w = .ok i ↔ (rsvHighField w = 0 ∧ rsvLowField w = false ∧ opField w = i.opcode)
      ∧ i.throwing = throwField w ∧ i.format = formatField w := by
  rw [decode]
  split
  case isTrue hh => exact ⟨nofun, fun ⟨⟨h, _⟩, _⟩ => absurd h hh⟩
  case isFalse hh =>
    split
    case isTrue hl => simp [hl]
    case isFalse hl =>
      have map_some := decodeOp_eq_some_iff (op := (opField w).toNat) (t := throwField w) (c := formatField w) (i := i)
      rw [BitVec.toNat_inj] at map_some
      split <;> next hd => simpa [not_not.mp hh, hl, hd] using map_some

/-- A command whose ALPHA fits 4 bits is read back from its word (R47). -/
theorem decode_encode {i : Instr} (h : i.wf = true) : decode (encode i) = .ok i := by
  obtain ⟨hh, hl, ht, ha, hp, hc, ho⟩ :=
    fields_of_layout i.opcode i.throwing i.format.ci i.format.pad (BitVec.ofNat 4 i.format.alpha) (w := encode i) rfl
  have halpha : (alphaField (encode i)).toNat = i.format.alpha := by
    rw [ha, BitVec.toNat_ofNat, Nat.mod_eq_of_lt (of_decide_eq_true h)]
  refine decode_eq_ok_iff.mpr ⟨⟨hh, hl, ho⟩, ht.symm, ?_⟩
  rw [formatField, halpha, hp, hc]

/-! ### The mask and the match -/

/-- The opcode table's mask keeps OP, RSV_L and RSV_H: every bit but T, ALPHA, PAD and CI (R54). -/
theorem getLsbD_tableMask : ∀ k < 32, (0xFFFFC07F : Word).getLsbD k = decide (k < 7 ∨ 14 ≤ k) := by decide

/-- The mask and match, bit by bit: the bits the mask keeps are the opcode's. -/
theorem and_tableMask_eq_iff_bits {w : Word} {op : BitVec 6} :
    w &&& 0xFFFFC07F = op.setWidth 32 ↔ ∀ k < 32, k < 7 ∨ 14 ≤ k → w.getLsbD k = op.getLsbD k := by
  constructor
  · intro h k hk hm
    have hbit := congrArg (BitVec.getLsbD · k) h
    simpa only [BitVec.getLsbD_and, getLsbD_tableMask k hk, hm, BitVec.getLsbD_setWidth, hk, decide_true,
      Bool.and_true, Bool.true_and] using hbit
  · intro kept
    apply BitVec.eq_of_getLsbD_eq
    intro k hk
    rw [BitVec.getLsbD_and, getLsbD_tableMask k hk, BitVec.getLsbD_setWidth]
    by_cases hm : k < 7 ∨ 14 ≤ k
    · rw [kept k hk hm, decide_eq_true hm, decide_eq_true hk, Bool.and_true, Bool.true_and]
    · simp [hm, BitVec.getLsbD_of_ge op k (by omega)]

/-- Masked with the table's mask, a word is an opcode exactly when OP is that opcode and the reserved bits are 0. -/
theorem and_tableMask_eq_iff {w : Word} {op : BitVec 6} :
    w &&& 0xFFFFC07F = op.setWidth 32 ↔ rsvHighField w = 0 ∧ rsvLowField w = false ∧ opField w = op := by
  rw [and_tableMask_eq_iff_bits]
  constructor
  · intro kept
    refine ⟨BitVec.eq_of_getLsbD_eq fun k hk => ?high, ?low, BitVec.eq_of_getLsbD_eq fun k hk => ?op⟩
    case high =>
      rw [rsvHighField, BitVec.getLsbD_extractLsb', kept (14 + k) (by omega) (by omega),
        BitVec.getLsbD_of_ge op _ (by omega)]
      simp
    case low => exact (kept 6 (by decide) (by decide)).trans (BitVec.getLsbD_of_ge op 6 (Nat.le_refl 6))
    case op =>
      rw [opField, BitVec.getLsbD_extractLsb', Nat.zero_add, kept k (by omega) (by omega)]
      simp [hk]
  · rintro ⟨hh, hl, rfl⟩ k hk hm
    by_cases h6 : k < 6
    · rw [opField, BitVec.getLsbD_extractLsb', Nat.zero_add, decide_eq_true h6, Bool.true_and]
    · rw [BitVec.getLsbD_of_ge _ k (Nat.le_of_not_lt h6)]
      by_cases h14 : 14 ≤ k
      · have hbit : (rsvHighField w).getLsbD (k - 14) = false := by simp [hh]
        simpa only [rsvHighField, BitVec.getLsbD_extractLsb', Nat.add_sub_cancel' h14, show k - 14 < 18 by omega,
          decide_true, Bool.true_and] using hbit
      · obtain rfl : k = 6 := by omega
        exact hl

/-- ALPHA, bits 11:8, as a number (R47, R49). -/
theorem toNat_alphaField (w : Word) : (alphaField w).toNat = w.toNat / 256 % 16 := by
  rw [alphaField, BitVec.extractLsb'_toNat, Nat.shiftRight_eq_div_pow]

/-! ### Illegal words -/

/-- The opcodes in use are 0x01 to 0x0D (R54). -/
theorem opcode_range (i : Instr) : i.opcode ≠ 0 ∧ i.opcode.toNat < 0x0E := by
  cases i <;> simp [Instr.opcode]

/-- A word that is illegal in one of R55's ways is no command. -/
theorem decode_illegal {w : Word} (h : rsvHighField w ≠ 0 ∨ rsvLowField w = true ∨ opField w = 0
    ∨ 0x0E ≤ (opField w).toNat) : ∃ e, decode w = .error e := by
  cases hd : decode w with
  | error e => exact ⟨e, rfl⟩
  | ok i =>
    obtain ⟨⟨hh, hl, ho⟩, -⟩ := decode_eq_ok_iff.mp hd
    obtain ⟨hpos, hlt⟩ := opcode_range i
    rw [← ho] at hpos hlt
    rcases h with h | h | h | h
    · exact absurd hh h
    · simp [hl] at h
    · exact absurd h hpos
    · exact absurd hlt (Nat.not_lt.mpr h)

/-- The engine's turn on an illegal word fails it with ILLEGAL_COMMAND, throwing when its T bit is set (R55, R69). -/
theorem engineTurn_illegal_completes {s : State} {e : DecodeError} (hb : s.status.busy = true)
    (hd : decode s.cmd = .error e) :
    ∃ t, engineTurn s = .next t ∧ CompletesErr s t (s.cmd.getLsbD 7) .illegalCommand :=
  ⟨completeIllegal s, engineTurn_illegal hb hd, completesErr_failWith _ _ s⟩

/-! ### What of a command word its step reads -/

/-- A command's step is settled by its T bit and its result. -/
theorem exec_congr {i j : Instr} {s : State} (ht : i.throwing = j.throwing) (hr : result i s = result j s) :
    exec i s = exec j s := by rw [exec_eq, exec_eq, ht, hr]

/-- Beside its operation, a codec command reads ALPHA alone of its fields. -/
theorem executeCodec_same_alpha {f : Family} {cfg cfg' : FormatConfig} {s : State}
    {op : List Byte → List Byte → Except CmdError (List Byte)} (h : cfg.alpha = cfg'.alpha) :
    executeCodec f cfg s op = executeCodec f cfg' s op := by rw [executeCodec, executeCodec, h]

/-- The throwing form of a complete step is the try form with FERR set when it failed (R53, R107). -/
theorem complete_throwing (r : Except CmdError (List Byte)) (s : State) :
    (complete false r s).status.ferr = s.status.ferr
      ∧ (complete true r s).status.ferr = (s.status.ferr || !(complete false r s).status.ok)
      ∧ complete true r s = { complete false r s with
          status := { (complete false r s).status with ferr := (complete true r s).status.ferr } } := by
  cases r with
  | ok out => exact ⟨rfl, by simp [complete], rfl⟩
  | error e => exact ⟨by simp [complete], by simp [complete], rfl⟩

/-! ### The statements -/

/-- Settles O1: a command's word has the command's fields, and those are what the decoder reads. -/
theorem decodeEncodeRoundTrip : Obligations.DecodeEncodeRoundTrip := fun _ => decode_encode

/-- Settles O2: the decoder's condition on OP and the reserved bits is the mask and match of the opcode table. -/
theorem decodeSelectsByMaskAndMatch : Obligations.DecodeSelectsByMaskAndMatch := by
  intro w i
  rw [decode_eq_ok_iff, and_tableMask_eq_iff, ← toNat_alphaField]
  rfl

/-- Settles O5: an illegal word is accepted as any word is, and the decoder's refusal is completed by the engine. -/
theorem illegalWordCompletesIllegal : Obligations.IllegalWordCompletesIllegal := by
  intro s w hw
  refine ⟨fun hb => ?accepted, ?completed⟩
  case accepted =>
    rw [transact_write_reg_okay (r := .cmd) rfl (writeReg_cmd_idle w hb)]
    exact ⟨rfl, rfl⟩
  case completed =>
    rintro hb rfl
    obtain ⟨e, hd⟩ := decode_illegal hw
    refine ⟨fun ht => ?unlisted, fun rest ht => ?listed⟩
    case unlisted =>
      rw [step_unlisted_busy ht hb]
      exact engineTurn_illegal_completes hb hd
    case listed =>
      rw [step_engine ht]
      exact engineTurn_illegal_completes (s := { s with turns := rest }) hb hd

/-- Settles O41: T has no part in the result, so the two forms differ as the two forms of a complete step do. -/
theorem throwBitOnlySetsFerr : Obligations.ThrowBitOnlySetsFerr := by
  intro i j s hop hfmt hi hj
  obtain ⟨hkeep, hset, hrest⟩ := complete_throwing (result j s) s
  refine ⟨complete true (result j s) s, complete false (result j s) s, ?_, ?_, hrest, hkeep, hset⟩
  · rw [exec_eq, hi, result_throwing s hop hfmt]
  · rw [exec_eq, hj]

/-- Settles O3: the decoder evaluated on each word. -/
theorem sampleWordsDecode : Obligations.SampleWordsDecode :=
  ⟨rfl, rfl, rfl, rfl, rfl, rfl, rfl, rfl, rfl, rfl⟩

/-- Settles O43: of the ignored fields neither the codec's checks nor its operation reads any, and CMD stores the whole
word. -/
theorem ignoredFields : Obligations.IgnoredFields := by
  refine ⟨fun t p c p' c' a s => ?codec, fun t cfg cfg' s => ?checksum, fun s w hb => ?readBack⟩
  case codec =>
    and_intros <;> exact exec_congr rfl (executeCodec_same_alpha rfl)
  case checksum => exact ⟨exec_congr rfl rfl, exec_congr rfl rfl, exec_congr rfl rfl⟩
  case readBack =>
    rw [busRead_reg (r := .cmd) rfl (by decide), transact_write_reg_okay (r := .cmd) rfl (writeReg_cmd_idle w hb)]
    rfl

end Sys2Proof.Machine
end

section
/-! PROOFS. What the commands share (40_common.md): the alphabets and what a lookup finds, the CMD write, the order of the
checks, the empty input, what a result depends on, and the statements of this family. -/

namespace Sys2Proof.Machine

open Sys2Proof Safety

/-! ### The alphabets -/

/-- The base of a family: how many symbols each of its alphabets has (R60). -/
def Family.base : Family → Nat
  | .base16 => 16
  | .base32 => 32
  | .base58 => 58
  | .base64 => 64

/-- An ASCII character but the pad, as a check that runs over an alphabet. -/
def isAsciiNoPad (x : Byte) : Bool := x != padChar && decide (x.toNat < 0x80)

theorem rom_isSome_iff {f : Family} {a : Nat} : (rom f a).isSome = true ↔ a < (familyRom f).length := by
  simp [rom]

section

variable {f : Family} {a : Nat} {A : List Byte}

theorem mem_familyRom (h : rom f a = some A) : A ∈ familyRom f := List.mem_of_getElem? h

/-- The symbols of an alphabet are distinct (R60), checked on each of the eleven of R61. -/
theorem nodup_of_rom (h : rom f a = some A) : A.Nodup := by
  have base16 : ∀ A ∈ base16Rom, A.Nodup := by decide
  have base32 : ∀ A ∈ base32Rom, A.Nodup := by decide
  have base58 : ∀ A ∈ base58Rom, A.Nodup := by decide
  have base64 : ∀ A ∈ base64Rom, A.Nodup := by decide
  have hm := mem_familyRom h
  cases f with
  | base16 => exact base16 A hm
  | base32 => exact base32 A hm
  | base58 => exact base58 A hm
  | base64 => exact base64 A hm

theorem length_of_rom (h : rom f a = some A) : A.length = f.base := by
  have sizes : ∀ A ∈ familyRom f, A.length = f.base := by cases f <;> decide
  exact sizes A (mem_familyRom h)

/-- The symbols are ASCII characters, none of them the pad (R60). -/
theorem ascii_of_rom (h : rom f a = some A) : ∀ x ∈ A, x ≠ padChar ∧ x.toNat < 0x80 := by
  have codes : ∀ A ∈ familyRom f, A.all isAsciiNoPad = true := by cases f <;> decide
  intro x hx
  simpa [isAsciiNoPad] using List.all_eq_true.mp (codes A (mem_familyRom h)) x hx

theorem padChar_not_mem_of_rom (h : rom f a = some A) : padChar ∉ A := fun hm => (ascii_of_rom h _ hm).1 rfl

end

/-! ### Lookup -/

/-- The code of an upper-case letter. -/
abbrev IsUpper (c : Byte) : Prop := 0x41 ≤ c.toNat ∧ c.toNat ≤ 0x5A

/-- The code of a lower-case letter. -/
abbrev IsLower (c : Byte) : Prop := 0x61 ≤ c.toNat ∧ c.toNat ≤ 0x7A

/-- The symbols that a lookup of `c` may stop at: `c`, and with `ci` the other case of the letter `c` (R64). -/
def Accepts (ci : Bool) (c a : Byte) : Prop :=
  a = c ∨ (ci = true ∧ ((IsUpper c ∧ a = c + 0x20) ∨ (IsLower c ∧ a = c - 0x20)))

/-- A code with an upper-case letter made lower-case. -/
def foldCase (c : Byte) : Byte := if IsUpper c then c + 0x20 else c

/-- Two codes fold alike exactly when they are equal or the two cases of a letter. -/
theorem accepts_true_iff {c a : Byte} : Accepts true c a ↔ foldCase a = foldCase c := by
  simp only [Accepts, foldCase, true_and]
  split <;> split <;> bv_omega

/-- A digit that is found is the digit of a symbol the lookup accepts. -/
theorem exists_accepts_of_lookup {A : List Byte} {ci : Bool} {c : Byte} {d : Nat} (h : lookup A ci c = some d) :
    ∃ a, A[d]? = some a ∧ Accepts ci c a := by
  unfold lookup at h
  split at h
  case h_1 hi =>
    cases h
    exact ⟨c, indexOf_some hi, .inl rfl⟩
  case h_2 =>
    split at h
    case h_1 hi =>
      cases h
      split at hi
      case isTrue hc => exact ⟨_, indexOf_some hi, .inr ⟨hc.1, .inl ⟨hc.2, rfl⟩⟩⟩
      case isFalse => cases hi
    case h_2 =>
      split at h
      case isTrue hc => exact ⟨_, indexOf_some h, .inr ⟨hc.1, .inr ⟨hc.2, rfl⟩⟩⟩
      case isFalse => cases h

/-- A lookup that finds nothing has tried every symbol it accepts. -/
theorem not_accepts_of_lookup_eq_none {A : List Byte} {ci : Bool} {c : Byte} (h : lookup A ci c = none) :
    ∀ a ∈ A, ¬ Accepts ci c a := by
  unfold lookup at h
  split at h
  case h_1 => cases h
  case h_2 hexact =>
    split at h
    case h_1 => cases h
    case h_2 hupper =>
      rintro a ha (rfl | ⟨rfl, ⟨hc, rfl⟩ | ⟨hc, rfl⟩⟩)
      · exact indexOf_none_iff.mp hexact ha
      · rw [if_pos ⟨rfl, hc⟩] at hupper
        exact indexOf_none_iff.mp hupper ha
      · rw [if_pos ⟨rfl, hc⟩] at h
        exact indexOf_none_iff.mp h ha

/-- Nothing is found exactly when no symbol is accepted. -/
theorem lookup_eq_none_iff {A : List Byte} {ci : Bool} {c : Byte} :
    lookup A ci c = none ↔ ∀ a ∈ A, ¬ Accepts ci c a := by
  refine ⟨not_accepts_of_lookup_eq_none, fun h => Option.eq_none_iff_forall_ne_some.mpr fun d hd => ?_⟩
  obtain ⟨a, ha, hacc⟩ := exists_accepts_of_lookup hd
  exact h a (List.mem_of_getElem? ha) hacc

/-- In an alphabet with no letter in both cases, a lookup with CI = 1 is a search among the folded symbols. -/
theorem lookup_true_iff {A : List Byte} (hA : (A.map foldCase).Nodup) {c : Byte} {d : Nat} :
    lookup A true c = some d ↔ (A.map foldCase)[d]? = some (foldCase c) := by
  have folded : ∀ {k}, lookup A true c = some k → (A.map foldCase)[k]? = some (foldCase c) := fun h => by
    obtain ⟨a, ha, hacc⟩ := exists_accepts_of_lookup h
    rw [List.getElem?_map, ha, Option.map_some, accepts_true_iff.mp hacc]
  refine ⟨folded, fun h => ?_⟩
  cases hl : lookup A true c with
  | none =>
    rw [List.getElem?_map, Option.map_eq_some_iff] at h
    obtain ⟨a, ha, hf⟩ := h
    exact absurd (accepts_true_iff.mpr hf) (lookup_eq_none_iff.mp hl a (List.mem_of_getElem? ha))
  | some k => rw [← (indexOf_iff hA).mpr h, (indexOf_iff hA).mpr (folded hl)]

/-- No base-16 or base-32 alphabet has a letter in both cases (R61). -/
theorem nodup_foldCase_of_rom {f : Family} {a : Nat} {A : List Byte} (h : rom f a = some A)
    (hf : f = .base16 ∨ f = .base32) : (A.map foldCase).Nodup := by
  have folded : ∀ A ∈ base16Rom ++ base32Rom, (A.map foldCase).Nodup := by decide
  have hm := mem_familyRom h
  rcases hf with rfl | rfl
  · exact folded A (List.mem_append_left _ hm)
  · exact folded A (List.mem_append_right _ hm)

/-- A character that is found is an ASCII character and not the pad (R64). -/
theorem ascii_of_accepts {ci : Bool} {c a : Byte} (h : Accepts ci c a) (ha : a ≠ padChar ∧ a.toNat < 0x80) :
    c ≠ padChar ∧ c.toNat < 0x80 := by
  rcases h with rfl | ⟨-, ⟨hc, -⟩ | ⟨hc, -⟩⟩
  · exact ha
  all_goals
    obtain ⟨hlo, hhi⟩ := hc
    refine ⟨?_, by omega⟩
    rintro rfl
    revert hlo
    decide

/-! ### The CMD write -/

/-- A CMD write while BUSY is dropped (R67). -/
theorem writeReg_cmd_busy {s : State} (w : Word) (hb : s.status.busy = true) :
    writeReg .cmd w s = some (overrun s) := by simp [writeReg, hb]

/-! ### The order of the checks -/

/-- The alphabet a command runs with: the one its ALPHA selects in its family, and any where it uses none. -/
def RunsWith (i : Instr) (A : List Byte) : Prop := ∀ f, commandFamily i = some f → rom f i.format.alpha = some A

theorem runsWith_of_rom {i : Instr} {f : Family} {A : List Byte} (hf : commandFamily i = some f)
    (h : rom f i.format.alpha = some A) : RunsWith i A := by
  intro g hg
  rw [hf] at hg
  cases hg
  exact h

theorem runsWith_of_no_family {i : Instr} (hf : commandFamily i = none) (A : List Byte) : RunsWith i A := by
  intro g hg
  rw [hf] at hg
  cases hg

/-- The legal ALPHA values are those of the family's alphabets (R50). -/
theorem legalAlphas_family {i : Instr} {f : Family} (hf : commandFamily i = some f) :
    legalAlphas i = (familyRom f).length := by
  cases i <;> cases hf <;> rfl

/-- A command without a family takes every ALPHA value of the 4-bit field (R50). -/
theorem legalAlphas_no_family {i : Instr} (hf : commandFamily i = none) : legalAlphas i = 16 := by
  cases i <;> cases hf <;> rfl

theorem exists_runsWith {i : Instr} (h : i.format.alpha < legalAlphas i) : ∃ A, RunsWith i A := by
  cases hf : commandFamily i with
  | none => exact ⟨[], runsWith_of_no_family hf []⟩
  | some f =>
    obtain ⟨A, hA⟩ := rom_eq_some (h.trans_eq (legalAlphas_family hf))
    exact ⟨A, runsWith_of_rom hf hA⟩

section

variable {i : Instr} {s : State} {A : List Byte}

theorem fails_illegal_alpha (s : State) (hwf : i.wf = true) (h : legalAlphas i ≤ i.format.alpha) :
    Fails i s .unsupportedConfig := by
  cases hf : commandFamily i with
  | none =>
    have hfit : i.format.alpha < 16 := of_decide_eq_true hwf
    exact absurd ((legalAlphas_no_family hf).symm.trans_le h) (Nat.not_le.mpr hfit)
  | some f =>
    exact fails_of_result (result_illegal_alpha s hf (rom_eq_none ((legalAlphas_family hf).symm.trans_le h)))

theorem fails_long_input (hA : RunsWith i A) (h : s.inCap.bytes < s.inLen.toNat) : Fails i s .capacity :=
  fails_of_result ((result_operation s hA).trans (executeOver_long_input h))

theorem fails_of_operation (hA : RunsWith i A) (hin : InputFits s) {e : CmdError}
    (h : operation i A (inputBytes s) = .error e) : Fails i s e :=
  fails_of_result ((result_operation s hA).trans (executeOver_error hin h))

theorem fails_long_output (hA : RunsWith i A) (hin : InputFits s) {out : List Byte}
    (h : operation i A (inputBytes s) = .ok out) (hout : s.outCap.bytes < out.length) : Fails i s .capacity :=
  fails_of_result ((result_operation s hA).trans (executeOver_long_output hin h hout))

theorem succeeds_of_operation (hA : RunsWith i A) (hin : InputFits s) {out : List Byte}
    (h : operation i A (inputBytes s) = .ok out) (hout : OutputFits s out) : Succeeds i s out :=
  succeeds_of_result ((result_operation s hA).trans (executeOver_ok_iff.mpr ⟨hin, h, hout⟩))

end

/-! ### The causes of an operation -/

/-- An operation's own causes: a bad character, a bad length, a wrong checksum (R70). -/
def CmdError.OfOperation (e : CmdError) : Prop := e = .invalidCharacter ∨ e = .invalidLength ∨ e = .checksumMismatch

section

variable {A input : List Byte} {e : CmdError}

theorem cause_b16Decode {ci : Bool} (h : b16Decode A ci input = .error e) : e.OfOperation := by
  unfold b16Decode at h
  split at h
  · cases h
    exact .inr (.inl rfl)
  · split at h <;> cases h
    exact .inl rfl

theorem cause_textDigits {B : Nat} {pad ci : Bool} (h : textDigits input A B pad ci = .error e) : e.OfOperation := by
  unfold textDigits at h
  split at h
  · cases h
    exact .inr (.inl rfl)
  · split at h <;> cases h
    exact .inl rfl

theorem cause_someBytes {out : List Byte} (h : someBytes input out = .error e) : e.OfOperation := by
  unfold someBytes at h
  split at h <;> cases h
  exact .inr (.inl rfl)

theorem cause_packDec {W B : Nat} {pad ci : Bool} (h : packDec input A W B pad ci = .error e) : e.OfOperation := by
  unfold packDec at h
  split at h
  case h_1 hd =>
    cases h
    exact cause_textDigits hd
  case h_2 => exact cause_someBytes h

theorem cause_b58Decode (h : b58Decode A input = .error e) : e.OfOperation := by
  simp only [b58Decode] at h
  split at h <;> cases h
  exact .inl rfl

theorem cause_verifyChecksum {hash : List Byte → Config.Digest} (h : verifyChecksum hash input = .error e) :
    e.OfOperation := by
  unfold verifyChecksum at h
  split at h
  · cases h
    exact .inr (.inl rfl)
  · split at h <;> cases h
    exact .inr (.inr rfl)

theorem cause_removeChecksum (h : removeChecksum input = .error e) : e.OfOperation := by
  unfold removeChecksum at h
  split at h <;> cases h
  exact .inr (.inl rfl)

theorem cause_b58DecodeChecked {hash : List Byte → Config.Digest} (h : b58DecodeChecked hash A input = .error e) :
    e.OfOperation := by
  unfold b58DecodeChecked at h
  split at h
  case h_1 hd =>
    cases h
    exact cause_b58Decode hd
  case h_2 =>
    split at h
    case h_1 hv =>
      cases h
      exact cause_verifyChecksum hv
    case h_2 => exact cause_removeChecksum h

/-- An encoder has no failure of its own, and a decoder or a checksum command one of the three. -/
theorem cause_operation {i : Instr} (h : operation i A input = .error e) : e.OfOperation := by
  cases i with
  | b16enc | b32enc | b58enc | b64enc | chkadd | b58encc => cases h
  | b16dec => exact cause_b16Decode h
  | b32dec | b64dec => exact cause_packDec h
  | b58dec => exact cause_b58Decode h
  | chkver => exact cause_verifyChecksum h
  | chkrem => exact cause_removeChecksum h
  | b58decc => exact cause_b58DecodeChecked h

end

theorem CmdError.OfOperation.ne_capacity {e : CmdError} (h : e.OfOperation) : e ≠ .capacity := by
  rcases h with rfl | rfl | rfl <;> decide

/-! ### The empty input -/

@[simp] theorem b16Encode_nil (A : List Byte) : b16Encode A [] = [] := rfl

@[simp] theorem b16Decode_nil (A : List Byte) (ci : Bool) : b16Decode A ci [] = .ok [] := rfl

@[simp] theorem b58Encode_nil (A : List Byte) : b58Encode A [] = [] := by
  simp [b58Encode, leadingCount, ofDigits, toDigits, digitsLoop]

@[simp] theorem b58Decode_nil (A : List Byte) : b58Decode A [] = .ok [] := by
  simp [b58Decode, leadingCount, lookupAll, ofDigits, toDigits, digitsLoop]

@[simp] theorem packEnc_nil (A : List Byte) (W B : Nat) (pad : Bool) : packEnc [] A W B pad = [] := by
  simp [packEnc, encLoop, encFinish, encFlush, padToBlock, EncValues.start]

@[simp] theorem packDec_nil (A : List Byte) (W B : Nat) (pad ci : Bool) : packDec [] A W B pad ci = .ok [] := by
  simp [packDec, textDigits, stripPad, lookupAll, unpackDigits, decLoop, someBytes]

section

variable {i : Instr} {s : State}

theorem inputBytes_empty (h : s.inLen = 0) : inputBytes s = [] := by simp [inputBytes, h]

theorem inputFits_empty (h : s.inLen = 0) : InputFits s := by simp [InputFits, h]

/-- A command whose operation gives nothing for an empty input succeeds with nothing, under a legal ALPHA. -/
theorem succeeds_empty {f : Family} (hf : commandFamily i = some f) (hl : s.inLen = 0)
    (hop : ∀ A, operation i A [] = .ok []) (h : (rom f i.format.alpha).isSome = true) : Succeeds i s [] := by
  obtain ⟨A, hA⟩ := Option.isSome_iff_exists.mp h
  refine succeeds_of_operation (runsWith_of_rom hf hA) (inputFits_empty hl) ?_ (Nat.zero_le _)
  rw [inputBytes_empty hl, hop]

end

/-! ### The statements -/

/-- Settles O59: the facts of `familyRom_symbols`, and the ROM read at each ALPHA value. -/
theorem alphabetsAreDistinctSymbols : Obligations.AlphabetsAreDistinctSymbols := by
  refine ⟨fun f alpha A h => ⟨nodup_of_rom h, padChar_not_mem_of_rom h, ?size, fun d hd => ?digit⟩, ?legal,
    ⟨rfl, rfl⟩, ⟨rfl, rfl, rfl, rfl, rfl⟩, ⟨rfl, rfl, rfl⟩, rfl⟩
  case size => cases f <;> exact length_of_rom h
  case digit => exact lookup_exact false ((indexOf_iff (nodup_of_rom h)).mpr (getElem?_symbol hd))
  case legal =>
    intro f alpha
    cases f <;> exact rom_isSome_iff

/-- Settles O60: a strict lookup is the search, and one with CI = 1 a search among the folded symbols, which are the same
for the two base-16 alphabets. -/
theorem lookupFindsExactlyTheSymbols : Obligations.LookupFindsExactlyTheSymbols := by
  refine ⟨?strict, ?folded, ?never, ?base16⟩
  case strict =>
    intro f alpha A c d h
    rw [lookup_strict, indexOf_iff (nodup_of_rom h)]
  case folded =>
    intro f alpha A c d h hf
    rw [lookup_true_iff (nodup_foldCase_of_rom h hf), List.getElem?_map, Option.map_eq_some_iff]
    simp only [← accepts_true_iff]
    constructor
    · rintro ⟨a, ha, rfl | ⟨-, ⟨⟨hlo, hhi⟩, rfl⟩ | ⟨⟨hlo, hhi⟩, rfl⟩⟩⟩
      · exact .inl ha
      · exact .inr (.inl ⟨hlo, hhi, ha⟩)
      · exact .inr (.inr ⟨hlo, hhi, ha⟩)
    · rintro (ha | ⟨hlo, hhi, ha⟩ | ⟨hlo, hhi, ha⟩)
      · exact ⟨_, ha, .inl rfl⟩
      · exact ⟨_, ha, .inr ⟨rfl, .inl ⟨⟨hlo, hhi⟩, rfl⟩⟩⟩
      · exact ⟨_, ha, .inr ⟨rfl, .inr ⟨⟨hlo, hhi⟩, rfl⟩⟩⟩
  case never =>
    intro f alpha A ci c h hc
    refine lookup_eq_none_iff.mpr fun a ha hacc => ?_
    obtain ⟨hne, hlt⟩ := ascii_of_accepts hacc (ascii_of_rom h a ha)
    rcases hc with hc | hc
    · exact hne hc
    · omega
  case base16 =>
    intro A A' c h h'
    have hmap : A.map foldCase = A'.map foldCase := by
      cases h
      cases h'
      decide
    refine Option.ext fun d => ?_
    rw [lookup_true_iff (nodup_foldCase_of_rom h (.inl rfl)), lookup_true_iff (nodup_foldCase_of_rom h' (.inl rfl)), hmap]

/-- Settles O6: the write is `accept` while idle and `overrun` while BUSY. -/
theorem commandWriteIsAcceptedOrDropped : Obligations.CommandWriteIsAcceptedOrDropped := fun _ w =>
  ⟨fun hb => ⟨Work.start, rfl, rfl, transact_write_reg_okay (r := .cmd) rfl (writeReg_cmd_idle w hb)⟩,
    fun hb => transact_write_reg_okay (r := .cmd) rfl (writeReg_cmd_busy w hb)⟩

/-- Settles O34, check by check. -/
theorem checksRunInOrder : Obligations.ChecksRunInOrder := by
  refine ⟨?illegal, fun i s hwf => ⟨fails_illegal_alpha s hwf, ?longInput, fun A hA hin => ⟨?failure, ?output⟩⟩⟩
  case illegal =>
    intro s hb hw
    obtain ⟨e, hd⟩ := decode_illegal hw
    exact engineTurn_illegal_completes hb hd
  case longInput =>
    intro ha hlen
    obtain ⟨A, hA⟩ := exists_runsWith ha
    exact fails_long_input hA hlen
  case failure => exact fun e h => ⟨(cause_operation h).ne_capacity, fails_of_operation hA hin h⟩
  case output => exact fun out h => ⟨fails_long_output hA hin h, succeeds_of_operation hA hin h⟩

/-- Settles O35: each operation on the empty sequence. -/
theorem emptyInput : Obligations.EmptyInput := by
  intro t cfg s hl
  have hin := inputFits_empty hl
  have hempty := inputBytes_empty hl
  have hshort : verifyChecksum Config.hash [] = .error .invalidLength := rfl
  refine ⟨fun h => ⟨?_, ?_⟩, fun h => ⟨?_, ?_⟩, fun h => ⟨?_, ?_⟩, fun h => ⟨?_, ?_⟩, ?chkver, ?chkrem, ?b58decc, ?chkadd,
    ?b58encc⟩
  case chkver => exact fails_of_operation (runsWith_of_no_family rfl []) hin (by rw [hempty]; rfl)
  case chkrem => exact fails_of_operation (runsWith_of_no_family rfl []) hin (by rw [hempty]; rfl)
  case b58decc =>
    intro h
    obtain ⟨A, hA⟩ := Option.isSome_iff_exists.mp h
    refine fails_of_operation (runsWith_of_rom rfl hA) hin ?_
    simp [hempty, operation, b58DecodeChecked, hshort]
  case chkadd =>
    intro hcap
    refine succeeds_of_operation (runsWith_of_no_family rfl []) hin (by rw [hempty]; rfl) ?_
    exact (length_checksum Config.hash []).trans_le hcap
  case b58encc =>
    intro A hA hout
    exact succeeds_of_operation (runsWith_of_rom rfl hA) hin (by rw [hempty]; rfl) hout
  all_goals exact succeeds_empty rfl hl (by simp [operation]) h

/-- Settles O46: the results are equal by `result_congr`, and the complete step writes the result and nothing else there. -/
theorem commandReadsOnlyItsInput : Obligations.CommandReadsOnlyItsInput := by
  intro i s u hlen hbytes hin hout
  have hr := result_congr i hlen hbytes hin hout
  refine ⟨_, _, exec_eq i s, exec_eq i u, ?_⟩
  rw [← hr]
  cases h : result i s with
  | error e => exact ⟨rfl, rfl, rfl, by simp [complete]⟩
  | ok out =>
    have hs := result_fits h
    have hu := result_fits (hr ▸ h)
    refine ⟨rfl, rfl, rfl, fun j hj => ?_⟩
    replace hj := hj.trans_eq (toNat_outLen_succeed hs)
    exact ((completesOk_succeed hs).stored j hj).trans ((completesOk_succeed hu).stored j hj).symm

end Sys2Proof.Machine
end

section
/-! PROOFS. The base-16 commands (41_base16.md): the digits of a byte and the byte of two digits, what each operation
gives, and the statements of this family. -/

namespace Sys2Proof.Machine

open Sys2Proof Safety

/-! ### Digits and bytes -/

/-- The digits of a byte sequence, two a byte: bits 7:4, then bits 3:0 (R39, R76). -/
def nibbles (input : List Byte) : List Nat :=
  input.flatMap (fun b => [(b.extractLsb' 4 4).toNat, (b.extractLsb' 0 4).toNat])

/-- Base-16 encode writes the symbol of each digit. -/
theorem b16Encode_eq_map_nibbles (A input : List Byte) : b16Encode A input = (nibbles input).map (symbol A) := by
  simp [b16Encode, nibbles, List.map_flatMap]

theorem nibbles_lt {input : List Byte} {d : Nat} (h : d ∈ nibbles input) : d < 16 := by
  obtain ⟨b, -, hd⟩ := List.mem_flatMap.mp h
  obtain rfl | rfl := List.mem_pair.mp hd <;> exact BitVec.isLt _

/-- The byte of two digits, as a sum: the low digit fills the bits that the shift leaves clear. -/
theorem ofNat_shiftLeft_or {hi lo : Nat} (h : lo < 16) :
    BitVec.ofNat 8 ((hi <<< 4) ||| lo) = BitVec.ofNat 8 (16 * hi + lo) := by
  rw [← Nat.shiftLeft_add_eq_or_of_lt (i := 4) h, Nat.shiftLeft_eq, Nat.mul_comm hi]

/-- A byte is 16 times its bits 7:4 plus its bits 3:0. -/
theorem ofNat_nibbles (b : Byte) :
    BitVec.ofNat 8 (((b.extractLsb' 4 4).toNat <<< 4) ||| (b.extractLsb' 0 4).toNat) = b := by
  rw [ofNat_shiftLeft_or (BitVec.isLt _)]
  apply BitVec.eq_of_toNat_eq
  simp only [BitVec.toNat_ofNat, BitVec.extractLsb'_toNat, Nat.shiftRight_eq_div_pow]
  omega

theorem joinNibbles_nibbles (input : List Byte) : joinNibbles (nibbles input) = input := by
  induction input with
  | nil => rfl
  | cons b rest ih => exact congrArg₂ List.cons (ofNat_nibbles b) ih

/-- A digit that a lookup finds is one of the alphabet's. -/
theorem lookup_lt_length {A : List Byte} {ci : Bool} {c : Byte} {d : Nat} (h : lookup A ci c = some d) :
    d < A.length := by
  obtain ⟨a, ha, -⟩ := exists_accepts_of_lookup h
  exact (List.getElem?_eq_some_iff.mp ha).1

/-! ### The lookup of a command's input -/

section

variable {s : State} {A : List Byte} {ci : Bool}

theorem lookupAll_inputBytes {d : Nat → Nat} (h : ∀ j, j < s.inLen.toNat → lookup A ci (inByte s j) = some (d j)) :
    lookupAll A ci (inputBytes s) = some ((List.range s.inLen.toNat).map d) := by
  rw [lookupAll_some_iff, inputBytes, List.map_map, List.map_map]
  exact List.map_congr_left fun j hj => h j (List.mem_range.mp hj)

theorem lookupAll_inputBytes_none (h : ∃ j, j < s.inLen.toNat ∧ lookup A ci (inByte s j) = none) :
    lookupAll A ci (inputBytes s) = none := by
  obtain ⟨j, hj, hn⟩ := h
  exact lookupAll_none_iff.mpr ⟨inByte s j, List.mem_of_getElem? (getElem?_inputBytes s hj), hn⟩

end

/-! ### Base-16 decode, case by case (R77) -/

section

variable {A input : List Byte} {ci : Bool}

theorem b16Decode_odd (h : input.length % 2 = 1) : b16Decode A ci input = .error .invalidLength := if_pos h

theorem b16Decode_not_found (h : input.length % 2 = 0) (hl : lookupAll A ci input = none) :
    b16Decode A ci input = .error .invalidCharacter := by simp [b16Decode, h, hl]

theorem b16Decode_found {digits : List Nat} (h : input.length % 2 = 0) (hl : lookupAll A ci input = some digits) :
    b16Decode A ci input = .ok (joinNibbles digits) := by simp [b16Decode, h, hl]

end

/-! ### The statements -/

/-- Settles O21: the output is `b16Encode` of the input, element by element. -/
theorem base16EncodeResult : Obligations.Base16EncodeResult := by
  intro t cfg s A hA hin hcap
  have hlen : (b16Encode A (inputBytes s)).length = 2 * s.inLen.toNat := by simp
  exact ⟨_, succeeds_of_operation (runsWith_of_rom rfl hA) hin rfl (hlen.trans_le hcap), hlen,
    fun i hi => getElem?_b16Encode A (getElem?_inputBytes s hi)⟩

/-- Settles O22: every character is found, so the output joins the digits two by two, and a digit is below 16. -/
theorem base16DecodeResult : Obligations.Base16DecodeResult := by
  intro t cfg s A d hA hin heven hcap hd
  have hdec := b16Decode_found (by rwa [length_inputBytes]) (lookupAll_inputBytes hd)
  obtain ⟨hlen, hget⟩ := joinNibbles_spec (ds := (List.range s.inLen.toNat).map d) (k := s.inLen.toNat / 2)
    (by rw [List.length_map, List.length_range]; omega)
  refine ⟨_, succeeds_of_operation (runsWith_of_rom rfl hA) hin hdec (hlen.trans_le hcap), hlen, fun i hi => ?_⟩
  have hsmall : d (2 * i + 1) < 16 := (lookup_lt_length (hd _ (by omega))).trans_eq (length_of_rom hA)
  have hdigit : ∀ j < s.inLen.toNat, ((List.range s.inLen.toNat).map d).getD j 0 = d j := fun j hj => by simp [hj]
  rw [hget i hi, hdigit _ (by omega), hdigit _ (by omega), ofNat_shiftLeft_or hsmall]

/-- Settles O36, check by check. -/
theorem base16DecodeFailures : Obligations.Base16DecodeFailures := by
  intro t cfg s A hA hin
  have hA' : RunsWith (.b16dec t cfg) A := runsWith_of_rom rfl hA
  refine ⟨fun hodd => fails_of_operation hA' hin ?odd, fun heven hn => fails_of_operation hA' hin ?notFound⟩
  case odd => exact b16Decode_odd (by rwa [length_inputBytes])
  case notFound => exact b16Decode_not_found (by rwa [length_inputBytes]) (lookupAll_inputBytes_none hn)

/-- Settles O54: the encoding is the symbols of the digits, they read back as the digits, and those join to the bytes. -/
theorem base16RoundTrip : Obligations.Base16RoundTrip := by
  intro alpha A ci b hA
  have heven : (b16Encode A b).length % 2 = 0 := by simp
  have hfound : lookupAll A ci (b16Encode A b) = some (nibbles b) := by
    rw [b16Encode_eq_map_nibbles]
    exact lookupAll_symbols (nodup_of_rom hA) ci fun d hd => (nibbles_lt hd).trans_eq (length_of_rom hA).symm
  rw [b16Decode_found heven hfound, joinNibbles_nibbles]

end Sys2Proof.Machine
end

section
/-! PROOFS. The grouped codecs (42_base32.md section 1), for every symbol width and block length: the encoder's and the
decoder's closed forms, a text and its trailing pads, the round trip; then the base-32 commands, and the statements of
this family. -/

namespace Sys2Proof.Machine

open Sys2Proof Safety

/-! ### The encoder's closed form (R80) -/

/-- The symbol values of a byte sequence: its bits in groups of `W`, the last one filled up with zeros (R80). -/
def symbolDigits (W : Nat) (input : List Byte) : List Nat :=
  (List.range ((8 * input.length + W - 1) / W)).map
    (fun j => bitsValue (((zeroFill W (bitString input)).drop (j * W)).take W))

@[simp] theorem length_bitString (input : List Byte) : (bitString input).length = 8 * input.length := by
  simp [bitString_eq_concatBits]

@[simp] theorem length_symbolDigits (W : Nat) (input : List Byte) :
    (symbolDigits W input).length = (8 * input.length + W - 1) / W := by simp [symbolDigits]

theorem groupSymbols_eq_map_symbolDigits (W : Nat) (A input : List Byte) :
    groupSymbols W A input = (symbolDigits W input).map (symbol A) := by
  simp [groupSymbols, symbolDigits]

@[simp] theorem length_groupSymbols (W : Nat) (A input : List Byte) :
    (groupSymbols W A input).length = (8 * input.length + W - 1) / W := by
  simp [groupSymbols_eq_map_symbolDigits]

theorem symbolDigits_lt {W d : Nat} {input : List Byte} (h : d ∈ symbolDigits W input) : d < 2 ^ W := by
  obtain ⟨j, -, rfl⟩ := List.mem_map.mp h
  exact (bitsValue_lt _).trans_le (Nat.pow_le_pow_right (by decide) (List.length_take_le _ _))

/-- Whole blocks: a length and the pads after it are its quotient by the block length, rounded up, in blocks (R80). -/
theorem add_padding_length {B : Nat} (hB : 0 < B) (n : Nat) : n + (B - n % B) % B = B * ((n + B - 1) / B) := by
  simpa [zeroFill] using length_zeroFill hB (List.replicate n false)

theorem padToBlock_eq {B : Nat} (hB : 0 < B) (out : List Byte) :
    padToBlock B out = out ++ List.replicate (B * ((out.length + B - 1) / B) - out.length) padChar := by
  rw [← add_padding_length hB, Nat.add_sub_cancel_left, padToBlock]

/-- The loop and the last symbol give every group's symbol: the whole groups, and the rest filled up with zeros. -/
theorem packEnc_eq_groupSymbols {W : Nat} (hW : 0 < W) (B : Nat) (A input : List Byte) (pad : Bool) :
    packEnc input A W B pad =
      if pad then padToBlock B (groupSymbols W A input) else groupSymbols W A input := by
  obtain ⟨em, acc, cnt, hloop, hpacked⟩ := encLoop_spec hW A input
  obtain ⟨hem, hcnt, hacc⟩ := hpacked.finish
  have hflush : encFlush W A ⟨input.length, 0, acc, cnt⟩ (em.map (symbol A)) = groupSymbols W A input := by
    have hgroups := groups_zeroFill hW (bitString input)
    rw [← hem, ← hcnt, ← hacc, length_bitString] at hgroups
    rw [groupSymbols_eq_map_symbolDigits, symbolDigits, hgroups, encFlush, List.map_append]
    by_cases h0 : cnt = 0
    · simp [h0]
    · simp [h0, Nat.pos_of_ne_zero h0]
  simp only [packEnc, hloop, encFinish, hflush]

theorem packEnc_eq_groupEncode {W B : Nat} (hW : 0 < W) (hB : 0 < B) (A input : List Byte) (pad : Bool) :
    packEnc input A W B pad = groupEncode W B A input pad := by
  rw [packEnc_eq_groupSymbols hW, padToBlock_eq hB]
  rfl

theorem length_packEnc {W B : Nat} (hW : 0 < W) (hB : 0 < B) (A input : List Byte) (pad : Bool) :
    (packEnc input A W B pad).length =
      (if pad then B * (((8 * input.length + W - 1) / W + B - 1) / B) else (8 * input.length + W - 1) / W) := by
  rw [packEnc_eq_groupSymbols hW]
  cases pad with
  | false => simp
  | true => simp [padToBlock, add_padding_length hB]

/-! ### The decoder's closed form (R82) -/

@[simp] theorem length_groupDecode (W : Nat) (digits : List Nat) :
    (groupDecode W digits).length = W * digits.length / 8 := by simp [groupDecode]

theorem unpackDigits_eq_groupDecode {W : Nat} (hW : 0 < W) (digits : List Nat) :
    unpackDigits W digits = groupDecode W digits := by
  rw [unpackDigits_spec hW, wholeGroups, length_concatBits, List.map_map]
  rfl

/-! ### A text and its trailing pads (R81, R83) -/

/-- `s` is the text `body` followed by `k` pad characters: with padding none stands at the text's end, and the whole is
in blocks of `B`; without padding there are none. -/
structure PaddedText (B : Nat) (pad : Bool) (s body : List Byte) (k : Nat) : Prop where
  text : s = body ++ List.replicate k padChar
  form : if pad then body.getLast? ≠ some padChar ∧ s.length % B = 0 else k = 0

section

variable {A s body : List Byte} {B W k : Nat} {pad ci : Bool} {digits : List Nat}

/-- A padded text whose length is no multiple of the block length is the first failure (R81). -/
theorem packDec_broken_block (h : s.length % B ≠ 0) : packDec s A W B true ci = .error .invalidLength := by
  simp [packDec_eq, h]

theorem PaddedText.length_check (h : PaddedText B pad s body k) : ¬(pad = true ∧ s.length % B ≠ 0) := by
  rintro ⟨rfl, hlen⟩
  exact hlen h.form.2

/-- What is looked up is the text before the pads. -/
theorem PaddedText.stripped (h : PaddedText B pad s body k) : (if pad then stripPad s else s) = body := by
  obtain ⟨rfl, hform⟩ := h
  cases pad with
  | false =>
    obtain rfl : k = 0 := hform
    simp
  | true => exact stripPad_append k hform.1

theorem PaddedText.packDec_not_found (h : PaddedText B pad s body k) (hl : ∃ c ∈ body, lookup A ci c = none) :
    packDec s A W B pad ci = .error .invalidCharacter := by
  rw [packDec_eq, if_neg h.length_check, h.stripped, lookupAll_none_iff.mpr hl]

theorem PaddedText.packDec_found (h : PaddedText B pad s body k) (hW : 0 < W)
    (hl : lookupAll A ci body = some digits) :
    packDec s A W B pad ci = someBytes s (groupDecode W digits) := by
  rw [packDec_eq, if_neg h.length_check, h.stripped, hl, ← unpackDigits_eq_groupDecode hW]
  rfl

theorem someBytes_ok {out : List Byte} (h : s.length = 0 ∨ 0 < out.length) : someBytes s out = .ok out :=
  if_neg (by omega)

theorem someBytes_no_byte {out : List Byte} (hs : 0 < s.length) (ho : out.length = 0) :
    someBytes s out = .error .invalidLength := if_pos ⟨hs, ho⟩

/-- A decode succeeds only with the closed form of the digits of the text before the pads (R81, R82). -/
theorem packDec_ok {out : List Byte} (hW : 0 < W) (h : packDec s A W B pad ci = .ok out) :
    ∃ digits, lookupAll A ci (if pad then stripPad s else s) = some digits ∧ out = groupDecode W digits := by
  rw [packDec_eq] at h
  split at h
  · cases h
  · split at h
    · cases h
    · next digits hl =>
      split at h <;> cases h
      exact ⟨digits, hl, unpackDigits_eq_groupDecode hW digits⟩

end

/-! ### The round trip (R86, R102) -/

/-- The group at index `j` of concatenated values is the value there, cut to the group's width. -/
theorem bitsValue_group_concatBits {U j : Nat} {vals : List Nat} (hj : j < vals.length) :
    bitsValue (((concatBits U vals).drop (U * j)).take U) = vals[j] % 2 ^ U := by
  simpa [hj, Nat.one_shiftLeft] using (pass_bits (U := U) (off := 0) (k := U) hj (by omega)).symm

/-- Grouping concatenated values by their own width gives them back, with an incomplete group after them dropped. -/
theorem wholeGroups_concatBits_append {U : Nat} {vals : List Nat} {rest : List Bool} (hr : rest.length < U)
    (hv : ∀ v ∈ vals, v < 2 ^ U) : wholeGroups U (concatBits U vals ++ rest) = vals := by
  have hcount : (concatBits U vals ++ rest).length / U = vals.length := by
    rw [List.length_append, length_concatBits, Nat.mul_add_div (by omega), Nat.div_eq_of_lt hr, Nat.add_zero]
  rw [wholeGroups, hcount]
  refine List.ext_getElem (by simp) fun j _ hj => ?_
  have hend : U * (j + 1) ≤ (concatBits U vals).length := by
    rw [length_concatBits]
    exact Nat.mul_le_mul_left U hj
  rw [Nat.mul_succ] at hend
  rw [List.getElem_map, List.getElem_range, List.drop_append_of_le_length (by omega),
    List.take_append_of_le_length (by rw [List.length_drop]; omega), bitsValue_group_concatBits hj,
    Nat.mod_eq_of_lt (hv _ (List.getElem_mem hj))]

theorem concatBits_symbolDigits {W : Nat} (hW : 0 < W) (input : List Byte) :
    concatBits W (symbolDigits W input) = zeroFill W (bitString input) := by
  apply concatBits_groups
  rw [length_zeroFill hW, length_bitString]

/-- The zeros that fill up the last symbol make no byte of their own when a symbol has at most 8 bits. -/
theorem groupDecode_symbolDigits {W : Nat} (hW : 0 < W) (h8 : W ≤ 8) (input : List Byte) :
    groupDecode W (symbolDigits W input) = input := by
  have hfill : (List.replicate ((W - (bitString input).length % W) % W) false).length < 8 := by
    rw [List.length_replicate]
    exact (Nat.mod_lt _ hW).trans_le h8
  have hbytes : ∀ v ∈ input.map BitVec.toNat, v < 2 ^ 8 := by
    intro v hv
    obtain ⟨x, -, rfl⟩ := List.mem_map.mp hv
    exact x.isLt
  rw [← unpackDigits_eq_groupDecode hW, unpackDigits_spec hW, concatBits_symbolDigits hW, zeroFill]
  rw [bitString_eq_concatBits] at hfill ⊢
  rw [wholeGroups_concatBits_append hfill hbytes, List.map_map]
  exact List.map_id'' (fun x => by simp) input

section

variable {A : List Byte} {W B : Nat}

theorem symbol_mem {d : Nat} (h : d < A.length) : symbol A d ∈ A := List.mem_of_getElem? (getElem?_symbol h)

/-- An encoding is the groups' symbols and the pads that make whole blocks, none of the symbols a pad. -/
theorem paddedText_packEnc (hW : 0 < W) (hB : 0 < B) (hlen : 2 ^ W ≤ A.length) (hpad : padChar ∉ A) (b : List Byte)
    (pad : Bool) : ∃ k, PaddedText B pad (packEnc b A W B pad) (groupSymbols W A b) k := by
  cases pad with
  | false => exact ⟨0, by simp [packEnc_eq_groupSymbols hW], rfl⟩
  | true =>
    refine ⟨_, packEnc_eq_groupSymbols hW B A b true, ?_, ?_⟩
    · intro hlast
      rw [groupSymbols_eq_map_symbolDigits] at hlast
      obtain ⟨d, hd, hsym⟩ := List.mem_map.mp (List.mem_of_getLast? hlast)
      exact hpad (hsym ▸ symbol_mem ((symbolDigits_lt hd).trans_le hlen))
    · simp [length_packEnc hW hB]

/-- Decoding an encoding gives the bytes back, under distinct symbols that are enough and none of them the pad. -/
theorem packDec_packEnc (hW : 0 < W) (h8 : W ≤ 8) (hB : 0 < B) (hA : A.Nodup) (hlen : 2 ^ W ≤ A.length)
    (hpad : padChar ∉ A) (b : List Byte) (pad ci : Bool) :
    packDec (packEnc b A W B pad) A W B pad ci = .ok b := by
  obtain ⟨k, htext⟩ := paddedText_packEnc hW hB hlen hpad b pad
  have hfound : lookupAll A ci (groupSymbols W A b) = some (symbolDigits W b) := by
    rw [groupSymbols_eq_map_symbolDigits]
    exact lookupAll_symbols hA ci fun d hd => (symbolDigits_lt hd).trans_le hlen
  rw [htext.packDec_found hW hfound, groupDecode_symbolDigits hW h8]
  apply someBytes_ok
  cases b with
  | nil => exact .inl (by simp)
  | cons => exact .inr (Nat.succ_pos _)

theorem packDec_packEnc_of_rom {f : Family} {alpha : Nat} (h : rom f alpha = some A) (hW : 0 < W) (h8 : W ≤ 8)
    (hB : 0 < B) (hbase : 2 ^ W = f.base) (b : List Byte) (pad : Bool) :
    packDec (packEnc b A W B pad) A W B pad false = .ok b :=
  packDec_packEnc hW h8 hB (nodup_of_rom h) (hbase.trans (length_of_rom h).symm).le (padChar_not_mem_of_rom h) b pad
    false

end

/-! ### The statements -/

/-- Settles O52: the closed form, its length, and the loop on the registers, which are wide enough. -/
theorem encoderMatchesClosedForm : Obligations.EncoderMatchesClosedForm := fun _ B A input pad hW hB =>
  ⟨packEnc_eq_groupEncode hW hB A input pad, length_packEnc hW hB A input pad,
    fun h6 hn w => work_packEnc_eq w hW h6 B A input pad (by omega)⟩

/-- Settles O53: the loop's bytes, a successful decode, the two texts of R82, and the loop on the registers. -/
theorem decoderMatchesClosedForm : Obligations.DecoderMatchesClosedForm := by
  refine ⟨fun W digits hW => unpackDigits_eq_groupDecode hW digits, ?success, ?examples, ?registers⟩
  case success =>
    intro W B s A out pad ci hW h
    obtain ⟨digits, hl, rfl⟩ := packDec_ok hW h
    exact ⟨digits, lookupAll_some_iff.mp hl, rfl, length_groupDecode W digits⟩
  case examples =>
    intro A hA
    cases hA
    decide
  case registers =>
    intro w W B s A pad ci hW h6 hn
    exact work_packDec_eq w hW (by omega) B s A pad ci (by omega)

/-- Settles O55: both families have a symbol for every digit, of 5 and of 6 bits. -/
theorem groupedRoundTrips : Obligations.GroupedRoundTrips :=
  ⟨fun _ _ pad b hA => packDec_packEnc_of_rom hA (by decide) (by decide) (by decide) rfl b pad,
    fun _ _ pad b hA => packDec_packEnc_of_rom hA (by decide) (by decide) (by decide) rfl b pad⟩

/-- Settles O23: B32ENC's operation is the encoder at 5 bits and blocks of 8. -/
theorem base32EncodeResult : Obligations.Base32EncodeResult := fun _ cfg s A hA hin hfit =>
  succeeds_of_operation (runsWith_of_rom rfl hA) hin
    (congrArg Except.ok (packEnc_eq_groupEncode (by decide) (by decide) A (inputBytes s) cfg.pad)) hfit

/-- Settles O25: every character is found, and two digits make a byte. -/
theorem base32DecodeResult : Obligations.Base32DecodeResult := by
  intro t cfg s A body digits k hA hin htext hform hfound hsome hfit
  have hpadded : PaddedText 8 cfg.pad (inputBytes s) body k := ⟨htext, by rwa [length_inputBytes]⟩
  refine succeeds_of_operation (runsWith_of_rom rfl hA) hin ?_ hfit
  refine (hpadded.packDec_found (by decide) (lookupAll_some_iff.mpr hfound)).trans (someBytes_ok ?_)
  rw [length_inputBytes, length_groupDecode]
  omega

/-- Settles O37, check by check; one digit makes no byte. -/
theorem base32DecodeFailures : Obligations.Base32DecodeFailures := by
  intro t cfg s A hA hin
  have hfails : ∀ {e}, packDec (inputBytes s) A 5 8 cfg.pad cfg.ci = .error e → Fails (.b32dec t cfg) s e :=
    fun h => fails_of_operation (runsWith_of_rom rfl hA) hin h
  refine ⟨fun hpad hblock => hfails ?block, fun body k htext hform => ?_⟩
  case block =>
    rw [hpad]
    exact packDec_broken_block (by rwa [length_inputBytes])
  have hpadded : PaddedText 8 cfg.pad (inputBytes s) body k := ⟨htext, by rwa [length_inputBytes]⟩
  refine ⟨fun hn => hfails (hpadded.packDec_not_found hn), fun hfound hpos hshort => hfails ?noByte⟩
  case noByte =>
    cases hl : lookupAll A cfg.ci body with
    | none =>
      obtain ⟨c, hc, hn⟩ := lookupAll_none_iff.mp hl
      exact absurd hn (hfound c hc)
    | some digits =>
      have hdigits := length_of_lookupAll hl
      refine (hpadded.packDec_found (by decide) hl).trans (someBytes_no_byte (by rwa [length_inputBytes]) ?_)
      rw [length_groupDecode]
      omega

end Sys2Proof.Machine
end

section
/-! PROOFS. The base-58 commands (43_base58.md): a number and its digits, the minimal bytes of a number, what the radix
encoder and decoder give in one case after another, that they are inverse, and the statements of this family. -/

namespace Sys2Proof.Machine

open Sys2Proof Safety

/-! ### A number and its digits -/

/-- A number has one digit sequence without a leading zero: the converter's (R87, R88). -/
theorem isNumeral_iff {base v : Nat} {ds : List Nat} (hb : 2 ≤ base) : IsNumeral base v ds ↔ ds = toDigits base v := by
  constructor
  · rintro ⟨hsmall, hhead, rfl⟩
    rw [weightedSum_eq, toDigits_ofDigits hb hsmall hhead]
  · rintro rfl
    exact ⟨fun _ => toDigits_lt hb, toDigits_head hb v, by rw [weightedSum_eq, ofDigits_toDigits hb]⟩

/-- The number of digits: `k` digits are enough exactly below `base ^ k`. -/
theorem length_toDigits {base : Nat} (hb : 2 ≤ base) (v : Nat) : (toDigits base v).length = Nat.clog base (v + 1) :=
  eq_of_forall_ge_iff fun k => by
    rw [toDigits_eq hb, List.length_reverse, Nat.digits_length_le_iff hb, Nat.clog_le_iff_le_pow hb, Nat.succ_le_iff]

theorem ofDigits_replicate_zero_append (base k : Nat) (ds : List Nat) :
    ofDigits base (List.replicate k 0 ++ ds) = ofDigits base ds := by
  rw [ofDigits_append, ofDigits_eq base (List.replicate k 0), List.reverse_replicate, Nat.ofDigits_replicate_zero,
    Nat.zero_mul, Nat.zero_add]

/-- Zero bytes in front leave a buffer's value (R87). -/
theorem bufferValue_replicate_zero_append (k : Nat) (buf : List Byte) :
    bufferValue (List.replicate k 0 ++ buf) = bufferValue buf := by
  rw [bufferValue, List.map_append, List.map_replicate]
  exact ofDigits_replicate_zero_append 256 k _

theorem leadingCount_replicate_append (c : Byte) (k : Nat) (s : List Byte) :
    leadingCount c (List.replicate k c ++ s) = k + leadingCount c s := by
  conv_lhs => rw [leadingCount_split c s, ← List.append_assoc, List.replicate_append_replicate]
  exact leadingCount_append _ (head_drop_leadingCount c s)

/-! ### The minimal bytes of a number -/

/-- The minimal big-endian bytes of a number: none for 0 (R88). -/
def minimalBytes (v : Nat) : List Byte := (toDigits 256 v).map (BitVec.ofNat 8)

theorem map_toNat_minimalBytes (v : Nat) : (minimalBytes v).map BitVec.toNat = toDigits 256 v := by
  rw [minimalBytes, List.map_map]
  exact (List.map_congr_left fun d hd => Nat.mod_eq_of_lt (toDigits_lt (by decide) hd)).trans (List.map_id _)

@[simp] theorem bufferValue_minimalBytes (v : Nat) : bufferValue (minimalBytes v) = v := by
  rw [bufferValue, map_toNat_minimalBytes, ofDigits_toDigits (by decide)]

theorem head_minimalBytes (v : Nat) : (minimalBytes v).head? ≠ some 0 := by
  intro h
  apply toDigits_head (base := 256) (by decide) v
  rw [← map_toNat_minimalBytes, List.head?_map, h]
  rfl

/-- A buffer that does not begin with a zero byte is the minimal bytes of its value. -/
theorem minimalBytes_bufferValue {buf : List Byte} (h : buf.head? ≠ some 0) : minimalBytes (bufferValue buf) = buf := by
  rw [minimalBytes, toDigits_bufferValue h, List.map_map]
  exact List.map_id'' (fun x => by simp) buf

/-! ### The encoder (R87) -/

section

variable {A : List Byte} {z : Nat}

theorem b58Encode_eq {input : List Byte} {ds : List Nat} (hz : IsLeadingRun 0 input z)
    (hds : IsNumeral 58 (weightedSum 256 (input.map BitVec.toNat)) ds) :
    b58Encode A input = List.replicate z (symbol A 0) ++ ds.map (symbol A) := by
  rw [isLeadingRun_iff.mp hz, (isNumeral_iff (by decide)).mp hds, weightedSum_eq]
  rfl

/-- Zero bytes in front become zero-symbols in front (R89). -/
theorem b58Encode_replicate_zero_append (A : List Byte) (k : Nat) (b : List Byte) :
    b58Encode A (List.replicate k 0 ++ b) = List.replicate k (symbol A 0) ++ b58Encode A b := by
  simp only [b58Encode, leadingCount_replicate_append, ← List.replicate_append_replicate, List.append_assoc]
  rw [← bufferValue, bufferValue_replicate_zero_append]
  rfl

/-- Without a leading zero byte the encoding is the symbols of the value's digits. -/
theorem b58Encode_of_head_ne_zero {b : List Byte} (h : b.head? ≠ some 0) :
    b58Encode A b = (toDigits 58 (bufferValue b)).map (symbol A) := by
  have hz : leadingCount 0 b = 0 := leadingCount_append (r := b) 0 h
  rw [b58Encode, hz]
  rfl

theorem length_b58Encode {b : List Byte} (hz : IsLeadingRun 0 b z) :
    (b58Encode A b).length = z + Nat.clog 58 (weightedSum 256 (b.map BitVec.toNat) + 1) := by
  rw [b58Encode_eq hz ((isNumeral_iff (by decide)).mpr rfl), List.length_append, List.length_replicate, List.length_map,
    length_toDigits (by decide)]

/-! ### The decoder (R88) -/

variable {s b : List Byte} {digits : List Nat}

theorem b58Decode_found (hz : IsLeadingRun (symbol A 0) s z) (hl : lookupAll A false (s.drop z) = some digits) :
    b58Decode A s = .ok (List.replicate z 0 ++ minimalBytes (ofDigits 58 digits)) := by
  obtain rfl := isLeadingRun_iff.mp hz
  simp only [b58Decode, hl]
  rfl

/-- A text that decodes has every character after the leading run found, and gives the bytes of their value. -/
theorem exists_digits_of_b58Decode (hz : IsLeadingRun (symbol A 0) s z) (h : b58Decode A s = .ok b) :
    ∃ digits, lookupAll A false (s.drop z) = some digits
      ∧ b = List.replicate z 0 ++ minimalBytes (ofDigits 58 digits) := by
  cases hl : lookupAll A false (s.drop z) with
  | none =>
    obtain rfl := isLeadingRun_iff.mp hz
    simp [b58Decode, hl] at h
  | some digits =>
    rw [b58Decode_found hz hl] at h
    exact ⟨digits, rfl, (Except.ok.inj h).symm⟩

/-- The zero-symbol is found, so a character that is not stands after the leading run. -/
theorem b58Decode_not_found (hA : 0 < A.length) (h : ∃ c ∈ s, lookup A false c = none) :
    b58Decode A s = .error .invalidCharacter := by
  obtain ⟨c, hc, hn⟩ := h
  have hdrop : c ∈ s.drop (leadingCount (symbol A 0) s) := by
    rw [leadingCount_split (symbol A 0) s, List.mem_append] at hc
    refine hc.resolve_left fun hrun => ?_
    rw [List.eq_of_mem_replicate hrun, lookup_strict, indexOf_none_iff] at hn
    exact hn (symbol_mem hA)
  simp only [b58Decode, lookupAll_none_iff.mpr ⟨c, hdrop, hn⟩]

theorem length_b58Decode (hz : IsLeadingRun (symbol A 0) s z) (hl : lookupAll A false (s.drop z) = some digits)
    (h : b58Decode A s = .ok b) : b.length = z + Nat.clog 256 (weightedSum 58 digits + 1) := by
  obtain rfl := Except.ok.inj ((b58Decode_found hz hl).symm.trans h)
  rw [List.length_append, List.length_replicate, minimalBytes, List.length_map, length_toDigits (by decide),
    weightedSum_eq]

/-- The work buffer after a decoding has no more bytes than the text has characters (R28). -/
theorem length_bigInteger_b58Decode (w : Work) (hA : A.length = 58) (h : b58Decode A s = .ok b) :
    (w.b58Decode A s).1.bigInteger.length ≤ s.length := by
  obtain ⟨digits, hl, -⟩ := exists_digits_of_b58Decode (isLeadingRun_iff.mpr rfl) h
  obtain ⟨-, -, hlen⟩ :=
    foldl_mulAdd (m := 58) (by decide) (fun d hd => hA ▸ (symbols_of_lookupAll hl).1 d hd) [] (by simp)
  have hbuf : (w.b58Decode A s).1.bigInteger = digits.foldl (mulAdd 58) [] := by simp only [Work.b58Decode, hl]
  have hdigits := length_of_lookupAll hl
  rw [List.length_drop] at hdigits
  rw [hbuf]
  rw [List.length_nil] at hlen
  omega

/-! ### The encoder and the decoder are inverse (R89) -/

theorem symbol_inj {d e : Nat} (hA : A.Nodup) (hd : d < A.length) (he : e < A.length) (h : symbol A d = symbol A e) :
    d = e := by
  have hfind := (indexOf_iff hA).mpr (getElem?_symbol hd)
  rw [h, (indexOf_iff hA).mpr (getElem?_symbol he)] at hfind
  exact (Option.some.inj hfind).symm

/-- Digits without a leading 0 have symbols without a leading zero-symbol. -/
theorem head_map_symbol (hA : A.Nodup) (hd : ∀ d ∈ digits, d < A.length) (hh : digits.head? ≠ some 0) :
    (digits.map (symbol A)).head? ≠ some (symbol A 0) := by
  rw [List.head?_map]
  intro h
  obtain ⟨d, hfirst, hsym⟩ := Option.map_eq_some_iff.mp h
  have hlt := hd d (List.mem_of_head? hfirst)
  obtain rfl := symbol_inj hA hlt (by omega) hsym
  exact hh hfirst

theorem b58Decode_b58Encode (hA : A.Nodup) (hlen : A.length = 58) (b : List Byte) :
    b58Decode A (b58Encode A b) = .ok b := by
  obtain ⟨k, rest, hrest, rfl⟩ : ∃ k rest, rest.head? ≠ some (0 : Byte) ∧ b = List.replicate k 0 ++ rest :=
    ⟨_, _, head_drop_leadingCount 0 b, leadingCount_split 0 b⟩
  have hsmall : ∀ d ∈ toDigits 58 (bufferValue rest), d < A.length := fun d hd => hlen ▸ toDigits_lt (by decide) hd
  have hrun := leadingCount_append k (head_map_symbol hA hsmall (toDigits_head (by decide) _))
  rw [b58Encode_replicate_zero_append, b58Encode_of_head_ne_zero hrest,
    b58Decode_found (isLeadingRun_iff.mpr hrun.symm) (digits := toDigits 58 (bufferValue rest)),
    ofDigits_toDigits (by decide), minimalBytes_bufferValue hrest]
  rw [List.drop_left' (by simp)]
  exact lookupAll_symbols hA false hsmall

/-- A text that decodes is the encoding of what it decodes to. -/
theorem b58Encode_of_b58Decode (hlen : A.length = 58) (h : b58Decode A s = .ok b) : b58Encode A b = s := by
  obtain ⟨digits, hl, rfl⟩ := exists_digits_of_b58Decode (isLeadingRun_iff.mpr rfl) h
  obtain ⟨hsmall, hsym⟩ := symbols_of_lookupAll hl
  have hhead : digits.head? ≠ some 0 := fun h0 => by
    apply head_drop_leadingCount (symbol A 0) s
    rw [← hsym, List.head?_map, h0]
    rfl
  rw [b58Encode_replicate_zero_append, b58Encode_of_head_ne_zero (head_minimalBytes _), bufferValue_minimalBytes,
    toDigits_ofDigits (by decide) (fun d hd => hlen ▸ hsmall d hd) hhead, hsym]
  exact (leadingCount_split _ s).symm

/-! ### The failures of the checked decoder, stage by stage (R98) -/

variable {hash : List Byte → Config.Digest} {e : CmdError}

theorem b58DecodeChecked_not_decoded (h : b58Decode A s = .error e) : b58DecodeChecked hash A s = .error e := by
  simp only [b58DecodeChecked, h]

theorem b58DecodeChecked_not_verified (h : b58Decode A s = .ok b) (hv : verifyChecksum hash b = .error e) :
    b58DecodeChecked hash A s = .error e := by
  simp only [b58DecodeChecked, h, hv]

end

/-! ### The statements -/

/-- Settles O58: the numeral is the converter's digits, and the byte buffer's arithmetic is exact. -/
theorem radixDigitsAreTheNumeral : Obligations.RadixDigitsAreTheNumeral :=
  ⟨fun _ _ _ hb => isNumeral_iff hb, work_b58Encode_eq, fun w _ _ s hA =>
    ⟨work_b58Decode_eq w (length_base58 hA) s, fun _ h => length_bigInteger_b58Decode w (length_base58 hA) h⟩⟩

/-- Settles O56: a text that decodes is an encoding, so two texts of the same bytes are the same encoding. -/
theorem base58RoundTrip : Obligations.Base58RoundTrip := by
  intro alpha A hA
  have hlen := length_base58 hA
  refine ⟨b58Decode_b58Encode (nodup_of_rom hA) hlen, b58Encode_replicate_zero_append A, fun _ _ => length_b58Encode,
    fun s b z digits h hz hl => length_b58Decode hz (lookupAll_some_iff.mpr hl) h, fun s s' b h h' => ?injective⟩
  case injective => rw [← b58Encode_of_b58Decode hlen h, b58Encode_of_b58Decode hlen h']

/-- Settles O27: the output is `b58Encode` of the input. -/
theorem base58EncodeResult : Obligations.Base58EncodeResult := fun _ _ _ _ _ _ hA hin hz hds hfit =>
  succeeds_of_operation (runsWith_of_rom rfl hA) hin (congrArg Except.ok (b58Encode_eq hz hds)) hfit

/-- Settles O28: every character after the leading run is found, and `bs` are the bytes of the digits' value. -/
theorem base58DecodeResult : Obligations.Base58DecodeResult := by
  intro t cfg s A z digits bs hA hin hz hfound hbs hfit
  refine succeeds_of_operation (runsWith_of_rom rfl hA) hin ?_ hfit
  rw [(isNumeral_iff (by decide)).mp hbs, weightedSum_eq]
  exact b58Decode_found hz (lookupAll_some_iff.mpr hfound)

/-- Settles O39, stage by stage. -/
theorem base58DecodeFailures : Obligations.Base58DecodeFailures := by
  intro t cfg s A hA hin
  have hchecked : ∀ {e}, b58DecodeChecked Config.hash A (inputBytes s) = .error e → Fails (.b58decc t cfg) s e :=
    fun h => fails_of_operation (runsWith_of_rom rfl hA) hin h
  refine ⟨?notFound, fun b hb => ⟨fun hshort => ?short, ?mismatch⟩⟩
  case notFound =>
    rintro ⟨j, hj, hn⟩
    have hdec : b58Decode A (inputBytes s) = .error .invalidCharacter :=
      b58Decode_not_found ((length_base58 hA).symm ▸ by decide)
        ⟨inByte s j, List.mem_of_getElem? (getElem?_inputBytes s hj), hn⟩
    exact ⟨fails_of_operation (runsWith_of_rom rfl hA) hin hdec, hchecked (b58DecodeChecked_not_decoded hdec)⟩
  case short => exact hchecked (b58DecodeChecked_not_verified hb (if_pos hshort))
  case mismatch =>
    rintro p c rfl hc hne
    exact hchecked (b58DecodeChecked_not_verified hb ((verifyChecksum_append Config.hash hc).trans (if_neg hne)))

end Sys2Proof.Machine
end

section
/-! PROOFS. The checksum commands (44_checksum.md): what verifying, removing and the checked base-58 decoding give for a
payload with its checksum, and the statements of this family. -/

namespace Sys2Proof.Machine

open Sys2Proof Safety

/-! ### A payload with its checksum (R94 to R96) -/

section

variable (hash : List Byte → Config.Digest) (p : List Byte)

theorem verifyChecksum_addChecksum : verifyChecksum hash (addChecksum hash p) = .ok [] :=
  (verifyChecksum_append hash (length_checksum hash p)).trans (if_pos rfl)

theorem removeChecksum_addChecksum : removeChecksum (addChecksum hash p) = .ok p :=
  removeChecksum_append (length_checksum hash p)

variable {hash p}

theorem length_addChecksum : (addChecksum hash p).length = p.length + 4 := by
  rw [addChecksum, List.length_append, length_checksum]

/-- A text that decodes to a payload with its checksum passes the three stages and gives the payload (R98). -/
theorem b58DecodeChecked_of_addChecksum {A s : List Byte} (h : b58Decode A s = .ok (addChecksum hash p)) :
    b58DecodeChecked hash A s = .ok p := by
  simp only [b58DecodeChecked, h, verifyChecksum_addChecksum, removeChecksum_addChecksum]

end

/-! ### The statements -/

/-- Settles O57: verifying and removing what was added, and the base-58 round trip between the two. -/
theorem checksumRoundTrips : Obligations.ChecksumRoundTrips := fun hash p =>
  ⟨verifyChecksum_addChecksum hash p, removeChecksum_addChecksum hash p, fun _ _ hA =>
    b58DecodeChecked_of_addChecksum (b58Decode_b58Encode (nodup_of_rom hA) (length_base58 hA) (addChecksum hash p))⟩

/-- Settles O29: the output is `addChecksum` of the input, 4 bytes longer. -/
theorem checksumAddResult : Obligations.ChecksumAddResult := by
  intro t cfg s hin hcap
  have hfit : OutputFits s (addChecksum Config.hash (inputBytes s)) := by
    rwa [OutputFits, length_addChecksum, length_inputBytes]
  exact succeeds_of_operation (runsWith_of_no_family rfl []) hin rfl hfit

/-- Settles O30: the input is `addChecksum` of the payload, which verifies. -/
theorem checksumVerifyResult : Obligations.ChecksumVerifyResult := by
  intro t cfg s p hin hinput
  refine succeeds_of_operation (runsWith_of_no_family rfl []) hin ?_ (Nat.zero_le _)
  rw [hinput]
  exact verifyChecksum_addChecksum Config.hash p

/-- Settles O31: any 4 bytes at the end are removed. -/
theorem checksumRemoveResult : Obligations.ChecksumRemoveResult := by
  intro t cfg s p c hin hinput hc hfit
  refine succeeds_of_operation (runsWith_of_no_family rfl []) hin ?_ hfit
  rw [hinput]
  exact removeChecksum_append hc

/-- Settles O32: `b58Encode` of the input with its checksum. -/
theorem base58EncodeCheckedResult : Obligations.Base58EncodeCheckedResult := by
  rintro t cfg s A q z ds hA hin rfl hz hds hfit
  exact succeeds_of_operation (runsWith_of_rom rfl hA) hin (congrArg Except.ok (b58Encode_eq hz hds)) hfit

/-- Settles O33: the text decodes to the payload with its checksum, so the later stages give the payload. -/
theorem base58DecodeCheckedResult : Obligations.Base58DecodeCheckedResult := by
  intro t cfg s A p z digits bs hA hin hz hfound hbs hdecoded hfit
  rw [(isNumeral_iff (by decide)).mp hbs, weightedSum_eq] at hdecoded
  have hdec : b58Decode A (inputBytes s) = .ok (addChecksum Config.hash p) :=
    (b58Decode_found hz (lookupAll_some_iff.mpr hfound)).trans (congrArg Except.ok hdecoded)
  exact succeeds_of_operation (runsWith_of_rom rfl hA) hin (b58DecodeChecked_of_addChecksum hdec) hfit

/-- Settles O40: the length check comes first, then the comparison with the checksum. -/
theorem checksumFailures : Obligations.ChecksumFailures := by
  intro t cfg s hin
  refine ⟨fun hshort => ?short, ?mismatch⟩
  case short =>
    have hlen : (inputBytes s).length < 4 := (length_inputBytes s).trans_lt hshort
    exact ⟨fails_of_operation (runsWith_of_no_family rfl []) hin (if_pos hlen),
      fails_of_operation (runsWith_of_no_family rfl []) hin (if_pos hlen)⟩
  case mismatch =>
    intro p c hinput hc hne
    refine fails_of_operation (runsWith_of_no_family rfl []) hin ?_
    rw [hinput]
    exact (verifyChecksum_append Config.hash hc).trans (if_neg hne)

end Sys2Proof.Machine
end

section
/-! PROOFS. The base-64 commands (45_base64.md): when a padded text's digits make a byte, for every symbol width that
allows it, and the statements of this family, which take the grouped codecs at 6 bits and blocks of 4. -/

namespace Sys2Proof.Machine

open Sys2Proof Safety

/-! ### When a padded text's digits make a byte (R82, R101) -/

section

variable {A s body : List Byte} {B W k : Nat} {pad ci : Bool} {digits : List Nat}

/-- Two digits of at least 4 bits make a byte. -/
theorem groupDecode_pos (hW : 4 ≤ W) (h : 2 ≤ digits.length) : 0 < (groupDecode W digits).length := by
  rw [length_groupDecode]
  exact Nat.div_pos (Nat.mul_le_mul hW h) (by decide)

/-- One digit of fewer than 8 bits makes no byte. -/
theorem groupDecode_no_byte (hW : W < 8) (h : digits.length ≤ 1) : (groupDecode W digits).length = 0 := by
  rw [length_groupDecode]
  exact Nat.div_eq_of_lt ((Nat.mul_le_mul_left W h).trans_lt (by rwa [Nat.mul_one]))

theorem exists_lookupAll (h : ∀ c ∈ body, lookup A ci c ≠ none) : ∃ digits, lookupAll A ci body = some digits := by
  rw [← Option.ne_none_iff_exists']
  intro hnone
  obtain ⟨c, hc, hn⟩ := lookupAll_none_iff.mp hnone
  exact h c hc hn

theorem PaddedText.packDec_bytes (h : PaddedText B pad s body k) (hW : 4 ≤ W)
    (hfound : body.map (lookup A ci) = digits.map some) (hsome : s.length = 0 ∨ 2 ≤ digits.length) :
    packDec s A W B pad ci = .ok (groupDecode W digits) :=
  (h.packDec_found (by omega) (lookupAll_some_iff.mpr hfound)).trans
    (someBytes_ok (hsome.imp_right (groupDecode_pos hW)))

theorem PaddedText.packDec_no_byte (h : PaddedText B pad s body k) (hW : 0 < W) (h8 : W < 8)
    (hfound : ∀ c ∈ body, lookup A ci c ≠ none) (hpos : 0 < s.length) (hshort : body.length ≤ 1) :
    packDec s A W B pad ci = .error .invalidLength := by
  obtain ⟨digits, hl⟩ := exists_lookupAll hfound
  have hdigits : digits.length ≤ 1 := (length_of_lookupAll hl).trans_le hshort
  exact (h.packDec_found hW hl).trans (someBytes_no_byte hpos (groupDecode_no_byte h8 hdigits))

end

/-! ### The statements -/

/-- Settles O24: B64ENC's operation is the encoder at 6 bits and blocks of 4. -/
theorem base64EncodeResult : Obligations.Base64EncodeResult := fun _ cfg s A hA hin hfit =>
  succeeds_of_operation (runsWith_of_rom rfl hA) hin
    (congrArg Except.ok (packEnc_eq_groupEncode (by decide) (by decide) A (inputBytes s) cfg.pad)) hfit

/-- Settles O26: B64DEC's operation is the case-strict decoder at 6 bits and blocks of 4. -/
theorem base64DecodeResult : Obligations.Base64DecodeResult := by
  intro t cfg s A body digits k hA hin htext hform hfound hsome hfit
  rw [← length_inputBytes s] at hform hsome
  exact succeeds_of_operation (runsWith_of_rom rfl hA) hin
    (PaddedText.packDec_bytes ⟨htext, hform⟩ (by decide) hfound hsome) hfit

/-- Settles O38: the padded length, then a character before the pads, then the number of output bytes. -/
theorem base64DecodeFailures : Obligations.Base64DecodeFailures := by
  intro t cfg s A hA hin
  have hfails : ∀ {e}, packDec (inputBytes s) A 6 4 cfg.pad false = .error e → Fails (.b64dec t cfg) s e :=
    fun h => fails_of_operation (runsWith_of_rom rfl hA) hin h
  rw [← length_inputBytes s]
  refine ⟨fun hpad hblock => hfails ?brokenBlock, fun body k htext hform => ⟨fun hn => hfails ?notFound,
    fun hfound hpos hshort => hfails ?noByte⟩⟩
  case brokenBlock => exact hpad ▸ packDec_broken_block hblock
  case notFound => exact PaddedText.packDec_not_found ⟨htext, hform⟩ hn
  case noByte => exact PaddedText.packDec_no_byte ⟨htext, hform⟩ (by decide) (by decide) hfound hpos hshort

end Sys2Proof.Machine
end

section
/-! PROOFS. Errors, FormatError, interrupts and the platform (60_exceptions.md): the causes a command can fail with, what
every complete step leaves, what clears FERR, what a platform's blocks share, and the statements of this family. -/

namespace Sys2Proof.Machine

open Sys2Proof Safety

/-! ### The causes of a failing command (R103) -/

section

variable {i : Instr} {s : State} {e : CmdError}

/-- Between the capacity checks an operation fails with a cause of its own or with CAPACITY (R69). -/
theorem executeOver_error_cases {op : List Byte → Except CmdError (List Byte)} (h : executeOver s op = .error e) :
    e = .capacity ∨ op (inputBytes s) = .error e := by
  by_cases hin : s.inCap.bytes < s.inLen.toNat
  · rw [executeOver_long_input hin] at h
    cases h
    exact .inl rfl
  · replace hin := Nat.le_of_not_lt hin
    cases hop : op (inputBytes s) with
    | error e' =>
      rw [executeOver_error hin hop] at h
      cases h
      exact .inr rfl
    | ok out =>
      by_cases hout : s.outCap.bytes < out.length
      · rw [executeOver_long_output hin hop hout] at h
        cases h
        exact .inl rfl
      · rw [executeOver_ok_iff.mpr ⟨hin, hop, Nat.le_of_not_lt hout⟩] at h
        cases h

/-- A command's alphabet is selected, or the command fails with UNSUPPORTED_CONFIG (R69). -/
theorem runsWith_or_unsupported (i : Instr) (s : State) :
    (∃ A, RunsWith i A) ∨ result i s = .error .unsupportedConfig := by
  cases hf : commandFamily i with
  | none => exact .inl ⟨[], runsWith_of_no_family hf []⟩
  | some f =>
    cases hr : rom f i.format.alpha with
    | none => exact .inr (result_illegal_alpha s hf hr)
    | some A => exact .inl ⟨A, runsWith_of_rom hf hr⟩

theorem cause_result (h : result i s = .error e) : e = .unsupportedConfig ∨ e = .capacity ∨ e.OfOperation := by
  rcases runsWith_or_unsupported i s with ⟨A, hA⟩ | hr
  · rw [result_operation s hA] at h
    exact .inr ((executeOver_error_cases h).imp_right cause_operation)
  · rw [hr] at h
    cases h
    exact .inl rfl

/-- ILLEGAL_COMMAND is the cause of an illegal word alone, and no command's (R55, R103). -/
theorem result_ne_illegalCommand (h : result i s = .error e) : e ≠ .illegalCommand := by
  rcases cause_result h with rfl | rfl | rfl | rfl | rfl <;> decide

end

/-! ### What a complete step leaves (R68, R107, R108) -/

section

variable (thr : Bool) (r : Except CmdError (List Byte)) (s : State)

theorem complete_registers : complete thr r s = { s with
    mem := (complete thr r s).mem
    outLen := (complete thr r s).outLen
    status := (complete thr r s).status
    work := none } := by cases r <;> rfl

theorem complete_busy : (complete thr r s).status.busy = false := by cases r <;> rfl

theorem complete_done : (complete thr r s).status.done = true := by cases r <;> rfl

theorem complete_ovr : (complete thr r s).status.ovr = s.status.ovr := by cases r <;> rfl

theorem complete_irqEn : (complete thr r s).irqEn = s.irqEn := by cases r <;> rfl

/-- FERR is raised by a failing throwing form and else kept (R107). -/
theorem complete_ferr :
    (complete thr r s).status.ferr = (s.status.ferr || (thr && !(complete thr r s).status.ok)) := by
  cases r <;> simp [complete]

end

/-- A command stores nothing outside OUT_BUF. -/
theorem get?_complete_result (i : Instr) (s : State) {a : Nat} (ha : a < outBase ∨ outBase + s.outCap.bytes ≤ a) :
    (complete i.throwing (result i s) s).mem.get? a = s.mem.get? a := by
  cases h : result i s with
  | error e => exact (completesErr_failWith i.throwing e s).otherBytes a ha
  | ok out =>
    have hfit := result_fits h
    exact (completesOk_succeed hfit).otherBytes a (by omega)

theorem status_of_completesErr {s t : State} {thr : Bool} {e : CmdError} (h : CompletesErr s t thr e) :
    t.status = failureFlags thr e s.status := congrArg State.status h.registers

/-! ### What clears FERR (R107) -/

/-- `op` clears FERR: a write of 1 to STATUS bit 8, or a soft reset. -/
def HostOp.ClearsFerr (op : HostOp) : Prop :=
  (∃ w, op = .txn (.write 0x004 .b4 w) ∧ w.getLsbD 8 = true)
    ∨ (∃ w, op = .txn (.write 0x014 .b4 w) ∧ w.getLsbD 0 = true)

section

variable {s t : State}

theorem regAt_eq_status : ∀ a < 0x20, regAt a = some .status → a = 0x004 := by decide

theorem regAt_eq_ctrl : ∀ a < 0x20, regAt a = some .ctrl → a = 0x014 := by decide

theorem writeReg_clears_ferr {r : Reg} {v : Word} (hw : writeReg r v s = some t) (h : s.status.ferr = true)
    (hc : t.status.ferr = false) : (r = .status ∧ v.getLsbD 8 = true) ∨ (r = .ctrl ∧ v.getLsbD 0 = true) := by
  rcases writeReg_cases hw with
    ⟨-, -, rfl⟩ | ⟨-, -, rfl⟩ | ⟨hr, rfl⟩ | ⟨-, -, rfl⟩ | ⟨-, rfl⟩ | ⟨hr, hv, rfl⟩ | rfl
  case inr.inr.inl => exact .inl ⟨hr, by simpa [h] using hc⟩
  case inr.inr.inr.inr.inr.inl => exact .inr ⟨hr, hv⟩
  all_goals simp [h] at hc

theorem transact_clears_ferr {x : Txn} (h : s.status.ferr = true) (hc : (transact x s).status.ferr = false) :
    (HostOp.txn x).ClearsFerr := by
  rcases transact_cases x s with ⟨a, ht⟩ | ⟨off, size, v, s', rfl, hw, ht⟩ <;> rw [ht, respond_status] at hc
  · simp [h] at hc
  · rcases busWrite_cases hw with ⟨r, hoff, rfl, hreg, hr⟩ | ⟨-, -, -, -, rfl⟩
    · rcases writeReg_clears_ferr hr h hc with ⟨rfl, hv⟩ | ⟨rfl, hv⟩
      · obtain rfl : off = 0x004 := BitVec.eq_of_toNat_eq (regAt_eq_status _ hoff hreg)
        exact .inl ⟨v, rfl, hv⟩
      · obtain rfl : off = 0x014 := BitVec.eq_of_toNat_eq (regAt_eq_ctrl _ hoff hreg)
        exact .inr ⟨v, rfl, hv⟩
    · simp [h] at hc

theorem hostTurn_clears_ferr (h : s.status.ferr = true) (hc : (hostTurn s).status.ferr = false) :
    ∃ op p, s.program = op :: p ∧ op.ClearsFerr := by
  rcases hostTurn_cases s with ht | ⟨x, rest, hp, ht⟩ | ⟨a, p, ht⟩ <;> rw [ht] at hc
  · simp [h] at hc
  · exact ⟨_, rest, hp, transact_clears_ferr (s := { s with program := rest }) h hc⟩
  · simp [h] at hc

/-- The engine sets FERR at most. -/
theorem engineTurn_keeps_ferr (h : s.status.ferr = true) (ht : engineTurn s = .next t) : t.status.ferr = true := by
  rcases engineTurn_cases s with ⟨-, he⟩ | ⟨-, out, -, he⟩ | ⟨-, thr, e, he⟩ <;> rw [he] at ht <;> cases ht <;> simp [h]

theorem step_clears_ferr (ht : step s = .next t) (h : s.status.ferr = true) (hc : t.status.ferr = false) :
    (∃ rest, s.turns = .reset :: rest)
    ∨ (((∃ rest, s.turns = .host :: rest) ∨ (s.turns = [] ∧ s.status.busy = false))
      ∧ ∃ op p, s.program = op :: p ∧ op.ClearsFerr) := by
  rcases step_cases s with ⟨-, -, he⟩ | ⟨hs, hb, he⟩ | ⟨rest, -, he⟩ | ⟨rest, hs, he⟩ | ⟨rest, hs, -⟩
  case inr.inr.inr.inr => exact .inl ⟨rest, hs⟩
  all_goals rw [he] at ht
  · simp [engineTurn_keeps_ferr h ht] at hc
  · cases ht
    exact .inr ⟨.inr ⟨hs, hb⟩, hostTurn_clears_ferr h hc⟩
  · simp [engineTurn_keeps_ferr (s := { s with turns := rest }) h ht] at hc
  · cases ht
    exact .inr ⟨.inl ⟨rest, hs⟩, hostTurn_clears_ferr (s := { s with turns := rest }) h hc⟩

theorem step_next (s : State) : ∃ t, step s = .next t := by
  rcases step_cases s with ⟨-, -, h⟩ | ⟨-, -, h⟩ | ⟨rest, -, h⟩ | ⟨rest, -, h⟩ | ⟨rest, -, h⟩ <;> rw [h]
  case inl | inr.inr.inl => exact engineTurn_next _
  all_goals exact ⟨_, rfl⟩

end

/-! ### The blocks of a platform (R116) -/

section

variable {p : Platform} {k j : Nat} {x y : Site}

theorem getElem?_setBlock_self (b : State) (hk : p[k]? = some x) :
    (setBlock p k b)[k]? = some { x with block := b } := by
  obtain ⟨hlt, rfl⟩ := List.getElem?_eq_some_iff.mp hk
  simp [setBlock, hlt]

theorem platformStep_other (p : Platform) (h : j ≠ k) : (platformStep k p)[j]? = p[j]? := by
  unfold platformStep
  split
  · rfl
  · split
    · exact setBlock_other p _ h
    · rfl
    · rfl

/-- A block's interrupt line depends on that block alone. -/
theorem getElem?_irqLines_congr {q : Platform} (h : q[j]? = p[j]?) : (irqLines q)[j]? = (irqLines p)[j]? := by
  simp only [irqLines, List.getElem?_map, h]

/-- A transaction at an address in a block's window is performed by that block (R31). -/
theorem platformAccess_window (off : Offset) (access : Offset → Txn) (hw : p.wf) (hk : p[k]? = some x) :
    platformAccess (x.base + off.toNat) access p = some (setBlock p k (transact (access off) x.block)) := by
  obtain ⟨-, haligned, hdistinct⟩ := hw
  simp only [platformAccess, route_window off haligned hdistinct hk, hk]

theorem copy_ne_of_wf (hw : p.wf) (hne : k ≠ j) (hk : p[k]? = some x) (hj : p[j]? = some y) :
    x.block.copy ≠ y.block.copy := by
  obtain ⟨-, -, hdistinct⟩ := hw
  obtain ⟨hkl, rfl⟩ := List.getElem?_eq_some_iff.mp hk
  obtain ⟨hjl, rfl⟩ := List.getElem?_eq_some_iff.mp hj
  have earlier := List.pairwise_iff_getElem.mp hdistinct
  rcases Nat.lt_or_gt_of_ne hne with h | h
  · exact (earlier k j hkl hjl h).2
  · exact (earlier j k hjl hkl h).2.symm

end

/-! ### The statements -/

/-- Settles O20: the bits that STATUS and IRQ_EN read with, and DONE is 1 after a complete step. -/
theorem interruptLineFollowsStatus : Obligations.InterruptLineFollowsStatus := by
  refine ⟨fun s st en hst hen => ?words, fun i s t ht => ?completed⟩
  case words =>
    obtain rfl := Option.some.inj ((busRead_reg (r := .status) rfl (by decide)).symm.trans hst)
    obtain rfl := Option.some.inj ((busRead_reg (r := .irqEn) rfl (by decide)).symm.trans hen)
    obtain ⟨-, hdone, -, -, -, hferr, -⟩ := statusWord_bits s.status
    obtain ⟨hdoneIe, hferrIe, -⟩ := irqEnWord_bits s.irqEn
    simp only [readReg, hdone, hferr, hdoneIe, hferrIe, irq, irqLevel]
  case completed =>
    rw [exec_eq] at ht
    cases ht
    simp only [irq, irqLevel, complete_done, complete_irqEn, Bool.true_and]

/-- Settles O42: a command's result is an output or a cause other than ILLEGAL_COMMAND, and a failed complete step is
`CompletesErr`. -/
theorem everyCommandSucceedsOrFails : Obligations.EveryCommandSucceedsOrFails := by
  refine ⟨fun i s => ?outcome, ?failure⟩
  case outcome =>
    cases h : result i s with
    | ok out => exact .inl ⟨out, succeeds_of_result h⟩
    | error e => exact .inr ⟨e, result_ne_illegalCommand h, fails_of_result h⟩
  case failure =>
    rintro i s e ⟨t, ht, hc⟩
    refine ⟨t, ht, ?_⟩
    rw [status_of_completesErr hc]
    exact ⟨hc.registers, by cases e <;> rfl, rfl, rfl, rfl, rfl, rfl, hc.unspecified, hc.otherBytes⟩

/-- Settles O44: the frame of the complete step, which every command is. -/
theorem commandFrame : Obligations.CommandFrame := fun i s =>
  ⟨_, exec_eq i s, complete_registers _ _ s, fun _ => get?_complete_result i s, complete_busy _ _ s,
    complete_done _ _ s, complete_ovr _ _ s, complete_ferr _ _ s⟩

/-- Settles O45: the complete step raises FERR and never clears it, so the host's next operation or a reset does. -/
theorem formatErrorIsSticky : Obligations.FormatErrorIsSticky := by
  refine ⟨fun i s => ⟨_, exec_eq i s, complete_ferr _ _ s⟩, fun s t ht h hc => ?_⟩
  refine (step_clears_ferr ht h hc).imp_right (And.imp_right ?_)
  rintro ⟨_, p, hp, ⟨w, rfl, hv⟩ | ⟨w, rfl, hv⟩⟩
  · exact .inl ⟨w, p, hp, hv⟩
  · exact .inr ⟨w, p, hp, hv⟩

/-- Settles O51: a step and a transaction replace one block, which keeps its copy number. -/
theorem blocksAreIndependent : Obligations.BlocksAreIndependent := by
  refine ⟨fun p k j hj => ?step, fun p k x off access hw hk => ?access, fun _ k => wf_platformStep k,
    fun _ _ _ _ _ => copy_ne_of_wf, fun _ _ => inByte_unstored, fun _ _ => outByte_unspecified⟩
  case step =>
    have hsame := platformStep_other p hj
    exact ⟨hsame, getElem?_irqLines_congr hsame⟩
  case access =>
    have haccess := platformAccess_window off access hw hk
    refine ⟨_, haccess, getElem?_setBlock_self _ hk, fun j hj => ?_, wf_platformAccess hw haccess⟩
    have hsame := setBlock_other p (transact (access off) x.block) hj
    exact ⟨hsame, getElem?_irqLines_congr hsame⟩

/-- Settles O47: the engine's turn, the host's and a reset each answer a next state. -/
theorem everyStepRuns : Obligations.EveryStepRuns := step_next

end Sys2Proof.Machine
end

section
/-! PROOFS. Reset and hazards (70_reset_and_hazards.md): what either reset leaves, how a running command ends, and the
statements of this family. -/

namespace Sys2Proof.Machine

open Sys2Proof Safety

/-! ### Resets (R119, R120) -/

/-- A CTRL write with bit 0 clear does nothing (R23). -/
theorem writeReg_ctrl_clear {v : Word} (s : State) (hv : v.getLsbD 0 = false) : writeReg .ctrl v s = some s := by
  simp only [writeReg, hv, Bool.false_eq_true, if_false]

theorem statusWord_reset : statusWord .reset = 0 := by decide

theorem irq_resetBlock (s : State) : irq (resetBlock s) = false := rfl

/-! ### How a running command ends (R124) -/

/-- `op` is a soft reset: a write to CTRL with bit 0 set (R120). -/
def HostOp.IsSoftReset (op : HostOp) : Prop := ∃ w, op = .txn (.write 0x014 .b4 w) ∧ w.getLsbD 0 = true

/-- In `t` the command of `s` still runs, on the same input length. -/
def RunsOn (s t : State) : Prop := t.status.busy = true ∧ t.cmd = s.cmd ∧ t.inLen = s.inLen

/-- From `s` to `t` the command ends: it completes, or a reset aborts it. -/
def Ends (s t : State) : Prop :=
  t.status.busy = false
    ∧ (t.status.done = true
      ∨ (∃ rest, s.turns = .reset :: rest)
      ∨ (∃ rest op p, s.turns = .host :: rest ∧ s.program = op :: p ∧ op.IsSoftReset))

section

variable {s t u : State}

theorem RunsOn.refl (hb : s.status.busy = true) : RunsOn s s := ⟨hb, rfl, rfl⟩

theorem RunsOn.trans (h : RunsOn s t) (h' : RunsOn t u) : RunsOn s u :=
  ⟨h'.1, h'.2.1.trans h.2.1, h'.2.2.trans h.2.2⟩

/-- While BUSY a register write that is taken leaves the command running, unless it is a soft reset. -/
theorem writeReg_runsOn {r : Reg} {v : Word} (hb : s.status.busy = true) (hw : writeReg r v s = some t) :
    RunsOn s t ∨ (r = .ctrl ∧ v.getLsbD 0 = true ∧ t.status.busy = false) := by
  rcases writeReg_cases hw with
    ⟨-, hidle, -⟩ | ⟨-, -, rfl⟩ | ⟨-, rfl⟩ | ⟨-, hidle, -⟩ | ⟨-, rfl⟩ | ⟨hr, hv, rfl⟩ | rfl
  case inl | inr.inr.inr.inl => simp [hb] at hidle
  case inr.inr.inr.inr.inr.inl => exact .inr ⟨hr, hv, rfl⟩
  all_goals exact .inl ⟨hb, rfl, rfl⟩

theorem transact_runsOn (x : Txn) (hb : s.status.busy = true) :
    RunsOn s (transact x s) ∨ ((HostOp.txn x).IsSoftReset ∧ (transact x s).status.busy = false) := by
  rcases transact_cases x s with ⟨a, ht⟩ | ⟨off, size, v, s', rfl, hw, ht⟩ <;> rw [ht]
  · exact .inl ⟨hb, rfl, rfl⟩
  · rcases busWrite_cases hw with ⟨r, hoff, rfl, hreg, hr⟩ | ⟨-, -, -, hidle, -⟩
    · refine (writeReg_runsOn hb hr).imp_right ?_
      rintro ⟨rfl, hv, hidle⟩
      obtain rfl : off = 0x014 := BitVec.eq_of_toNat_eq (regAt_eq_ctrl _ hoff hreg)
      exact ⟨⟨v, rfl, hv⟩, hidle⟩
    · simp [hb] at hidle

theorem hostTurn_runsOn (hb : s.status.busy = true) :
    RunsOn s (hostTurn s)
    ∨ ((∃ op p, s.program = op :: p ∧ op.IsSoftReset) ∧ (hostTurn s).status.busy = false) := by
  rcases hostTurn_cases s with ht | ⟨x, p, hp, ht⟩ | ⟨a, p, ht⟩ <;> rw [ht]
  · exact .inl (.refl hb)
  · exact (transact_runsOn (s := { s with program := p }) x hb).imp_right
      fun ⟨hx, hidle⟩ => ⟨⟨_, p, hp, hx⟩, hidle⟩
  · exact .inl ⟨hb, rfl, rfl⟩

/-- The engine's turn while BUSY completes the command (R68). -/
theorem engineTurn_ends (hb : s.status.busy = true) (ht : engineTurn s = .next t) :
    t.status.busy = false ∧ t.status.done = true := by
  rcases engineTurn_cases s with ⟨hidle, -⟩ | ⟨-, out, -, he⟩ | ⟨-, thr, e, he⟩
  · simp [hb] at hidle
  all_goals
    rw [he] at ht
    cases ht
    exact ⟨rfl, rfl⟩

/-- A step while BUSY ends the command, or uses up a listed turn and leaves it running. -/
theorem step_ends_or_runsOn (hb : s.status.busy = true) (ht : step s = .next t) :
    Ends s t ∨ ((∃ turn, s.turns = turn :: t.turns) ∧ RunsOn s t) := by
  rcases step_cases s with ⟨-, -, he⟩ | ⟨-, hidle, -⟩ | ⟨rest, -, he⟩ | ⟨rest, hs, he⟩ | ⟨rest, hs, he⟩
  case inr.inl => simp [hb] at hidle
  all_goals rw [he] at ht
  case inl => exact .inl ((engineTurn_ends hb ht).imp_right .inl)
  case inr.inr.inl => exact .inl ((engineTurn_ends (s := { s with turns := rest }) hb ht).imp_right .inl)
  case inr.inr.inr.inl =>
    cases ht
    rcases hostTurn_runsOn (s := { s with turns := rest }) hb with hr | ⟨⟨op, p, hp, hop⟩, hidle⟩
    · exact .inr ⟨⟨.host, hs.trans (by rw [(hostTurn_keeps _).1])⟩, hr⟩
    · exact .inl ⟨hidle, .inr (.inr ⟨rest, op, p, hs, hp, hop⟩)⟩
  case inr.inr.inr.inr =>
    cases ht
    exact .inl ⟨rfl, .inr (.inl ⟨rest, hs⟩)⟩

/-- While BUSY the command ends within the listed turns and one more step: each turn that leaves it running is used up,
and with none listed the engine moves. -/
theorem busy_ends_within_turns (hb : s.status.busy = true) :
    ∃ (k : Nat) (u t : State), k ≤ s.turns.length ∧ Host.Core.run core k s = .next u ∧ RunsOn s u
      ∧ step u = .next t ∧ Ends u t := by
  induction hn : s.turns.length generalizing s with
  | zero =>
    obtain ⟨t, ht⟩ := step_next s
    rcases step_ends_or_runsOn hb ht with hend | ⟨⟨turn, hs⟩, -⟩
    · exact ⟨0, s, t, Nat.le_refl 0, rfl, .refl hb, ht, hend⟩
    · simp [hs] at hn
  | succ n ih =>
    obtain ⟨t, ht⟩ := step_next s
    rcases step_ends_or_runsOn hb ht with hend | ⟨⟨turn, hs⟩, hrun⟩
    · exact ⟨0, s, t, Nat.zero_le _, rfl, .refl hb, ht, hend⟩
    · obtain ⟨k, u, v, hk, hku, hu, hv⟩ := ih (s := t) hrun.1 (by simpa [hs] using hn)
      exact ⟨k + 1, u, v, Nat.succ_le_succ hk, (run_succ k ht).trans hku, hrun.trans hu, hv⟩

end

/-! ### The statements -/

/-- Settles O15: either reset is `resetBlock`, and a CTRL write with bit 0 clear keeps the state. -/
theorem resetsClearTheBlock : Obligations.ResetsClearTheBlock := by
  refine fun s => ⟨fun rest hs => ?hardware, fun v hv => ?soft, fun v hv => ?clear⟩
  case hardware => exact ⟨_, step_reset hs, rfl, statusWord_reset, irq_resetBlock _⟩
  case soft =>
    exact ⟨_, transact_write_reg_okay (r := .ctrl) rfl (writeReg_ctrl_reset s hv), rfl, statusWord_reset,
      irq_resetBlock s⟩
  case clear => exact transact_write_reg_okay (r := .ctrl) rfl (writeReg_ctrl_clear s hv)

/-- Settles O50: the run to the state before the command's end, and how the next step ends it. -/
theorem busyEndsWithinTheTurns : Obligations.BusyEndsWithinTheTurns := by
  intro s hb
  obtain ⟨k, u, t, hk, hrun, ⟨hbusy, hcmd, hlen⟩, hstep, hidle, hend⟩ := busy_ends_within_turns hb
  refine ⟨k, u, t, hk, hrun, hbusy, hcmd, hlen, hstep, hidle, hend.imp_right (Or.imp_right ?_)⟩
  rintro ⟨rest, _, p, hs, hp, w, rfl, hw⟩
  exact ⟨rest, w, p, hs, hp, hw⟩

end Sys2Proof.Machine
end
